-- ==== Sys2Proof/Word.lean ====
section
/-! DEFINITION. The bit-vector widths the block moves, and its numeric domain.

Bit 0 is the least significant bit (00_scope.md R10). -/

namespace Sys2Proof

/-- An 8-bit byte: a register address, a tape byte, an error code. -/
abbrev Byte := BitVec 8

/-- A 16-bit word: the command word CW, a tape word. -/
abbrev Half := BitVec 16

/-- A 32-bit register. -/
abbrev Word32 := BitVec 32

/-- A 64-bit register, data operand or response. -/
abbrev Word64 := BitVec 64

/-- NUM, the numeric domain of the datapath: exact rationals (00_scope.md R11, decision D2). -/
abbrev NUM := ℚ

end Sys2Proof
end

