-- ==== Sys2Proof/Syntax.lean ====
section
/-! DEFINITION. The commands of the block: the raw transaction and the seven instructions of the
opcode table (30_encoding.md R130, R132). -/

namespace Sys2Proof

/-- One host transaction as it arrives: the command word CW and the data operand DATA (R130). -/
structure Command where
  cw   : Half
  data : Word64
deriving DecidableEq, Repr

/-- One constructor per row of the opcode table (R132). Each carries its ADDR and DATA fields, also
where the instruction ignores them (R133, log entry 10), so that no bit of a command is lost. -/
inductive Instr where
  /-- NOP, OP 0x00 (40_host_commands.md R180). -/
  | nop (addr : Byte) (data : Word64)
  /-- CFG_WRITE, OP 0x01 (R181). -/
  | cfgWrite (addr : Byte) (data : Word64)
  /-- REG_READ, OP 0x02 (R182). -/
  | regRead (addr : Byte) (data : Word64)
  /-- START, OP 0x03 (R183). -/
  | start (addr : Byte) (data : Word64)
  /-- SAMPLE, OP 0x04 (R184). -/
  | sample (addr : Byte) (data : Word64)
  /-- FINISH, OP 0x05 (R185). -/
  | finish (addr : Byte) (data : Word64)
  /-- SOFT_RESET, OP 0x06 (R186). -/
  | softReset (addr : Byte) (data : Word64)
deriving DecidableEq, Repr

/-- What a command decodes to: a named instruction, or the reserved row of R132 with its CW (R133,
R135; log entry 11). -/
inductive Decoded where
  | instr (i : Instr)
  | reserved (cw : Half)
deriving DecidableEq, Repr

end Sys2Proof
end

