-- ==== Sys2Proof/Decode.lean ====
section
/-! DEFINITION. Decoding of commands, total on every CW and DATA, and the encoder written from the
same table (30_encoding.md R130 to R135). -/

namespace Sys2Proof

/-- OP = CW[15:8] (R130). -/
def Command.op (c : Command) : Byte := c.cw.extractLsb' 8 8

/-- ADDR = CW[7:0] (R130). -/
def Command.addr (c : Command) : Byte := c.cw.extractLsb' 0 8

/-- CW = (OP, ADDR), OP in the high byte (R130). -/
def cmdWord (op addr : Byte) : Half := op ++ addr

/-- The decoder selects the row by OP alone (R132); every other OP is the reserved row (R133), so
decoding never refuses a word (R135). -/
def decode (c : Command) : Decoded :=
  match c.op.toNat with
  | 0x00 => .instr (.nop c.addr c.data)
  | 0x01 => .instr (.cfgWrite c.addr c.data)
  | 0x02 => .instr (.regRead c.addr c.data)
  | 0x03 => .instr (.start c.addr c.data)
  | 0x04 => .instr (.sample c.addr c.data)
  | 0x05 => .instr (.finish c.addr c.data)
  | 0x06 => .instr (.softReset c.addr c.data)
  | _    => .reserved c.cw

/-- The OP of each instruction (R132). -/
def Instr.opcode : Instr → Byte
  | .nop _ _       => 0x00#8
  | .cfgWrite _ _  => 0x01#8
  | .regRead _ _   => 0x02#8
  | .start _ _     => 0x03#8
  | .sample _ _    => 0x04#8
  | .finish _ _    => 0x05#8
  | .softReset _ _ => 0x06#8

/-- The ADDR field of each instruction (R130). -/
def Instr.addr : Instr → Byte
  | .nop a _ => a
  | .cfgWrite a _ => a
  | .regRead a _ => a
  | .start a _ => a
  | .sample a _ => a
  | .finish a _ => a
  | .softReset a _ => a

/-- The DATA field of each instruction (R130). -/
def Instr.data : Instr → Word64
  | .nop _ d => d
  | .cfgWrite _ d => d
  | .regRead _ d => d
  | .start _ d => d
  | .sample _ d => d
  | .finish _ d => d
  | .softReset _ d => d

/-- The command that carries an instruction: CW = (OP, ADDR) and DATA (R130, R132). -/
def encode (i : Instr) : Command := ⟨cmdWord i.opcode i.addr, i.data⟩

/-- The command whose 80 bits are `v`: CW in bits 15..0 and DATA in bits 79..16, so that bit 0 is the
least significant bit of the first word (log entry 3). -/
def commandOfBits (v : Nat) : Command := ⟨BitVec.ofNat 16 v, BitVec.ofNat 64 (v / 2 ^ 16)⟩

/-- The command an opcode-table word of `nbits` bits stands for, every bit above `nbits` zero. -/
def tableCommand (nbits w : Nat) : Command := commandOfBits (w % 2 ^ nbits)

/-- The instruction the decoder reads from an opcode-table word; none for a reserved OP. -/
def decodeTableWord (nbits w : Nat) : Option Instr :=
  match decode (tableCommand nbits w) with
  | .instr i    => some i
  | .reserved _ => none

end Sys2Proof
end

