-- ==== Sys2Proof/Config.lean ====
section
/-! DEFINITION. What the implementation fixes for the shape of State, and the free values.

The free values have no body: nothing can be proved about which value they take. -/

namespace Sys2Proof

/-- C (HIST_CAP), the capacity of each history ring (00_scope.md R7). -/
abbrev Config.histCap : Nat := 256

/-- FREE VALUE (log entry 5). `f64` of a NaN or infinity pattern: 00_scope.md R11 gives `f64` for
finite patterns only. No run reaches it, because START and SAMPLE test `finite64` first. -/
opaque Config.f64NonFinite : Word64 → NUM

/-- FREE VALUE (log entry 6). `rnd(p, 0)`: 00_scope.md R12 gives `rnd(p, q)` for q > 0 only. No run
reaches it, because START refuses a zero rate. -/
opaque Config.rndByZero : Nat → Nat

end Sys2Proof
end

