-- ==== Sys2Proof/Machine/State.lean ====
section
/-! DEFINITION. The state of the block as plain data (10_state.md), its output records
(30_encoding.md R150), the reasons a step can stop, and the state after reset (R85). -/

namespace Sys2Proof.Machine

/-- MODE (10_state.md R51). -/
inductive Mode where
  | idle | run | done | fault
deriving DecidableEq, Repr

/-- LVL, the tone level (R59). -/
inductive Level where
  | low | high | none
deriving DecidableEq, Repr

/-- PST, the parser state (R64). -/
inductive PState where
  | waitHeader | readHeader | readData
deriving DecidableEq, Repr

/-- BT, the block type, decoded once at the header boundary (R67). -/
inductive BlockType where
  | title | reserved | data | endBlock
deriving DecidableEq, Repr

/-- The AGC gain: INF or an exact rational (00_scope.md R11, 41_agc.md R222). -/
inductive Gain where
  | inf
  | val (g : NUM)
deriving DecidableEq, Repr

/-- The normalized output: UNDEF or an exact rational (00_scope.md R11, 42_filter_slicer.md R242). -/
inductive NormOut where
  | undef
  | val (o : NUM)
deriving DecidableEq, Repr

/-- The error codes of 60_exceptions.md R341, other than "none". -/
inductive ErrorCode where
  | illegalOpcode | illegalAddr | illegalState
  | cfgRate | cfgAgcZero | cfgCapacity | cfgNonfinite | cfgGainOrder
  | badSample | indexOverflow
deriving DecidableEq, Repr

/-- The output records (30_encoding.md R152 to R162), each with its fields in the spec's order. A
TRACE record holds the exact values; they are rounded to binary64 in its wire form (R156). -/
inductive Record where
  /-- RUN, tag 0x01 (R152). -/
  | run (start : Word64) (level : Level) (dur : Word64) (next : Level)
  /-- BYTE, tag 0x02 (R153). -/
  | byte (data : Byte)
  /-- BLOCK_EMPTY, tag 0x03 (R154). -/
  | blockEmpty (type : BlockType)
  /-- BLOCK_REPORT, tag 0x04 (R155). -/
  | blockReport (type : BlockType) (length : Half)
  /-- DATA_REPORT, tag 0x05 (R157). -/
  | dataReport (length : Half) (index : Word32) (ok : Bool) (computed expected delta : Half)
  /-- END_REPORT, tag 0x06 (R158). -/
  | endReport (length : Half) (blocks errors : Word32)
  /-- FILE_OPEN, tag 0x07 (R159). -/
  | fileOpen (payload : List Byte)
  /-- FILE_APPEND, tag 0x08 (R160). -/
  | fileAppend (bytes : List Byte)
  /-- FILE_CLOSE, tag 0x09 (R161). -/
  | fileClose
  /-- CAPTURE_CLOSE, tag 0x0A (R162). -/
  | captureClose
  /-- TRACE, tag 0x0B (R156). -/
  | trace (n : Word64) (s y : NUM) (o : NormOut) (gain : Gain)
deriving DecidableEq, Repr

/-- A history ring: C entries of NUM, indexed by sample index mod C (R57). -/
abbrev Ring := Vector NUM Config.histCap

/-- A byte memory as (address, byte) pairs, addresses rising, no entry equal to 0, which is what an
unlisted address reads as (R66: every PB byte is 0 at reset and START; log entry 13). -/
abbrev Memory := List Host.Cell

/-- The configuration registers, addresses 0x00 to 0x0E (10_state.md R53, 30_encoding.md R140). -/
structure CfgRegs where
  ctrl       : BitVec 6
  sampleRate : Word32
  baudRate   : Word32
  delayK     : Word32
  gainMax    : Word64
  gainReacq  : Word64
  filtB0     : Word64
  filtB1     : Word64
  filtB2     : Word64
  filtB3     : Word64
  filtA1     : Word64
  filtA2     : Word64
  filtA3     : Word64
  traceLo    : Word64
  traceHi    : Word64
deriving DecidableEq, Repr

/-- The elements of 10_state.md sections 4 to 7, which a successful START gives their reset values
again (R86). -/
structure RunState where
  /-- S, raw samples (R57). -/
  ringS : Ring
  /-- P, instantaneous powers (R57). -/
  ringP : Ring
  /-- X, demodulator products (R57). -/
  ringX : Ring
  /-- Y, filter outputs (R57). -/
  ringY : Ring
  /-- W, the AGC window sum (R58). -/
  w : NUM
  /-- LVL (R59). -/
  lvl : Level
  /-- SAMPLE_INDEX, N (R60). -/
  n : Word64
  /-- RUN_START, RS (R61). -/
  rs : Word64
  /-- BIT_ACC, ACC (R62). -/
  acc : Word32
  /-- BIT_COUNT, CNT (R63). -/
  cnt : BitVec 5
  /-- PST (R64). -/
  pst : PState
  /-- HC (R65). -/
  hc : BitVec 3
  /-- HB[0..3] (R65). -/
  hb : Vector Byte 4
  /-- PCNT (R66). -/
  pcnt : BitVec 15
  /-- PB[0..32765] (R66). -/
  pb : Memory
  /-- BT (R67). -/
  bt : BlockType
  /-- BL (R67). -/
  bl : BitVec 14
  /-- BC (R67). -/
  bc : Half
  /-- BLOCK_COUNT (R68). -/
  blockCount : Word32
  /-- ERROR_COUNT (R69). -/
  errorCount : Word32
  /-- FOPEN (R70). -/
  fopen : Bool
  /-- CAPOPEN (R71). -/
  capopen : Bool
deriving DecidableEq, Repr

/-- The whole state: control (R51, R52), configuration (R53), AGC_DELAY (R55), the run (R57 to R71),
and the three ports to the host, which are the model's own fields (log entries 1 and 4). -/
structure State where
  /-- MODE (R51). -/
  mode : Mode
  /-- ERR (R52). -/
  err : Byte
  /-- ERR_INFO (R52). -/
  errInfo : Word64
  /-- The configuration registers (R53). -/
  cfg : CfgRegs
  /-- AGC_DELAY, D (R55). -/
  agcDelay : Word32
  /-- Sections 4 to 7 (R86). -/
  run : RunState
  /-- Port: the commands the host has issued and the block has not accepted, oldest first. -/
  inbox : List Command
  /-- Port: the output stream so far, oldest first (20_memory.md R113). -/
  records : List Record
  /-- Port: the responses so far, oldest first (30_encoding.md R130). -/
  responses : List Word64
deriving DecidableEq, Repr

/-- The reasons the machine stops with a fault. There is none: no error of the block stops it or
transfers control (60_exceptions.md R348), every error is a next state (log entry 12). -/
inductive Fault where
deriving DecidableEq, Repr

/-- The reasons an instruction has no meaning in the model. -/
inductive Refusal where
  /-- An arm of exec with no meaning yet raises it: safe, the model stops. No arm does. -/
  | notModelled (mnemonic : String)
deriving DecidableEq, Repr

/-- Every configuration register is 0 after reset (R53, R85). -/
def CfgRegs.reset : CfgRegs :=
  { ctrl := 0, sampleRate := 0, baudRate := 0, delayK := 0, gainMax := 0, gainReacq := 0,
    filtB0 := 0, filtB1 := 0, filtB2 := 0, filtB3 := 0, filtA1 := 0, filtA2 := 0, filtA3 := 0,
    traceLo := 0, traceHi := 0 }

/-- The reset and START values of 10_state.md sections 4 to 7 (R85, R86). -/
def RunState.reset : RunState :=
  { ringS := Vector.replicate _ 0, ringP := Vector.replicate _ 0, ringX := Vector.replicate _ 0,
    ringY := Vector.replicate _ 0, w := 0, lvl := .none, n := 0, rs := 0, acc := 0, cnt := 0,
    pst := .waitHeader, hc := 0, hb := Vector.replicate 4 0, pcnt := 0, pb := [], bt := .title,
    bl := 0, bc := 0, blockCount := 0, errorCount := 0, fopen := false, capopen := false }

/-- The machine right after a hardware reset (R85, 70_reset_and_hazards.md R370), with empty ports. -/
def State.reset : State :=
  { mode := .idle, err := 0, errInfo := 0, cfg := CfgRegs.reset, agcDelay := 0,
    run := RunState.reset, inbox := [], records := [], responses := [] }

end Sys2Proof.Machine
end

