-- ==== Sys2Proof/Machine/Operands.lean ====
section
/-! DEFINITION. Operand forms: the fixed constants, binary64 patterns and their exact values, the
rounding division, the decoded view of the configuration registers, and the word order of the tape. -/

namespace Sys2Proof.Machine

/-! ### Fixed constants (00_scope.md R7) -/

/-- THRESH_LO = 2/5 exactly (decision D41). -/
def threshLo : NUM := mkRat 2 5
/-- THRESH_HI = 1/2 exactly (decision D41). -/
def threshHi : NUM := mkRat 1 2
/-- BIT_CAP: positions 0..29 of the accumulator are usable. -/
abbrev bitCap : Nat := 30
/-- FLUSH_MIN: a LOW run with CNT ≥ 10 flushes first. -/
abbrev flushMin : Nat := 10
/-- FRAME_MIN: a frame needs CNT ≥ 11. -/
abbrev frameMin : Nat := 11
/-- SENTINEL: the block start byte. -/
abbrev sentinel : Byte := 0x02#8
/-- HDR_BYTES: header bytes after the sentinel. -/
abbrev hdrBytes : Nat := 4
/-- META_WORDS: payload words not written to a file. -/
abbrev metaWords : Nat := 4
/-- PB_BYTES = 2 × (2^14 − 1): the size of the payload buffer. -/
abbrev pbBytes : Nat := 32766

/-! ### binary64 (00_scope.md R11) -/

/-- Exponent field, bits 62..52. -/
def f64Exp (b : Word64) : Nat := (b.extractLsb' 52 11).toNat

/-- Fraction field, bits 51..0. -/
def f64Frac (b : Word64) : Nat := (b.extractLsb' 0 52).toNat

/-- `finite64(b)`: false for NaN and infinity patterns, whose exponent field is all ones. -/
def finite64 (b : Word64) : Bool := f64Exp b != 2047

/-- The magnitude of a finite pattern: subnormal 0.f · 2^-1022, normal 1.f · 2^(e-1023). -/
def f64Magnitude (b : Word64) : NUM :=
  if f64Exp b = 0 then mkRat (f64Frac b) (2 ^ 1074)
  else if f64Exp b < 1075 then mkRat (2 ^ 52 + f64Frac b : Nat) (2 ^ (1075 - f64Exp b))
  else mkRat ((2 ^ 52 + f64Frac b) * 2 ^ (f64Exp b - 1075) : Nat) 1

/-- `f64(b)`: the exact value of a finite pattern, sign bit 63, −0.0 giving 0. Of a pattern that is
not finite it is a free value (log entry 5). -/
def f64 (b : Word64) : NUM :=
  if finite64 b then (if b.getLsbD 63 then - f64Magnitude b else f64Magnitude b)
  else Config.f64NonFinite b

/-- The quotient p / q rounded to the nearest integer, ties to even, for q > 0. -/
def divHalfEven (p q : Nat) : Nat :=
  let m := p / q
  let r := p % q
  if 2 * r < q then m
  else if 2 * r > q then m + 1
  else m + m % 2

/-- The exponent e with 2^e ≤ a / d < 2^(e+1), for a, d > 0. -/
def binaryExponent (a d : Nat) : Int :=
  let e : Int := (Nat.log2 a : Int) - (Nat.log2 d : Int)
  if (if 0 ≤ e then d * 2 ^ e.toNat ≤ a else d ≤ a * 2 ^ (-e).toNat) then e else e - 1

/-- The magnitude a / d (d > 0) rounded to the nearest binary64, ties to even, as an unsigned pattern
with sign 0; a magnitude that rounds beyond the largest binary64 is +infinity (30_encoding.md R156). -/
def roundMagnitude (a d : Nat) : Nat :=
  if a = 0 then 0
  else
    let e := max (binaryExponent a d) (-1022)
    let u := e - 52
    let m := if 0 ≤ u then divHalfEven a (d * 2 ^ u.toNat) else divHalfEven (a * 2 ^ (-u).toNat) d
    min ((e + 1022).toNat * 2 ^ 52 + m) 0x7FF0000000000000

/-- The binary64 pattern nearest to an exact value, ties to even (30_encoding.md R156, R164). A value
below 0 keeps its sign bit also where it rounds to zero (log entry 9). -/
def roundF64 (v : NUM) : Word64 :=
  BitVec.ofNat 64 ((if v.num < 0 then 2 ^ 63 else 0) + roundMagnitude v.num.natAbs v.den)

/-! ### Rounding division (00_scope.md R12) -/

/-- `rnd(p, q)` = floor((2p + q) / (2q)), the value of p/q rounded half up, for q > 0 (decision D7).
`rnd(p, 0)` is a free value (log entry 6). -/
def rnd (p q : Nat) : Nat :=
  if q = 0 then Config.rndByZero p else (2 * p + q) / (2 * q)

/-! ### The configuration the pipeline reads (10_state.md R54) -/

/-- GMAX = f64(GAIN_MAX). -/
def CfgRegs.gmax (c : CfgRegs) : NUM := f64 c.gainMax
/-- GRE = f64(GAIN_REACQ). -/
def CfgRegs.gre (c : CfgRegs) : NUM := f64 c.gainReacq
/-- k = DELAY_K. -/
def CfgRegs.k (c : CfgRegs) : Nat := c.delayK.toNat
/-- SR = SAMPLE_RATE. -/
def CfgRegs.sr (c : CfgRegs) : Nat := c.sampleRate.toNat
/-- BR = BAUD_RATE. -/
def CfgRegs.br (c : CfgRegs) : Nat := c.baudRate.toNat

/-- agcdelay = round(SR/BR) (R55). -/
def CfgRegs.agcdelay (c : CfgRegs) : Nat := rnd c.sr c.br

/-- nbits(dur) = rnd(dur · BR, SR), the run's duration in bit periods (43_symbol_timer.md R270). -/
def CfgRegs.nbits (c : CfgRegs) (dur : Word64) : Nat := rnd (dur.toNat * c.br) c.sr

/-! ### Tape words (20_memory.md R107) -/

/-- `word(b0, b1)`: b0 is the high byte when WORD_LE = 0, b1 when WORD_LE = 1. -/
def tapeWord (wordLe : Bool) (b0 b1 : Byte) : Half := if wordLe then b1 ++ b0 else b0 ++ b1

end Sys2Proof.Machine
end

