-- ==== Sys2Proof/Machine/Flags.lean ====
section
/-! DEFINITION. Flags: the CTRL bits, the numbers of the enumerations, the STATUS register, the error
codes with their class, and the comparisons the slicer makes. The block has no arithmetic condition
codes (10_state.md R72). -/

namespace Sys2Proof.Machine

/-! ### CTRL (30_encoding.md R142) -/

/-- CTRL bit 0. -/
def CfgRegs.extractEn (c : CfgRegs) : Bool := c.ctrl.getLsbD 0
/-- CTRL bit 1. -/
def CfgRegs.captureEn (c : CfgRegs) : Bool := c.ctrl.getLsbD 1
/-- CTRL bit 2. -/
def CfgRegs.traceEn (c : CfgRegs) : Bool := c.ctrl.getLsbD 2
/-- CTRL bit 3. -/
def CfgRegs.runoutEn (c : CfgRegs) : Bool := c.ctrl.getLsbD 3
/-- CTRL bit 4. -/
def CfgRegs.clKeep (c : CfgRegs) : Bool := c.ctrl.getLsbD 4
/-- CTRL bit 5. -/
def CfgRegs.wordLe (c : CfgRegs) : Bool := c.ctrl.getLsbD 5

/-! ### Numbers of the enumerations (30_encoding.md R141, R143) -/

/-- MODE in STATUS bits 1:0. -/
def Mode.code : Mode → BitVec 2
  | .idle => 0#2 | .run => 1#2 | .done => 2#2 | .fault => 3#2

/-- Tone level: LOW = 0, HIGH = 1, NONE = 2. -/
def Level.code : Level → BitVec 2
  | .low => 0#2 | .high => 1#2 | .none => 2#2

/-- Parser state: WAIT_HEADER = 0, READ_HEADER = 1, READ_DATA = 2. -/
def PState.code : PState → BitVec 2
  | .waitHeader => 0#2 | .readHeader => 1#2 | .readData => 2#2

/-- Block type: TITLE = 0, reserved = 1, DATA = 2, END = 3. -/
def BlockType.code : BlockType → BitVec 2
  | .title => 0#2 | .reserved => 1#2 | .data => 2#2 | .endBlock => 3#2

/-- The block type of the top two bits of header word 0 (45_block_parser.md R303). -/
def BlockType.ofCode (b : BitVec 2) : BlockType :=
  if b = 0#2 then .title else if b = 1#2 then .reserved else if b = 2#2 then .data else .endBlock

/-- STATUS: {ERR, CAPOPEN, FOPEN, PST, LVL, MODE}, bits 63..16 zero (30_encoding.md R141,
40_host_commands.md R182). -/
def State.status (s : State) : Word64 :=
  (s.err ++ BitVec.ofBool s.run.capopen ++ BitVec.ofBool s.run.fopen ++ s.run.pst.code
    ++ s.run.lvl.code ++ s.mode.code).setWidth 64

/-! ### Error codes (60_exceptions.md R341) -/

/-- The ERR code of an error. -/
def ErrorCode.code : ErrorCode → Byte
  | .illegalOpcode => 0x01#8
  | .illegalAddr   => 0x02#8
  | .illegalState  => 0x03#8
  | .cfgRate       => 0x10#8
  | .cfgAgcZero    => 0x11#8
  | .cfgCapacity   => 0x12#8
  | .cfgNonfinite  => 0x13#8
  | .cfgGainOrder  => 0x14#8
  | .badSample     => 0x20#8
  | .indexOverflow => 0x21#8

/-- The mode an error leaves: R341's last column (command errors leave it unchanged, configuration
errors leave IDLE, run faults leave FAULT). -/
def ErrorCode.modeAfter (e : ErrorCode) (m : Mode) : Mode :=
  match e with
  | .illegalOpcode | .illegalAddr | .illegalState => m
  | .cfgRate | .cfgAgcZero | .cfgCapacity | .cfgNonfinite | .cfgGainOrder => .idle
  | .badSample | .indexOverflow => .fault

/-! ### Comparisons of the slicer (42_filter_slicer.md R243) -/

/-- G > bound; INF is greater than every bound (00_scope.md R11). -/
def Gain.gt (g : Gain) (bound : NUM) : Bool :=
  match g with
  | .inf   => true
  | .val q => decide (bound < q)

/-- o < t; UNDEF is below nothing (it is never compared, R243). -/
def NormOut.lt (o : NormOut) (t : NUM) : Bool :=
  match o with
  | .undef => false
  | .val q => decide (q < t)

/-- o > t; UNDEF is above nothing (it is never compared, R243). -/
def NormOut.gt (o : NormOut) (t : NUM) : Bool :=
  match o with
  | .undef => false
  | .val q => decide (t < q)

end Sys2Proof.Machine
end

