-- ==== Sys2Proof/Machine/Ops.lean ====
section
/-! DEFINITION. The named operations over the three places that hold or move data (20_memory.md R100):
history rings, buffers, registers, the output stream; and raising an error, which is the block's whole
exception mechanism (60_exceptions.md R342, R348). -/

namespace Sys2Proof.Machine

/-! ### History rings (20_memory.md R104, R105) -/

/-- `B[m mod C]`. -/
def ringAt (b : Ring) (m : Nat) : NUM :=
  b[m % Config.histCap]'(Nat.mod_lt _ (by decide))

/-- `hist(B, n − lag)`: 0 before sample 0, `B[(n − lag) mod C]` otherwise. -/
def hist (b : Ring) (n lag : Nat) : NUM :=
  if n < lag then 0 else ringAt b (n - lag)

/-- `B[n mod C] <- v`. -/
def ringWrite (b : Ring) (n : Nat) (v : NUM) : Ring :=
  b.set (n % Config.histCap) v (Nat.mod_lt _ (by decide))

/-! ### The payload buffer as a canonical memory (10_state.md R66) -/

/-- The byte at an address; an unlisted address reads as 0. -/
def Memory.read (m : Memory) (a : Nat) : Byte :=
  match m with
  | [] => 0#8
  | (k, v) :: rest => if k = a then v else Memory.read rest a

/-- Write a byte, keeping the canonical form: writing 0 removes the entry. -/
def Memory.write (m : Memory) (a : Nat) (b : Byte) : Memory :=
  match m with
  | [] => if b = 0#8 then [] else [(a, b)]
  | (k, v) :: rest =>
    if k < a then (k, v) :: Memory.write rest a b
    else
      let tail := if k = a then rest else (k, v) :: rest
      if b = 0#8 then tail else (a, b) :: tail

/-- The canonical form: addresses strictly rising, no entry equal to 0. -/
def Memory.wf (m : Memory) : Bool :=
  match m with
  | [] => true
  | (k, v) :: rest => (v != 0#8) && (rest.all fun c => decide (k < c.1)) && Memory.wf rest

/-- The `len` bytes from address `a` on. -/
def Memory.readBytes (m : Memory) (a len : Nat) : List Byte :=
  (List.range len).map fun i => Memory.read m (a + i)

/-- `PB[i] <- b` for i < PB_BYTES; the buffer has no other entry (R66, log entry 7). -/
def pbWrite (m : Memory) (i : Nat) (b : Byte) : Memory :=
  if i < pbBytes then Memory.write m i b else m

/-- `HB[i] <- b` for i < 4; the buffer has no other entry (R65, log entry 7). -/
def hbWrite (h : Vector Byte 4) (i : Nat) (b : Byte) : Vector Byte 4 :=
  if hi : i < 4 then h.set i b hi else h

/-! ### The output stream and the response port -/

/-- `emit(r)`: append one record (00_scope.md R12, 20_memory.md R113). -/
def emit (r : Record) (s : State) : State := { s with records := s.records ++ [r] }

/-- `resp <- v`: the 64-bit response of a REG_READ (00_scope.md R12, 30_encoding.md R130). -/
def respond (v : Word64) (s : State) : State := { s with responses := s.responses ++ [v] }

/-! ### Errors (60_exceptions.md R341 to R343) -/

/-- `raise E(info)`: ERR and ERR_INFO record the error, MODE becomes what R341's last column says, and
nothing else changes (R342, R345). The block has no handler, saved state or return (R348). -/
def raise (e : ErrorCode) (info : Word64) (s : State) : State :=
  { s with mode := e.modeAfter s.mode, err := e.code, errInfo := info }

/-- ERR_INFO of a command error: the command word zero-extended (R343). -/
def cmdInfo (op addr : Byte) : Word64 := (cmdWord op addr).setWidth 64

/-! ### The register space (30_encoding.md R140) -/

/-- The register at an address, zero-extended to 64 bits; none for a reserved address
(40_host_commands.md R182). -/
def readReg (addr : Byte) (s : State) : Option Word64 :=
  match addr.toNat with
  | 0x00 => some (s.cfg.ctrl.setWidth 64)
  | 0x01 => some (s.cfg.sampleRate.setWidth 64)
  | 0x02 => some (s.cfg.baudRate.setWidth 64)
  | 0x03 => some (s.cfg.delayK.setWidth 64)
  | 0x04 => some s.cfg.gainMax
  | 0x05 => some s.cfg.gainReacq
  | 0x06 => some s.cfg.filtB0
  | 0x07 => some s.cfg.filtB1
  | 0x08 => some s.cfg.filtB2
  | 0x09 => some s.cfg.filtB3
  | 0x0A => some s.cfg.filtA1
  | 0x0B => some s.cfg.filtA2
  | 0x0C => some s.cfg.filtA3
  | 0x0D => some s.cfg.traceLo
  | 0x0E => some s.cfg.traceHi
  | 0x10 => some s.status
  | 0x11 => some s.run.n
  | 0x12 => some (s.agcDelay.setWidth 64)
  | 0x13 => some (s.run.blockCount.setWidth 64)
  | 0x14 => some (s.run.errorCount.setWidth 64)
  | 0x15 => some (s.run.acc.setWidth 64)
  | 0x16 => some (s.run.cnt.setWidth 64)
  | 0x17 => some s.errInfo
  | 0x18 => some s.run.rs
  | _    => none

/-- The configuration registers after a write of DATA to an address: CTRL keeps DATA[5:0], a 32-bit
register DATA[31:0], the others all 64 bits; none for an address that is not writable
(30_encoding.md R131, 40_host_commands.md R181). -/
def writeCfg (addr : Byte) (data : Word64) (c : CfgRegs) : Option CfgRegs :=
  match addr.toNat with
  | 0x00 => some { c with ctrl := data.setWidth 6 }
  | 0x01 => some { c with sampleRate := data.setWidth 32 }
  | 0x02 => some { c with baudRate := data.setWidth 32 }
  | 0x03 => some { c with delayK := data.setWidth 32 }
  | 0x04 => some { c with gainMax := data }
  | 0x05 => some { c with gainReacq := data }
  | 0x06 => some { c with filtB0 := data }
  | 0x07 => some { c with filtB1 := data }
  | 0x08 => some { c with filtB2 := data }
  | 0x09 => some { c with filtB3 := data }
  | 0x0A => some { c with filtA1 := data }
  | 0x0B => some { c with filtA2 := data }
  | 0x0C => some { c with filtA3 := data }
  | 0x0D => some { c with traceLo := data }
  | 0x0E => some { c with traceHi := data }
  | _    => none

/-! ### Accepting a command (20_memory.md R109, R112) -/

/-- The next command and the state without it in the inbox; none when the host has issued none (log
entry 1). -/
def accept (s : State) : Option (Command × State) :=
  match s.inbox with
  | []        => none
  | c :: rest => some (c, { s with inbox := rest })

/-- A command with a reserved OP raises ILLEGAL_OPCODE with ERR_INFO = zext(CW), in every mode, and has
no other effect (30_encoding.md R133, 60_exceptions.md R341). -/
def rejectReserved (cw : Half) (s : State) : State := raise .illegalOpcode (cw.setWidth 64) s

end Sys2Proof.Machine
end

