-- ==== Sys2Proof/Machine/Parser.lean ====
section
/-! DEFINITION. The block-protocol parser (45_block_parser.md), run once per decoded byte, with the
dispatch of complete blocks and the carrier-loss actions. -/

namespace Sys2Proof.Machine

/-- PST <- v. -/
def setPst (v : PState) (s : State) : State := { s with run := { s.run with pst := v } }

/-- FOPEN <- v. -/
def setFopen (v : Bool) (s : State) : State := { s with run := { s.run with fopen := v } }

/-- CAPOPEN <- v. -/
def setCapopen (v : Bool) (s : State) : State := { s with run := { s.run with capopen := v } }

/-! ### Files and captures -/

/-- Emit FILE_CLOSE and clear FOPEN if a file is open (R311, R312, 40_host_commands.md R185). -/
def closeFile (s : State) : State :=
  if s.run.fopen then setFopen false (emit .fileClose s) else s

/-- Emit CAPTURE_CLOSE and clear CAPOPEN if a capture interval is open (R312,
40_host_commands.md R185). -/
def closeCapture (s : State) : State :=
  if s.run.capopen then setCapopen false (emit .captureClose s) else s

/-- The payload bytes from `a` on of the completed block, PB[a .. 2L − 1]. -/
def payloadFrom (a : Nat) (s : State) : List Byte :=
  s.run.pb.readBytes a (2 * s.run.bl.toNat - a)

/-- Emit FILE_OPEN with the whole payload and set FOPEN (R306). -/
def openFile (s : State) : State := setFopen true (emit (.fileOpen (payloadFrom 0 s)) s)

/-! ### Dispatch (R305 to R311) -/

/-- L as the u16 field of a report. -/
def blockLen (s : State) : Half := s.run.bl.setWidth 16

/-- Payload word i, word(PB[2i], PB[2i+1]) (20_memory.md R107). -/
def payloadWord (s : State) (i : Nat) : Half :=
  tapeWord s.cfg.wordLe (s.run.pb.read (2 * i)) (s.run.pb.read (2 * i + 1))

/-- The checksum of the payload: the sum of all L words mod 65536 (R308). -/
def checksum (s : State) : Half :=
  (List.range s.run.bl.toNat).foldl (fun sum i => sum + payloadWord s i) 0#16

/-- BLOCK_COUNT <- 0, ERROR_COUNT <- 0 (R306). -/
def resetStatistics (s : State) : State :=
  { s with run := { s.run with blockCount := 0, errorCount := 0 } }

/-- With EXTRACT_EN, close the open file and open a new one (R306). -/
def replaceFile (s : State) : State :=
  if s.cfg.extractEn then openFile (closeFile s) else s

/-- DispatchTitle(): report, reset the statistics, replace the file (R306). -/
def dispatchTitle (s : State) : State :=
  replaceFile (resetStatistics (emit (.blockReport .title (blockLen s)) s))

/-- DispatchReserved(): report only (R307). -/
def dispatchReserved (s : State) : State := emit (.blockReport .reserved (blockLen s)) s

/-- Statistics(ok): both counters wrap mod 2^32 (R309). -/
def statistics (ok : Bool) (s : State) : State :=
  { s with run := { s.run with
      blockCount := s.run.blockCount + 1
      errorCount := if ok then s.run.errorCount else s.run.errorCount + 1 } }

/-- FileAppend(): the payload after the 4 metadata words, whatever the checksum (R310). -/
def fileAppend (s : State) : State :=
  if s.run.fopen = true ∧ 2 * metaWords < 2 * s.run.bl.toNat then
    emit (.fileAppend (payloadFrom (2 * metaWords) s)) s
  else s

/-- The DATA_REPORT of the completed block: L, the running index, the verdict, the computed and the
expected checksum and their difference (R308, 30_encoding.md R157). -/
def dataReport (s : State) : Record :=
  .dataReport (blockLen s) s.run.blockCount (checksum s == s.run.bc) (checksum s) s.run.bc
    (s.run.bc - checksum s)

/-- DispatchData(): checksum report, statistics, append (R308 to R310). -/
def dispatchData (s : State) : State :=
  fileAppend (statistics (checksum s == s.run.bc) (emit (dataReport s) s))

/-- DispatchEnd(): report the statistics and close the file (R311). -/
def dispatchEnd (s : State) : State :=
  closeFile (emit (.endReport (blockLen s) s.run.blockCount s.run.errorCount) s)

/-- Dispatch() by block type (R305). -/
def dispatch (s : State) : State :=
  match s.run.bt with
  | .title    => dispatchTitle s
  | .reserved => dispatchReserved s
  | .data     => dispatchData s
  | .endBlock => dispatchEnd s

/-! ### Reassembly (R300 to R304) -/

/-- Header word 0 = word(HB[0], HB[1]) (R303). -/
def headerWord0 (s : State) : Half := tapeWord s.cfg.wordLe s.run.hb[0] s.run.hb[1]

/-- Header word 1 = word(HB[2], HB[3]), the checksum field (R303). -/
def headerWord1 (s : State) : Half := tapeWord s.cfg.wordLe s.run.hb[2] s.run.hb[3]

/-- BT <- w0[15:14], BL <- w0[13:0], BC <- header word 1 (R303). -/
def setHeader (s : State) : State :=
  { s with run := { s.run with
      bt := BlockType.ofCode ((headerWord0 s).extractLsb' 14 2)
      bl := (headerWord0 s).extractLsb' 0 14
      bc := headerWord1 s } }

/-- READ_DATA with PCNT 0 (R303). -/
def enterData (s : State) : State :=
  { s with run := { s.run with pst := .readData, pcnt := 0 } }

/-- A block of length 0 is reported as empty and not dispatched (R303, R304). -/
def beginBlock (s : State) : State :=
  if s.run.bl = 0#14 then setPst .waitHeader (emit (.blockEmpty s.run.bt) s) else enterData s

/-- DecodeHeader() (R303). -/
def decodeHeader (s : State) : State := beginBlock (setHeader s)

/-- HB[HC] <- b, HC <- HC + 1 (R301). -/
def storeHeader (b : Byte) (s : State) : State :=
  { s with run := { s.run with hb := hbWrite s.run.hb s.run.hc.toNat b, hc := s.run.hc + 1 } }

/-- The fourth header byte completes the header (R301). -/
def completeHeader (s : State) : State := if s.run.hc = 4#3 then decodeHeader s else s

/-- HeaderByte(b) (R301). -/
def headerByte (b : Byte) (s : State) : State := completeHeader (storeHeader b s)

/-- PB[PCNT] <- b, PCNT <- PCNT + 1 (R302). -/
def storePayload (b : Byte) (s : State) : State :=
  { s with run := { s.run with
      pb := pbWrite s.run.pb s.run.pcnt.toNat b, pcnt := s.run.pcnt + 1 } }

/-- The last payload byte dispatches the block and returns to WAIT_HEADER (R302). -/
def completePayload (s : State) : State :=
  if s.run.pcnt.toNat = 2 * s.run.bl.toNat then setPst .waitHeader (dispatch s) else s

/-- PayloadByte(b) (R302). -/
def payloadByte (b : Byte) (s : State) : State := completePayload (storePayload b s)

/-- READ_HEADER with HC 0 (R300). -/
def enterHeader (s : State) : State :=
  { s with run := { s.run with pst := .readHeader, hc := 0 } }

/-- Parser(b): one decoded byte, by state; in WAIT_HEADER every byte but the sentinel is ignored
(R300). -/
def parser (b : Byte) (s : State) : State :=
  match s.run.pst with
  | .waitHeader => if b = sentinel then enterHeader s else s
  | .readHeader => headerByte b s
  | .readData   => payloadByte b s

/-! ### Carrier loss (R312) -/

/-- With CL_KEEP = 0 a carrier loss returns the parser to WAIT_HEADER (R312, decision D14). -/
def resetParser (s : State) : State :=
  if s.cfg.clKeep then s
  else { s with run := { s.run with pst := .waitHeader, hc := 0, pcnt := 0 } }

/-- CarrierLossActions(): close file and capture, then the parser (R312). -/
def carrierLossActions (s : State) : State := resetParser (closeCapture (closeFile s))

end Sys2Proof.Machine
end

