-- ==== Sys2Proof/Machine/HostCommands.lean ====
section
/-! DEFINITION. The host commands other than SAMPLE (40_host_commands.md R180 to R187). -/

namespace Sys2Proof.Machine

/-- CFG_WRITE and START are accepted in IDLE and DONE (R187). -/
def Mode.acceptsConfig : Mode → Bool
  | .idle | .done => true
  | .run | .fault => false

/-- NOP: no effect, in every mode (R180). -/
def execNop (s : State) : Host.Outcome State Fault Refusal := .next s

/-- CFG_WRITE: ILLEGAL_STATE in RUN or FAULT, then ILLEGAL_ADDR for an address that is not writable;
otherwise the register takes the kept bits, unchecked (R181). -/
def execCfgWrite (addr : Byte) (data : Word64) (s : State) : Host.Outcome State Fault Refusal :=
  if !s.mode.acceptsConfig then .next (raise .illegalState (cmdInfo 0x01#8 addr) s)
  else match writeCfg addr data s.cfg with
    | some c => .next { s with cfg := c }
    | none   => .next (raise .illegalAddr (cmdInfo 0x01#8 addr) s)

/-- REG_READ: the whole register, zero-extended; a reserved address answers 0 and raises ILLEGAL_ADDR
(R182, 60_exceptions.md R342). -/
def execRegRead (addr : Byte) (s : State) : Host.Outcome State Fault Refusal :=
  match readReg addr s with
  | some v => .next (respond v s)
  | none   => .next (raise .illegalAddr (cmdInfo 0x02#8 addr) (respond 0#64 s))

/-- The binary64 registers START checks, with their addresses 0x04 to 0x0C in order (R183). -/
def CfgRegs.binary64 (c : CfgRegs) : List (Word64 × Word64) :=
  [(0x04#64, c.gainMax), (0x05#64, c.gainReacq), (0x06#64, c.filtB0), (0x07#64, c.filtB1),
   (0x08#64, c.filtB2), (0x09#64, c.filtB3), (0x0A#64, c.filtA1), (0x0B#64, c.filtA2),
   (0x0C#64, c.filtA3)]

/-- The first error START's checks find, with its ERR_INFO; none for a legal configuration (R183, in
the order of 60_exceptions.md R344). -/
def startError (c : CfgRegs) : Option (ErrorCode × Word64) :=
  if c.sr = 0 then some (.cfgRate, 0x01#64)
  else if c.br = 0 then some (.cfgRate, 0x02#64)
  else if c.agcdelay = 0 then some (.cfgAgcZero, 0x01#64)
  else if Config.histCap ≤ c.agcdelay then some (.cfgCapacity, 0x01#64)
  else if Config.histCap ≤ c.k then some (.cfgCapacity, 0x03#64)
  else match c.binary64.find? (fun r => !finite64 r.2) with
    | some r => some (.cfgNonfinite, r.1)
    | none   => if c.gmax < c.gre then some (.cfgGainOrder, 0x05#64) else none

/-- The start of a run: sections 4 to 7 of 10_state.md take their reset values, AGC_DELAY is set, ERR
and ERR_INFO are cleared, MODE is RUN, the configuration stays (R183, 10_state.md R86). -/
def beginRun (s : State) : State :=
  { s with run := RunState.reset, agcDelay := BitVec.ofNat 32 s.cfg.agcdelay, err := 0, errInfo := 0,
           mode := .run }

/-- START: ILLEGAL_STATE in RUN or FAULT; the first configuration error, leaving IDLE; otherwise a run
begins (R183). -/
def execStart (addr : Byte) (s : State) : Host.Outcome State Fault Refusal :=
  if !s.mode.acceptsConfig then .next (raise .illegalState (cmdInfo 0x03#8 addr) s)
  else match startError s.cfg with
    | some (e, info) => .next (raise e info s)
    | none           => .next (beginRun s)

/-- FINISH: ILLEGAL_STATE outside RUN; otherwise the open file and capture interval are closed, in that
order, and MODE is DONE; nothing is flushed (R185). -/
def execFinish (addr : Byte) (s : State) : Host.Outcome State Fault Refusal :=
  if s.mode ≠ .run then .next (raise .illegalState (cmdInfo 0x05#8 addr) s)
  else .next { closeCapture (closeFile s) with mode := .done }

/-- SOFT_RESET: every state element takes its reset value, in every mode, and no record is emitted
(R186, 70_reset_and_hazards.md R370). The three host ports are no state elements of the block and keep
what they hold (log entry 4). -/
def execSoftReset (s : State) : Host.Outcome State Fault Refusal :=
  .next { State.reset with inbox := s.inbox, records := s.records, responses := s.responses }

end Sys2Proof.Machine
end

