-- ==== Sys2Proof/Machine/Agc.lean ====
section
/-! DEFINITION. The AGC gain estimator (41_agc.md), first stage of a SAMPLE step. -/

namespace Sys2Proof.Machine

/-- AgcUpdate(n, s): write the sample and its power, and move the window sum on by one sample
(R220). -/
def agcUpdate (x : NUM) (s : State) : State :=
  let n := s.run.n.toNat
  let ringP := ringWrite s.run.ringP n (x * x)
  { s with run := { s.run with
      ringS := ringWrite s.run.ringS n x
      ringP := ringP
      w := s.run.w + ringAt ringP n - hist ringP n s.agcDelay.toNat } }

/-- The gain after AgcUpdate: INF when W = 0, D / W otherwise (R222, R223). -/
def agcGain (s : State) : Gain :=
  if s.run.w = 0 then .inf else .val ((s.agcDelay.toNat : NUM) / s.run.w)

end Sys2Proof.Machine
end

