-- ==== Sys2Proof/Machine/Demodulator.lean ====
section
/-! DEFINITION. The delay-multiply demodulator and its third-order IIR low-pass filter
(42_filter_slicer.md R240 to R242, R249), second stage of a SAMPLE step. -/

namespace Sys2Proof.Machine

/-- x = s · hist(S, n − k), written to the ring X (R240). -/
def demodProduct (x : NUM) (s : State) : State :=
  let n := s.run.n.toNat
  { s with run := { s.run with
      ringX := ringWrite s.run.ringX n (x * hist s.run.ringS n s.cfg.k) } }

/-- The filter output y of the step, after the product is in X: the recurrence with b[0..3], a[1..3]
and a[0] = 1 (R241, R249). -/
def iirOutput (s : State) : NUM :=
  let n := s.run.n.toNat
  f64 s.cfg.filtB0 * hist s.run.ringX n 0 + f64 s.cfg.filtB1 * hist s.run.ringX n 1
    + f64 s.cfg.filtB2 * hist s.run.ringX n 2 + f64 s.cfg.filtB3 * hist s.run.ringX n 3
    - f64 s.cfg.filtA1 * hist s.run.ringY n 1 - f64 s.cfg.filtA2 * hist s.run.ringY n 2
    - f64 s.cfg.filtA3 * hist s.run.ringY n 3

/-- Y[n mod C] <- y (R241). -/
def storeOutput (y : NUM) (s : State) : State :=
  { s with run := { s.run with ringY := ringWrite s.run.ringY s.run.n.toNat y } }

/-- o = y · G, UNDEF while G = INF (R242). -/
def normOut (y : NUM) (g : Gain) : NormOut :=
  match g with
  | .inf   => .undef
  | .val q => .val (y * q)

end Sys2Proof.Machine
end

