-- ==== Sys2Proof/Machine/Framer.lean ====
section
/-! DEFINITION. The byte framer (44_byte_framer.md), run once per flush. -/

namespace Sys2Proof.Machine

/-- The frame passes the start-bit, length and stop-bit checks (R291, R292). -/
def frameOk (r : Word32) (c : Nat) : Bool :=
  !r.getLsbD 0 && decide (frameMin ≤ c) && r.getLsbD 9 && r.getLsbD 10

/-- The framed byte, R[8:1] (R293). -/
def frameByte (r : Word32) : Byte := r.extractLsb' 1 8

/-- CaptureOut(byte): with CAPTURE_EN, a BYTE record and CAPOPEN <- 1 (R294). -/
def captureOut (b : Byte) (s : State) : State :=
  if s.cfg.captureEn then setCapopen true (emit (.byte b) s) else s

/-- Framer(R, c): a frame that fails a check is dropped silently (R290, R295). -/
def framer (r : Word32) (c : Nat) (s : State) : State :=
  if frameOk r c then parser (frameByte r) (captureOut (frameByte r) s) else s

end Sys2Proof.Machine
end

