-- ==== Sys2Proof/Machine/SymbolTimer.lean ====
section
/-! DEFINITION. The symbol-duration accumulator (43_symbol_timer.md), run once per level-run event. -/

namespace Sys2Proof.Machine

/-- `for j in [lo, hi): ACC[j] <- 1`. -/
def setOnes (acc : Word32) (lo hi : Nat) : Word32 :=
  acc ||| ((BitVec.allOnes 32 <<< lo) &&& ~~~(BitVec.allOnes 32 <<< hi))

/-- min(CNT + nb, 30), the bit count saturating at the cap (R272, R273, decision D8). -/
def bumpCount (cnt : BitVec 5) (nb : Nat) : Nat := min (cnt.toNat + nb) bitCap

/-- ACC <- 0, CNT <- 0 (R276). -/
def clearBits (s : State) : State := { s with run := { s.run with acc := 0, cnt := 0 } }

/-- Flush(): clear the accumulator, then hand what it held to the framer (R276). -/
def flush (s : State) : State := framer s.run.acc s.run.cnt.toNat (clearBits s)

/-- HighRun(nb): nb 1-bits at the current offset: the pseudocode of R272. DEDUCED (log entry 14): R272's
Example (CNT = 8, ACC = 0x082, nb = 2 giving 0x682, 10) contradicts it, and is not followed; the pseudocode
gives 0x382, 10 there. -/
def highRun (nb : Nat) (s : State) : State :=
  { s with run := { s.run with
      acc := setOnes s.run.acc s.run.cnt.toNat (bumpCount s.run.cnt nb)
      cnt := BitVec.ofNat 5 (bumpCount s.run.cnt nb) } }

/-- A LOW run that finds at least 10 bits is a frame boundary (R273). -/
def boundaryFlush (s : State) : State := if flushMin ≤ s.run.cnt.toNat then flush s else s

/-- nb 0-bits only advance the bit count (R273). -/
def addZeros (nb : Nat) (s : State) : State :=
  { s with run := { s.run with cnt := BitVec.ofNat 5 (bumpCount s.run.cnt nb) } }

/-- LowRun(nb): flush at a frame boundary, then nb 0-bits (R273). -/
def lowRun (nb : Nat) (s : State) : State := addZeros nb (boundaryFlush s)

/-- Entering NONE flushes a nonempty accumulator (R275). -/
def lossFlush (s : State) : State := if s.run.cnt ≠ 0#5 then flush s else s

/-- CarrierLost(): the flush, then the carrier-loss actions (R275). -/
def carrierLost (s : State) : State := carrierLossActions (lossFlush s)

/-- The bits of the ended run; a NONE run adds none (R271, R274). -/
def addRun (prev : Level) (nb : Nat) (s : State) : State :=
  match prev with
  | .high => highRun nb s
  | .low  => lowRun nb s
  | .none => s

/-- A run that ends in NONE is a carrier loss (R271). -/
def endRun (new : Level) (s : State) : State := if new = .none then carrierLost s else s

/-- SymbolTimer(prev, dur, new): the ended run's bits, then the carrier loss (R271). -/
def symbolTimer (prev : Level) (dur : Word64) (new : Level) (s : State) : State :=
  endRun new (addRun prev (s.cfg.nbits dur) s)

end Sys2Proof.Machine
end

