-- ==== Sys2Proof/Machine/Slicer.lean ====
section
/-! DEFINITION. The tone slicer, its level-run events and the diagnostic trace
(42_filter_slicer.md R243 to R248). -/

namespace Sys2Proof.Machine

/-- Classify(G, o, LVL): carrier loss by the gain bounds, else the thresholds with the hysteresis band
[2/5, 1/2] (R243). -/
def classify (c : CfgRegs) (g : Gain) (o : NormOut) (lvl : Level) : Level :=
  if g.gt c.gmax ∨ (lvl = .none ∧ g.gt c.gre) then .none
  else if o.lt threshLo then .low
  else if o.gt threshHi then .high
  else lvl

/-- TraceOut(n, s, y, o, G) (R247). -/
def traceOut (x y : NUM) (o : NormOut) (g : Gain) (s : State) : State :=
  if s.cfg.traceEn ∧ s.cfg.traceLo.toNat ≤ s.run.n.toNat ∧ s.run.n.toNat ≤ s.cfg.traceHi.toNat then
    emit (.trace s.run.n x y o g) s
  else s

/-- The duration n − RS of the run that ends in step n (R245). -/
def runDuration (s : State) : Word64 := s.run.n - s.run.rs

/-- With RUNOUT_EN, the level-run event as a RUN record (R246). -/
def runOut (new : Level) (s : State) : State :=
  if s.cfg.runoutEn then emit (.run s.run.rs s.run.lvl (runDuration s) new) s else s

/-- LVL <- new, RS <- n (R246). -/
def enterLevel (new : Level) (s : State) : State :=
  { s with run := { s.run with lvl := new, rs := s.run.n } }

/-- LevelChange(n, new): the RUN record, the new level and run start, then the symbol timer (R246). -/
def levelChange (new : Level) (s : State) : State :=
  symbolTimer s.run.lvl (runDuration s) new (enterLevel new (runOut new s))

end Sys2Proof.Machine
end

