-- ==== Sys2Proof/Machine/Sample.lean ====
section
/-! DEFINITION. SAMPLE (40_host_commands.md R184): one step of the pipeline, its stages in the order of
the source's data flow. -/

namespace Sys2Proof.Machine

/-- The AGC update and the product: the state from which gain and filter output are read. -/
def frontEnd (x : NUM) (s : State) : State := demodProduct x (agcUpdate x s)

/-- The gain of the step (R184, 41_agc.md R222). -/
def sampleGain (x : NUM) (s : State) : Gain := agcGain (frontEnd x s)

/-- The filter output y of the step (R184, 42_filter_slicer.md R241). -/
def sampleFilter (x : NUM) (s : State) : NUM := iirOutput (frontEnd x s)

/-- The normalized output o of the step (R184, 42_filter_slicer.md R242). -/
def sampleNorm (x : NUM) (s : State) : NormOut := normOut (sampleFilter x s) (sampleGain x s)

/-- The level of the step, classified from the gain and the normalized output (R184, R243). -/
def sampleLevel (x : NUM) (s : State) : Level :=
  classify s.cfg (sampleGain x s) (sampleNorm x s) s.run.lvl

/-- The step up to and including the trace record: S, P, W, X and Y are written (R184). -/
def sampleFront (x : NUM) (s : State) : State :=
  traceOut x (sampleFilter x s) (sampleNorm x s) (sampleGain x s)
    (storeOutput (sampleFilter x s) (frontEnd x s))

/-- The level-run event of the step, if the level changes (R245). -/
def sampleEvent (new : Level) (s : State) : State :=
  if new ≠ s.run.lvl then levelChange new s else s

/-- N <- n + 1 (R184). -/
def advance (s : State) : State := { s with run := { s.run with n := s.run.n + 1 } }

/-- One accepted sample (R184). -/
def sampleStep (x : NUM) (s : State) : State :=
  advance (sampleEvent (sampleLevel x s) (sampleFront x s))

/-- SAMPLE: refused outside RUN; BAD_SAMPLE for a NaN or infinity pattern, then INDEX_OVERFLOW, both
entering FAULT with nothing consumed; otherwise one step (R184, 60_exceptions.md R344). -/
def execSample (addr : Byte) (data : Word64) (s : State) : Host.Outcome State Fault Refusal :=
  if s.mode ≠ .run then .next (raise .illegalState (cmdInfo 0x04#8 addr) s)
  else if !finite64 data then .next (raise .badSample s.run.n s)
  else if s.run.n = 0xFFFFFFFFFFFFFFFF#64 then .next (raise .indexOverflow s.run.n s)
  else .next (sampleStep (f64 data) s)

end Sys2Proof.Machine
end

