-- ==== Sys2Proof/Machine/Dispatch.lean ====
section
/-! DEFINITION. One arm per instruction. -/

namespace Sys2Proof.Machine

/-- The meaning of each instruction (40_host_commands.md R180 to R186). -/
def exec (i : Instr) (s : State) : Host.Outcome State Fault Refusal :=
  match i with
  | .nop _ _ => Sys2Proof.Machine.execNop s
  | .cfgWrite addr data => Sys2Proof.Machine.execCfgWrite addr data s
  | .regRead addr _ => Sys2Proof.Machine.execRegRead addr s
  | .start addr _ => Sys2Proof.Machine.execStart addr s
  | .sample addr data => Sys2Proof.Machine.execSample addr data s
  | .finish addr _ => Sys2Proof.Machine.execFinish addr s
  | .softReset _ _ => Sys2Proof.Machine.execSoftReset s

end Sys2Proof.Machine
end

