-- ==== Sys2Proof/Machine/Step.lean ====
section
/-! DEFINITION. One step: the block accepts the oldest command and completes all of its effects
(20_memory.md R109, R112). -/

namespace Sys2Proof.Machine

/-- One step. With no command issued the block holds its state and waits (60_exceptions.md R354,
70_reset_and_hazards.md R370; log entry 1). A reserved OP raises ILLEGAL_OPCODE (30_encoding.md R133). -/
def step (s : State) : Host.Outcome State Fault Refusal :=
  match accept s with
  | none => .next s
  | some (c, s') =>
    match decode c with
    | .instr i     => exec i s'
    | .reserved cw => .next (rejectReserved cw s')

/-- The state with the command of an opcode-table word at the front of the inbox, where step takes its
next command (log entry 2). -/
def State.withFetchWord (s : State) (nbits w : Nat) : State :=
  { s with inbox := tableCommand nbits w :: s.inbox }

end Sys2Proof.Machine
end

