-- ==== Sys2Proof/Machine/Assembler.lean ====
section
/-! DEFINITION. The pseudo-instructions of the test notation as the command sequences they expand to
(30_encoding.md R164 to R167). The block sees only the SAMPLE commands. -/

namespace Sys2Proof.Machine

/-- `SAMPLE v` for a real v, assembled to the nearest binary64 (R164). -/
def asmSample (v : NUM) : Instr := .sample 0x00#8 (roundF64 v)

/-- `TONE H, m`: m copies of `SAMPLE PREV`; PREV stays (R165). -/
def toneHigh (prev : NUM) (m : Nat) : List Instr := List.replicate m (asmSample prev)

/-- `TONE L, m`: m samples of alternating sign, starting with −PREV (R165). -/
def toneLow (prev : NUM) (m : Nat) : List Instr :=
  match m with
  | 0     => []
  | m + 1 => asmSample (-prev) :: toneLow (-prev) m

/-- PREV after a tone: `TONE L, m` negates it m times (R165). -/
def prevAfterTone (high : Bool) (prev : NUM) (m : Nat) : NUM :=
  if high ∨ m % 2 = 0 then prev else -prev

/-- The 11 frame bits of a byte, least significant data bit first: start 0, eight data bits, two stop
bits 1 (R166). -/
def frameBits (b : Byte) : List Bool :=
  false :: ((List.range 8).map fun j => b.getLsbD j) ++ [true, true]

/-- A sequence of tone bits of `m` samples each, from PREV on. -/
def toneBits (prev : NUM) (m : Nat) (bits : List Bool) : List Instr :=
  match bits with
  | []        => []
  | b :: rest => (if b then toneHigh prev m else toneLow prev m)
      ++ toneBits (prevAfterTone b prev m) m rest

/-- `SENDBYTE b, m` (R166). -/
def sendByte (prev : NUM) (b : Byte) (m : Nat) : List Instr := toneBits prev m (frameBits b)

/-- `SILENCE m`: m copies of `SAMPLE 0.0`; PREV becomes 0 (R167). -/
def silence (m : Nat) : List Instr := List.replicate m (asmSample 0)

end Sys2Proof.Machine
end

