-- ==== Sys2Proof/Machine/Records.lean ====
section
/-! DEFINITION. The wire form of the output records (30_encoding.md R151 to R163). -/

namespace Sys2Proof.Machine

/-- The low `k` bytes of a number, least significant first. -/
def bytesLE (k v : Nat) : List Byte := (List.range k).map fun i => BitVec.ofNat 8 (v / 2 ^ (8 * i))

/-- A byte string: its length as a u16, then the bytes in order (R151). -/
def byteString (bs : List Byte) : List Byte := bytesLE 2 bs.length ++ bs

/-- The binary64 pattern sent for a gain: INF as +infinity (R156). -/
def Gain.pattern : Gain → Word64
  | .inf   => 0x7FF0000000000000#64
  | .val g => roundF64 g

/-- The binary64 pattern sent for a normalized output: UNDEF as a quiet NaN (R156). -/
def NormOut.pattern : NormOut → Word64
  | .undef => 0x7FF8000000000000#64
  | .val o => roundF64 o

/-- The tag byte of a record (R152 to R162). -/
def Record.tag : Record → Byte
  | .run ..         => 0x01#8
  | .byte ..        => 0x02#8
  | .blockEmpty ..  => 0x03#8
  | .blockReport .. => 0x04#8
  | .dataReport ..  => 0x05#8
  | .endReport ..   => 0x06#8
  | .fileOpen ..    => 0x07#8
  | .fileAppend ..  => 0x08#8
  | .fileClose      => 0x09#8
  | .captureClose   => 0x0A#8
  | .trace ..       => 0x0B#8

/-- The fields of a record in the order listed, each integer least significant byte first. -/
def Record.fields : Record → List Byte
  | .run start level dur next =>
      bytesLE 8 start.toNat ++ bytesLE 1 level.code.toNat ++ bytesLE 8 dur.toNat
        ++ bytesLE 1 next.code.toNat
  | .byte b => [b]
  | .blockEmpty t => bytesLE 1 t.code.toNat
  | .blockReport t len => bytesLE 1 t.code.toNat ++ bytesLE 2 len.toNat
  | .dataReport len index ok computed expected delta =>
      bytesLE 2 len.toNat ++ bytesLE 4 index.toNat ++ bytesLE 1 ok.toNat ++ bytesLE 2 computed.toNat
        ++ bytesLE 2 expected.toNat ++ bytesLE 2 delta.toNat
  | .endReport len blocks errors =>
      bytesLE 2 len.toNat ++ bytesLE 4 blocks.toNat ++ bytesLE 4 errors.toNat
  | .fileOpen payload => byteString payload
  | .fileAppend bytes => byteString bytes
  | .fileClose => []
  | .captureClose => []
  | .trace n s y o gain =>
      bytesLE 8 n.toNat ++ bytesLE 8 (roundF64 s).toNat ++ bytesLE 8 (roundF64 y).toNat
        ++ bytesLE 8 o.pattern.toNat ++ bytesLE 8 gain.pattern.toNat

/-- The wire form of a record: its tag, then its fields (R151). -/
def Record.wire (r : Record) : List Byte := r.tag :: r.fields

/-- The output stream as the host receives it. -/
def State.wireOut (s : State) : List Byte := s.records.flatMap Record.wire

end Sys2Proof.Machine
end

