-- ==== Sys2Proof/Safety.lean ====
section
/-! DEFINITION. The terms claims are stated in: the invariants of the block, the modes each command may
leave, the errors that apply to a command, the file automaton of the output stream, and the checksum of
a payload as a byte list. -/

namespace Sys2Proof.Machine

/-! ### Invariants -/

/-- Σ pwr(m) for m from n − D to n − 1, with pwr(m) = 0 for m < 0, read from the ring P
(10_state.md R58, 41_agc.md R221; n is the index of the next sample). -/
def windowSum (p : Ring) (n d : Nat) : NUM :=
  match d with
  | 0     => 0
  | d + 1 => windowSum p n d + hist p n (d + 1)

/-- The AGC window: D < C and W is the sum of the last D powers (R55, R58, R221). -/
def State.WindowInv (s : State) : Prop :=
  s.agcDelay.toNat < Config.histCap ∧
  s.run.w = windowSum s.run.ringP s.run.n.toNat s.agcDelay.toNat

/-- Every entry of P is the square of the entry of S (R57). -/
def State.PowerInv (s : State) : Prop :=
  ∀ m, ringAt s.run.ringP m = ringAt s.run.ringS m * ringAt s.run.ringS m

/-- RS ≤ N, and RS < N once a step has completed (R61). -/
def State.IndexInv (s : State) : Prop :=
  s.run.rs.toNat ≤ s.run.n.toNat ∧ (s.run.n.toNat ≠ 0 → s.run.rs.toNat < s.run.n.toNat)

/-- The accumulator: CNT ≤ 30, ACC < 2^CNT, and CNT = 0 while the level is NONE (R62, R63, R277). -/
def State.TimerInv (s : State) : Prop :=
  s.run.cnt.toNat ≤ bitCap ∧ s.run.acc.toNat < 2 ^ s.run.cnt.toNat ∧
  (s.run.lvl = .none → s.run.cnt = 0#5)

/-- The parser counts: HC < 4 in READ_HEADER, PCNT < 2·BL in READ_DATA, and both in their range
(R65, R66). -/
def State.ParserInv (s : State) : Prop :=
  s.run.hc.toNat ≤ hdrBytes ∧ s.run.pcnt.toNat ≤ pbBytes ∧
  (s.run.pst = .readHeader → s.run.hc.toNat < hdrBytes) ∧
  (s.run.pst = .readData → s.run.pcnt.toNat < 2 * s.run.bl.toNat)

/-- The payload buffer keeps its canonical form and lists only addresses it has (R66). -/
def State.BufferInv (s : State) : Prop :=
  Memory.wf s.run.pb = true ∧ ∀ c ∈ s.run.pb, c.1 < pbBytes

/-- A run is in progress or was stopped by a fault. -/
def Mode.inRun : Mode → Bool
  | .run | .fault => true
  | .idle | .done => false

/-- FOPEN only with EXTRACT_EN and CAPOPEN only with CAPTURE_EN, each only during a run or in FAULT
(R70, R71). -/
def State.FileInv (s : State) : Prop :=
  (s.run.fopen = true → s.cfg.extractEn = true ∧ s.mode.inRun = true) ∧
  (s.run.capopen = true → s.cfg.captureEn = true ∧ s.mode.inRun = true)

/-- In RUN and FAULT the configuration has passed START's checks and AGC_DELAY is round(SR/BR)
(R54, R55). -/
def State.ConfigInv (s : State) : Prop :=
  s.mode.inRun = true → startError s.cfg = none ∧ s.agcDelay.toNat = s.cfg.agcdelay

/-- ERR is 0 or a code of R341, 0 leaves ERR_INFO 0, and FAULT always has an error (R52, R341, R346). -/
def State.ErrorInv (s : State) : Prop :=
  (s.err = 0#8 ∨ ∃ e : ErrorCode, s.err = e.code) ∧
  (s.err = 0#8 → s.errInfo = 0#64) ∧ (s.mode = .fault → s.err ≠ 0#8)

/-! ### Modes (40_host_commands.md R187) -/

/-- The modes a command may leave when issued in a mode: the cells of R187's table, ILLEGAL_STATE
leaving the mode unchanged. -/
def modesAfter (i : Instr) (m : Mode) : List Mode :=
  match i, m with
  | .nop _ _, m          => [m]
  | .cfgWrite _ _, m     => [m]
  | .regRead _ _, m      => [m]
  | .start _ _, .idle    => [.run, .idle]
  | .start _ _, .done    => [.run, .idle]
  | .start _ _, m        => [m]
  | .sample _ _, .run    => [.run, .fault]
  | .sample _ _, m       => [m]
  | .finish _ _, .run    => [.done]
  | .finish _ _, m       => [m]
  | .softReset _ _, _    => [.idle]

/-- The cells of R187's table that say ILLEGAL_STATE. -/
def illegalIn (i : Instr) (m : Mode) : Bool :=
  match i with
  | .nop _ _ | .regRead _ _ | .softReset _ _ => false
  | .cfgWrite _ _ | .start _ _ => !m.acceptsConfig
  | .sample _ _ | .finish _ _ => m != .run

/-! ### Errors (60_exceptions.md R341, R343, R344) -/

/-- The errors that apply to an instruction in a state: the rows of R341, each with its ERR code, its
ERR_INFO (R343: the command word, the address of the offending register, or N) and the mode it leaves.
ILLEGAL_STATE comes before every other (R344); ILLEGAL_OPCODE is no instruction's. -/
inductive Raises (s : State) : Instr → Byte → Word64 → Mode → Prop where
  | writeState (a : Byte) (d : Word64) : s.mode = .run ∨ s.mode = .fault →
      Raises s (.cfgWrite a d) 0x03#8 ((0x01#8 ++ a : Half).setWidth 64) s.mode
  | startState (a : Byte) (d : Word64) : s.mode = .run ∨ s.mode = .fault →
      Raises s (.start a d) 0x03#8 ((0x03#8 ++ a : Half).setWidth 64) s.mode
  | sampleState (a : Byte) (d : Word64) : s.mode ≠ .run →
      Raises s (.sample a d) 0x03#8 ((0x04#8 ++ a : Half).setWidth 64) s.mode
  | finishState (a : Byte) (d : Word64) : s.mode ≠ .run →
      Raises s (.finish a d) 0x03#8 ((0x05#8 ++ a : Half).setWidth 64) s.mode
  | writeAddr (a : Byte) (d : Word64) : s.mode = .idle ∨ s.mode = .done → 0x0E < a.toNat →
      Raises s (.cfgWrite a d) 0x02#8 ((0x01#8 ++ a : Half).setWidth 64) s.mode
  | readAddr (a : Byte) (d : Word64) : a = 0x0F#8 ∨ 0x19 ≤ a.toNat →
      Raises s (.regRead a d) 0x02#8 ((0x02#8 ++ a : Half).setWidth 64) s.mode
  | sampleRate (a : Byte) (d : Word64) : s.mode = .idle ∨ s.mode = .done → s.cfg.sampleRate = 0#32 →
      Raises s (.start a d) 0x10#8 0x01#64 .idle
  | baudRate (a : Byte) (d : Word64) : s.mode = .idle ∨ s.mode = .done → s.cfg.baudRate = 0#32 →
      Raises s (.start a d) 0x10#8 0x02#64 .idle
  | agcZero (a : Byte) (d : Word64) : s.mode = .idle ∨ s.mode = .done →
      2 * s.cfg.sampleRate.toNat < s.cfg.baudRate.toNat → Raises s (.start a d) 0x11#8 0x01#64 .idle
  | agcCapacity (a : Byte) (d : Word64) : s.mode = .idle ∨ s.mode = .done →
      256 ≤ (2 * s.cfg.sampleRate.toNat + s.cfg.baudRate.toNat) / (2 * s.cfg.baudRate.toNat) →
      Raises s (.start a d) 0x12#8 0x01#64 .idle
  | delayCapacity (a : Byte) (d : Word64) : s.mode = .idle ∨ s.mode = .done →
      256 ≤ s.cfg.delayK.toNat → Raises s (.start a d) 0x12#8 0x03#64 .idle
  | nonfinite (a : Byte) (d : Word64) (reg : Byte) (v : Word64) : s.mode = .idle ∨ s.mode = .done →
      0x04 ≤ reg.toNat → reg.toNat ≤ 0x0C → readReg reg s = some v → v.extractLsb' 52 11 = 0x7FF#11 →
      Raises s (.start a d) 0x13#8 (reg.setWidth 64) .idle
  | gainOrder (a : Byte) (d : Word64) : s.mode = .idle ∨ s.mode = .done →
      f64 s.cfg.gainMax < f64 s.cfg.gainReacq → Raises s (.start a d) 0x14#8 0x05#64 .idle
  | badSample (a : Byte) (d : Word64) : s.mode = .run → d.extractLsb' 52 11 = 0x7FF#11 →
      Raises s (.sample a d) 0x20#8 s.run.n .fault
  | indexOverflow (a : Byte) (d : Word64) : s.mode = .run → s.run.n = 0xFFFFFFFFFFFFFFFF#64 →
      Raises s (.sample a d) 0x21#8 s.run.n .fault

/-- What an instruction that raises an error answers: a REG_READ 0, every other nothing (R342). -/
def errorResponse : Instr → List Word64
  | .regRead _ _ => [0#64]
  | .nop _ _ | .cfgWrite _ _ | .start _ _ | .sample _ _ | .finish _ _ | .softReset _ _ => []

/-- The command is a SOFT_RESET. -/
def isSoftReset : Instr → Bool
  | .softReset _ _ => true
  | .nop _ _ | .cfgWrite _ _ | .regRead _ _ | .start _ _ | .sample _ _ | .finish _ _ => false

/-- The next command is a SOFT_RESET. -/
def State.nextIsSoftReset (s : State) : Prop :=
  ∃ c rest i, s.inbox = c :: rest ∧ decode c = .instr i ∧ isSoftReset i = true

/-! ### The output stream -/

/-- The file automaton over one record: FILE_OPEN needs no file open, FILE_CLOSE and FILE_APPEND need
one (45_block_parser.md R313); none where the order is broken. -/
def fileRecord (fopen : Bool) (r : Record) : Option Bool :=
  match r with
  | .fileOpen _   => if fopen then none else some true
  | .fileAppend _ => if fopen then some true else none
  | .fileClose    => if fopen then some false else none
  | .run ..         => some fopen
  | .byte ..        => some fopen
  | .blockEmpty ..  => some fopen
  | .blockReport .. => some fopen
  | .dataReport ..  => some fopen
  | .endReport ..   => some fopen
  | .captureClose   => some fopen
  | .trace ..       => some fopen

/-- The file automaton over a sequence of records. -/
def fileRecords (fopen : Bool) (rs : List Record) : Option Bool :=
  match rs with
  | []        => some fopen
  | r :: rest => (fileRecord fopen r).bind fun b => fileRecords b rest

/-- The record is a BYTE record. -/
def Record.isByte : Record → Bool
  | .byte .. => true
  | .run .. | .blockEmpty .. | .blockReport .. | .dataReport .. | .endReport .. | .fileOpen ..
  | .fileAppend .. | .fileClose | .captureClose | .trace .. => false

/-- The record's wire form determines it: it is no TRACE record, whose values are rounded, and its
byte string fits its u16 length. -/
def Record.wireExact : Record → Bool
  | .fileOpen p   => p.length < 2 ^ 16
  | .fileAppend p => p.length < 2 ^ 16
  | .trace ..     => false
  | .run .. | .byte .. | .blockEmpty .. | .blockReport .. | .dataReport .. | .endReport ..
  | .fileClose | .captureClose => true

/-! ### Blocks as byte sequences -/

/-- The sum mod 65536 of the 16-bit words of a byte sequence (45_block_parser.md R308), the first byte of a
pair high, or low where words are little-endian (20_memory.md R107). -/
def wordSum (wordLe : Bool) : List Byte → Half
  | b0 :: b1 :: rest => (if wordLe then b1 ++ b0 else b0 ++ b1) + wordSum wordLe rest
  | _                => 0#16

/-- The parser over a sequence of decoded bytes, in order (45_block_parser.md R300). -/
def parseBytes (bs : List Byte) (s : State) : State := bs.foldl (fun s b => parser b s) s

/-- The accumulator over a sequence of tape bits, each as a run of one bit period
(30_encoding.md R146). -/
def addBits (bits : List Bool) (s : State) : State :=
  bits.foldl (fun s b => addRun (if b then .high else .low) 1 s) s

/-! ### Scaling the recording level (41_agc.md R225) -/

/-- The signal path of `t` is that of `s` for a stream multiplied by c: samples times c, powers,
products, filter outputs and window sum times c². -/
structure Scaled (c : NUM) (s t : State) : Prop where
  cfg      : t.cfg = s.cfg
  agcDelay : t.agcDelay = s.agcDelay
  n        : t.run.n = s.run.n
  lvl      : t.run.lvl = s.run.lvl
  ringS    : ∀ m, ringAt t.run.ringS m = c * ringAt s.run.ringS m
  ringP    : ∀ m, ringAt t.run.ringP m = c * c * ringAt s.run.ringP m
  ringX    : ∀ m, ringAt t.run.ringX m = c * c * ringAt s.run.ringX m
  ringY    : ∀ m, ringAt t.run.ringY m = c * c * ringAt s.run.ringY m
  w        : t.run.w = c * c * s.run.w

end Sys2Proof.Machine
end

