-- ==== Sys2Proof/WellFormed.lean ====
section
/-! DEFINITION. What 30_encoding.md R133 asks of whoever writes a command: a field an opcode ignores
"should be written as zero".

The block accepts the other commands too and ignores the field's value, so no meaning and no statement
of the model assumes `Instr.wf` (log entry 10). Reserved register addresses are not ill-formed: they
raise ILLEGAL_ADDR. -/

namespace Sys2Proof

/-- The data bits a CFG_WRITE drops are zero: CTRL keeps DATA[5:0], a 32-bit register DATA[31:0], and
every other address all 64 bits (R131, R133). -/
def cfgDataWf (addr : Byte) (data : Word64) : Bool :=
  if addr = 0x00#8 then data.toNat < 2 ^ 6
  else if addr = 0x01#8 ∨ addr = 0x02#8 ∨ addr = 0x03#8 then data.toNat < 2 ^ 32
  else true

/-- Every field the instruction ignores is zero (R133). -/
def Instr.wf : Instr → Bool
  | .nop addr data       => addr == 0#8 && data == 0#64
  | .cfgWrite addr data  => cfgDataWf addr data
  | .regRead _ data      => data == 0#64
  | .start addr data     => addr == 0#8 && data == 0#64
  | .sample addr _       => addr == 0#8
  | .finish addr data    => addr == 0#8 && data == 0#64
  | .softReset addr data => addr == 0#8 && data == 0#64

end Sys2Proof
end

