-- ==== Sys2Proof/Certificates/Slice0/Obligations.lean ====
section
/-! DEFINITION. The statements for the provers. Each docstring names the rule or sections of spec/ it
formalises; OBLIGATIONS.json lists them. -/

open Sys2Proof Sys2Proof.Machine

/-! ### Encoding -/

/-- 30_encoding.md R130 to R132: decoding and encoding agree in both directions, for every instruction
with every value of its ADDR and DATA and for every command that is not reserved. -/
def Obligations.DecodeEncodeAgree : Prop :=
  (∀ i : Instr, decode (encode i) = .instr i) ∧
  (∀ (c : Command) (i : Instr), decode c = .instr i → encode i = c)

/-- 30_encoding.md R132, R133, R135 and spec/opcode_table.json: the row is selected by match and mask
0xFF00 on CW alone, and every other CW is the reserved row. -/
def Obligations.DecodeSelectsTheRowByMask : Prop :=
  ∀ (cw : Half) (data : Word64),
    (cw &&& 0xFF00#16 = 0x0000#16 → decode ⟨cw, data⟩ = .instr (.nop (cw.setWidth 8) data)) ∧
    (cw &&& 0xFF00#16 = 0x0100#16 → decode ⟨cw, data⟩ = .instr (.cfgWrite (cw.setWidth 8) data)) ∧
    (cw &&& 0xFF00#16 = 0x0200#16 → decode ⟨cw, data⟩ = .instr (.regRead (cw.setWidth 8) data)) ∧
    (cw &&& 0xFF00#16 = 0x0300#16 → decode ⟨cw, data⟩ = .instr (.start (cw.setWidth 8) data)) ∧
    (cw &&& 0xFF00#16 = 0x0400#16 → decode ⟨cw, data⟩ = .instr (.sample (cw.setWidth 8) data)) ∧
    (cw &&& 0xFF00#16 = 0x0500#16 → decode ⟨cw, data⟩ = .instr (.finish (cw.setWidth 8) data)) ∧
    (cw &&& 0xFF00#16 = 0x0600#16 → decode ⟨cw, data⟩ = .instr (.softReset (cw.setWidth 8) data)) ∧
    (0x0700 ≤ cw.toNat → decode ⟨cw, data⟩ = .reserved cw)

/-- 30_encoding.md R164 and 95_test_vectors.md: command words written out in the spec decode to the
commands it writes beside them. -/
def Obligations.SpecWordsDecode : Prop :=
  decode ⟨0x0000#16, 0x0000000000000000#64⟩ = .instr (.nop 0x00#8 0#64) ∧
  decode ⟨0x0101#16, 0x0000000000000002#64⟩ = .instr (.cfgWrite 0x01#8 2#64) ∧
  decode ⟨0x0210#16, 0x0000000000000000#64⟩ = .instr (.regRead 0x10#8 0#64) ∧
  decode ⟨0x0300#16, 0x0000000000000000#64⟩ = .instr (.start 0x00#8 0#64) ∧
  decode ⟨0x0400#16, 0xBFF0000000000000#64⟩ = .instr (.sample 0x00#8 0xBFF0000000000000#64) ∧
  decode ⟨0x0500#16, 0x0000000000000000#64⟩ = .instr (.finish 0x00#8 0#64) ∧
  decode ⟨0x0600#16, 0x0000000000000000#64⟩ = .instr (.softReset 0x00#8 0#64) ∧
  decode ⟨0x0700#16, 0x0000000000000000#64⟩ = .reserved 0x0700#16

/-- 20_memory.md R109, R112 and 60_exceptions.md R354: a step takes the oldest command out of the inbox
and runs the instruction it decodes to; with no command the block waits; and the command of a table word
placed by withFetchWord is the next one run. The inbox is the model's own port (log entries 1, 2). -/
def Obligations.StepRunsTheDecodedInstruction : Prop :=
  (∀ (s : State) (c : Command) (rest : List Command) (i : Instr),
    s.inbox = c :: rest → decode c = .instr i → step s = exec i { s with inbox := rest }) ∧
  (∀ s : State, s.inbox = [] → step s = .next s) ∧
  (∀ (s : State) (nbits w : Nat) (i : Instr),
    decodeTableWord nbits w = some i → step (s.withFetchWord nbits w) = exec i s)

/-- 30_encoding.md R133 and 60_exceptions.md R341: a command with OP 0x07..0xFF raises ILLEGAL_OPCODE in
every mode, ERR_INFO = zext(CW), with no other effect than leaving the inbox, the model's own port (log
entry 1). -/
def Obligations.ReservedOpcodeRaisesIllegalOpcode : Prop :=
  ∀ (s : State) (c : Command) (rest : List Command),
    s.inbox = c :: rest → 0x07 ≤ c.op.toNat →
    step s = .next { s with inbox := rest, err := 0x01#8, errInfo := c.cw.setWidth 64 }

/-- 30_encoding.md R133: the fields an opcode ignores, and the data bits a CFG_WRITE drops, have no
effect. -/
def Obligations.IgnoredFieldsHaveNoEffect : Prop :=
  ∀ (a a' : Byte) (d d' : Word64) (s : State),
    exec (.nop a d) s = exec (.nop a' d') s ∧
    exec (.softReset a d) s = exec (.softReset a' d') s ∧
    exec (.regRead a d) s = exec (.regRead a d') s ∧
    exec (.start a d) s = exec (.start a d') s ∧
    exec (.finish a d) s = exec (.finish a d') s ∧
    ((s.mode = .idle ∨ s.mode = .done) → exec (.start a d) s = exec (.start a' d) s) ∧
    (s.mode = .run → exec (.finish a d) s = exec (.finish a' d) s) ∧
    (s.mode = .run → exec (.sample a d) s = exec (.sample a' d) s) ∧
    (d.toNat % 2 ^ 6 = d'.toNat % 2 ^ 6 → exec (.cfgWrite 0x00#8 d) s = exec (.cfgWrite 0x00#8 d') s) ∧
    (d.toNat % 2 ^ 32 = d'.toNat % 2 ^ 32 → 1 ≤ a.toNat → a.toNat ≤ 3 →
      exec (.cfgWrite a d) s = exec (.cfgWrite a d') s)

/-! ### Host commands -/

/-- 40_host_commands.md R180, 30_encoding.md R134: NOP completes with no effect, in every mode. -/
def Obligations.NopHasNoEffect : Prop :=
  ∀ (addr : Byte) (data : Word64) (s : State), exec (.nop addr data) s = .next s

/-- 40_host_commands.md R181, whole: ILLEGAL_STATE in RUN and FAULT, ILLEGAL_ADDR for 0x0F..0xFF, and
otherwise the register at ADDR takes the kept bits of DATA and nothing else changes. -/
def Obligations.CfgWriteFollowsItsRule : Prop :=
  ∀ (addr : Byte) (data : Word64) (s : State),
    ((s.mode = .run ∨ s.mode = .fault) → exec (.cfgWrite addr data) s =
      .next { s with err := 0x03#8, errInfo := (0x01#8 ++ addr : Half).setWidth 64 }) ∧
    ((s.mode = .idle ∨ s.mode = .done) →
      (0x0E < addr.toNat → exec (.cfgWrite addr data) s =
        .next { s with err := 0x02#8, errInfo := (0x01#8 ++ addr : Half).setWidth 64 }) ∧
      exec (.cfgWrite 0x00#8 data) s = .next { s with cfg := { s.cfg with ctrl := data.extractLsb' 0 6 } } ∧
      exec (.cfgWrite 0x01#8 data) s = .next { s with cfg := { s.cfg with sampleRate := data.extractLsb' 0 32 } } ∧
      exec (.cfgWrite 0x02#8 data) s = .next { s with cfg := { s.cfg with baudRate := data.extractLsb' 0 32 } } ∧
      exec (.cfgWrite 0x03#8 data) s = .next { s with cfg := { s.cfg with delayK := data.extractLsb' 0 32 } } ∧
      exec (.cfgWrite 0x04#8 data) s = .next { s with cfg := { s.cfg with gainMax := data } } ∧
      exec (.cfgWrite 0x05#8 data) s = .next { s with cfg := { s.cfg with gainReacq := data } } ∧
      exec (.cfgWrite 0x06#8 data) s = .next { s with cfg := { s.cfg with filtB0 := data } } ∧
      exec (.cfgWrite 0x07#8 data) s = .next { s with cfg := { s.cfg with filtB1 := data } } ∧
      exec (.cfgWrite 0x08#8 data) s = .next { s with cfg := { s.cfg with filtB2 := data } } ∧
      exec (.cfgWrite 0x09#8 data) s = .next { s with cfg := { s.cfg with filtB3 := data } } ∧
      exec (.cfgWrite 0x0A#8 data) s = .next { s with cfg := { s.cfg with filtA1 := data } } ∧
      exec (.cfgWrite 0x0B#8 data) s = .next { s with cfg := { s.cfg with filtA2 := data } } ∧
      exec (.cfgWrite 0x0C#8 data) s = .next { s with cfg := { s.cfg with filtA3 := data } } ∧
      exec (.cfgWrite 0x0D#8 data) s = .next { s with cfg := { s.cfg with traceLo := data } } ∧
      exec (.cfgWrite 0x0E#8 data) s = .next { s with cfg := { s.cfg with traceHi := data } })

/-- 40_host_commands.md R182, whole: each register is returned zero-extended in every mode, with no
other effect; 0x0F and 0x19..0xFF answer 0 and raise ILLEGAL_ADDR. A response is an entry of the
response port, whose form as a list is the model's own (log entry 4). -/
def Obligations.RegReadFollowsItsRule : Prop :=
  ∀ (data : Word64) (s : State),
    let reads (addr : Byte) (v : Word64) : Prop :=
      exec (.regRead addr data) s = .next { s with responses := s.responses ++ [v] }
    reads 0x00#8 (s.cfg.ctrl.setWidth 64) ∧ reads 0x01#8 (s.cfg.sampleRate.setWidth 64) ∧
    reads 0x02#8 (s.cfg.baudRate.setWidth 64) ∧ reads 0x03#8 (s.cfg.delayK.setWidth 64) ∧
    reads 0x04#8 s.cfg.gainMax ∧ reads 0x05#8 s.cfg.gainReacq ∧
    reads 0x06#8 s.cfg.filtB0 ∧ reads 0x07#8 s.cfg.filtB1 ∧ reads 0x08#8 s.cfg.filtB2 ∧
    reads 0x09#8 s.cfg.filtB3 ∧ reads 0x0A#8 s.cfg.filtA1 ∧ reads 0x0B#8 s.cfg.filtA2 ∧
    reads 0x0C#8 s.cfg.filtA3 ∧ reads 0x0D#8 s.cfg.traceLo ∧ reads 0x0E#8 s.cfg.traceHi ∧
    reads 0x10#8 ((s.err ++ BitVec.ofBool s.run.capopen ++ BitVec.ofBool s.run.fopen
      ++ s.run.pst.code ++ s.run.lvl.code ++ s.mode.code).setWidth 64) ∧
    reads 0x11#8 s.run.n ∧ reads 0x12#8 (s.agcDelay.setWidth 64) ∧
    reads 0x13#8 (s.run.blockCount.setWidth 64) ∧ reads 0x14#8 (s.run.errorCount.setWidth 64) ∧
    reads 0x15#8 (s.run.acc.setWidth 64) ∧ reads 0x16#8 (s.run.cnt.setWidth 64) ∧
    reads 0x17#8 s.errInfo ∧ reads 0x18#8 s.run.rs ∧
    ∀ addr : Byte, (addr = 0x0F#8 ∨ 0x19 ≤ addr.toNat) → exec (.regRead addr data) s =
      .next { s with responses := s.responses ++ [0#64], err := 0x02#8,
                     errInfo := (0x02#8 ++ addr : Half).setWidth 64 }

/-- 30_encoding.md R141: the fields of STATUS, its zero bits and its reset value; it is what a REG_READ
of 0x10 answers, and a CFG_WRITE to 0x10 changes nothing but ERR and ERR_INFO. -/
def Obligations.StatusHoldsItsFields : Prop :=
  (∀ s : State,
    s.status.extractLsb' 0 2 =
      (match s.mode with | .idle => 0#2 | .run => 1#2 | .done => 2#2 | .fault => 3#2) ∧
    s.status.extractLsb' 2 2 = (match s.run.lvl with | .low => 0#2 | .high => 1#2 | .none => 2#2) ∧
    s.status.extractLsb' 4 2 =
      (match s.run.pst with | .waitHeader => 0#2 | .readHeader => 1#2 | .readData => 2#2) ∧
    s.status.getLsbD 6 = s.run.fopen ∧
    s.status.getLsbD 7 = s.run.capopen ∧
    s.status.extractLsb' 8 8 = s.err ∧
    s.status.extractLsb' 16 48 = 0#48) ∧
  State.reset.status = 0x0008#64 ∧
  (∀ (data : Word64) (s : State),
    exec (.regRead 0x10#8 data) s = .next { s with responses := s.responses ++ [s.status] } ∧
    ∃ err info, exec (.cfgWrite 0x10#8 data) s = .next { s with err := err, errInfo := info })

/-- 20_memory.md R101, 30_encoding.md R131, R140: a configuration register reads back exactly the bits
kept on write, and every other configuration register reads as before. -/
def Obligations.CfgWriteReadsBack : Prop :=
  ∀ (addr : Byte) (data : Word64) (s : State),
    (s.mode = .idle ∨ s.mode = .done) → addr.toNat ≤ 0x0E →
    ∃ t, exec (.cfgWrite addr data) s = .next t ∧
      readReg addr t = some (if addr = 0x00#8 then data &&& 0x3F#64
        else if addr.toNat ≤ 3 then data &&& 0xFFFFFFFF#64 else data) ∧
      ∀ other : Byte, other.toNat ≤ 0x0E → other ≠ addr → readReg other t = readReg other s

/-- 40_host_commands.md R183, whole: ILLEGAL_STATE in RUN and FAULT; the configuration errors in their
order, each leaving IDLE and changing nothing else; and the start of a run, in which sections 4 to 7 of
10_state.md take their reset values. -/
def Obligations.StartFollowsItsRule : Prop :=
  ∀ (addr : Byte) (data : Word64) (s : State),
    let sr := s.cfg.sampleRate.toNat
    let br := s.cfg.baudRate.toNat
    let k := s.cfg.delayK.toNat
    let d := (2 * sr + br) / (2 * br)
    let regs : List Word64 := [s.cfg.gainMax, s.cfg.gainReacq, s.cfg.filtB0, s.cfg.filtB1, s.cfg.filtB2,
      s.cfg.filtB3, s.cfg.filtA1, s.cfg.filtA2, s.cfg.filtA3]
    let fails (code : Byte) (info : Nat) : Prop := exec (.start addr data) s =
      .next { s with mode := .idle, err := code, errInfo := BitVec.ofNat 64 info }
    ((s.mode = .run ∨ s.mode = .fault) → exec (.start addr data) s =
      .next { s with err := 0x03#8, errInfo := (0x03#8 ++ addr : Half).setWidth 64 }) ∧
    ((s.mode = .idle ∨ s.mode = .done) →
      (sr = 0 → fails 0x10#8 0x01) ∧
      (sr ≠ 0 → br = 0 → fails 0x10#8 0x02) ∧
      (sr ≠ 0 → br ≠ 0 → d = 0 → fails 0x11#8 0x01) ∧
      (sr ≠ 0 → br ≠ 0 → 256 ≤ d → fails 0x12#8 0x01) ∧
      (sr ≠ 0 → br ≠ 0 → d ≠ 0 → d < 256 → 256 ≤ k → fails 0x12#8 0x03) ∧
      (sr ≠ 0 → br ≠ 0 → d ≠ 0 → d < 256 → k < 256 →
        (∀ j < 9, finite64 (regs.getD j 0) = false → (∀ i < j, finite64 (regs.getD i 0) = true) →
          fails 0x13#8 (0x04 + j)) ∧
        ((∀ r ∈ regs, finite64 r = true) →
          (f64 s.cfg.gainMax < f64 s.cfg.gainReacq → fails 0x14#8 0x05) ∧
          (f64 s.cfg.gainReacq ≤ f64 s.cfg.gainMax → exec (.start addr data) s =
            .next { s with mode := .run, err := 0#8, errInfo := 0#64, agcDelay := BitVec.ofNat 32 d,
                           run := State.reset.run }))))

/-- 70_reset_and_hazards.md R371, 10_state.md R86: a run that START begins depends on the configuration
and the ports only, not on the mode it is begun from or on anything an earlier run left. -/
def Obligations.StartForgetsThePreviousRun : Prop :=
  ∀ (addr : Byte) (data : Word64) (s s' t : State),
    s.mode ∈ [.idle, .done] → s'.mode ∈ [.idle, .done] → s'.cfg = s.cfg → s'.inbox = s.inbox →
    s'.records = s.records → s'.responses = s.responses →
    exec (.start addr data) s = .next t → t.mode = .run → exec (.start addr data) s' = .next t

/-- 10_state.md R55: a successful START computes AGC_DELAY as rnd(SR, BR), with 1 ≤ D < C; no other step
but a SOFT_RESET changes it, so it is constant for the run; its reset value is 0. -/
def Obligations.AgcDelayIsTheRoundedRatio : Prop :=
  (∀ (addr : Byte) (data : Word64) (s t : State), s.mode ∈ [.idle, .done] →
    exec (.start addr data) s = .next t → t.mode = .run →
    t.agcDelay.toNat =
      (2 * s.cfg.sampleRate.toNat + s.cfg.baudRate.toNat) / (2 * s.cfg.baudRate.toNat) ∧
    1 ≤ t.agcDelay.toNat ∧ t.agcDelay.toNat < 256) ∧
  (∀ s t : State, ¬ s.nextIsSoftReset → step s = .next t →
    t.agcDelay = s.agcDelay ∨ (s.mode ∈ [.idle, .done] ∧ t.mode = .run)) ∧
  State.reset.agcDelay = 0#32

/-- 40_host_commands.md R185, whole: outside RUN ILLEGAL_STATE; in RUN FILE_CLOSE if a file is open,
then CAPTURE_CLOSE if a capture is, both flags cleared, MODE DONE, and nothing else. -/
def Obligations.FinishFollowsItsRule : Prop :=
  ∀ (addr : Byte) (data : Word64) (s : State),
    (s.mode ≠ .run → exec (.finish addr data) s =
      .next { s with err := 0x03#8, errInfo := (0x05#8 ++ addr : Half).setWidth 64 }) ∧
    (s.mode = .run → exec (.finish addr data) s =
      .next { s with
        mode := .done
        records := s.records ++ (if s.run.fopen then [.fileClose] else [])
          ++ (if s.run.capopen then [.captureClose] else [])
        run := { s.run with fopen := false, capopen := false } })

/-- 40_host_commands.md R186, 70_reset_and_hazards.md R370: SOFT_RESET completes in every mode with
every state element of the block at its hardware reset value, and emits no record. -/
def Obligations.SoftResetResetsTheBlock : Prop :=
  ∀ (addr : Byte) (data : Word64) (s : State), ∃ t, exec (.softReset addr data) s = .next t ∧
    t.mode = State.reset.mode ∧ t.err = State.reset.err ∧ t.errInfo = State.reset.errInfo ∧
    t.cfg = State.reset.cfg ∧ t.agcDelay = State.reset.agcDelay ∧ t.run = State.reset.run ∧
    t.records = s.records ∧ t.status = 0x0008#64

/-- 10_state.md R85: the reset value of every state element. -/
def Obligations.ResetValues : Prop :=
  let r := State.reset
  r.mode = .idle ∧ r.err = 0#8 ∧ r.errInfo = 0#64 ∧
  r.cfg.ctrl = 0#6 ∧ r.cfg.sampleRate = 0#32 ∧ r.cfg.baudRate = 0#32 ∧ r.cfg.delayK = 0#32 ∧
  r.cfg.gainMax = 0#64 ∧ r.cfg.gainReacq = 0#64 ∧ r.cfg.filtB0 = 0#64 ∧ r.cfg.filtB1 = 0#64 ∧
  r.cfg.filtB2 = 0#64 ∧ r.cfg.filtB3 = 0#64 ∧ r.cfg.filtA1 = 0#64 ∧ r.cfg.filtA2 = 0#64 ∧
  r.cfg.filtA3 = 0#64 ∧ r.cfg.traceLo = 0#64 ∧ r.cfg.traceHi = 0#64 ∧ r.agcDelay = 0#32 ∧
  (∀ m, ringAt r.run.ringS m = 0 ∧ ringAt r.run.ringP m = 0 ∧ ringAt r.run.ringX m = 0 ∧
    ringAt r.run.ringY m = 0) ∧
  r.run.w = 0 ∧ r.run.lvl = .none ∧ r.run.n = 0#64 ∧ r.run.rs = 0#64 ∧ r.run.acc = 0#32 ∧
  r.run.cnt = 0#5 ∧ r.run.pst = .waitHeader ∧ r.run.hc = 0#3 ∧
  (∀ (j : Nat) (h : j < 4), r.run.hb[j] = 0#8) ∧ r.run.pcnt = 0#15 ∧
  (∀ a, Memory.read r.run.pb a = 0#8) ∧ r.run.bt = .title ∧ r.run.bl = 0#14 ∧ r.run.bc = 0#16 ∧
  r.run.blockCount = 0#32 ∧ r.run.errorCount = 0#32 ∧ r.run.fopen = false ∧ r.run.capopen = false

/-! ### Modes and errors -/

/-- 40_host_commands.md R187: the mode each command leaves, cell by cell; ILLEGAL_STATE exactly in the
cells that say so, leaving MODE unchanged; a START that leaves IDLE has a CFG_* error; a reserved OP
raises ILLEGAL_OPCODE and leaves MODE unchanged. -/
def Obligations.ModesFollowTheTable : Prop :=
  (∀ (i : Instr) (s t : State), exec i s = .next t →
    t.mode ∈ modesAfter i s.mode ∧
    (illegalIn i s.mode = true → t.mode = s.mode ∧ t.err = 0x03#8) ∧
    (illegalIn i s.mode = false → t.err = 0x03#8 → s.err = 0x03#8) ∧
    (∀ a d, i = .start a d → illegalIn i s.mode = false → t.mode = .idle →
      t.err ∈ [0x10#8, 0x11#8, 0x12#8, 0x13#8, 0x14#8])) ∧
  (∀ (s t : State) (c : Command) (rest : List Command), s.inbox = c :: rest → 0x07 ≤ c.op.toNat →
    step s = .next t → t.mode = s.mode ∧ t.err = 0x01#8)

/-- 60_exceptions.md R341 to R343, R345: a command either raises an error of R341 that applies to it, with
its ERR_INFO and its mode, and changes nothing else but that a REG_READ answers 0; or no error applies to
it, and it leaves ERR and ERR_INFO as they were or is a START or SOFT_RESET that clears both. -/
def Obligations.ErrorsArePrecise : Prop :=
  ∀ (i : Instr) (s t : State), exec i s = .next t →
    (∃ code info mode, Raises s i code info mode ∧ t = { s with
      mode := mode, err := code, errInfo := info, responses := s.responses ++ errorResponse i }) ∨
    ((∀ code info mode, ¬ Raises s i code info mode) ∧
      ((t.err = s.err ∧ t.errInfo = s.errInfo) ∨
        (t.err = 0#8 ∧ t.errInfo = 0#64 ∧ ∃ a d, i = .start a d ∨ i = .softReset a d)))

/-- 60_exceptions.md R346: FAULT is entered by BAD_SAMPLE or INDEX_OVERFLOW only, from RUN; in it
CFG_WRITE, START, SAMPLE and FINISH raise ILLEGAL_STATE, NOP and REG_READ are accepted; only SOFT_RESET leaves it; and until then the
run, the configuration and the output stream stay as they were. -/
def Obligations.FaultIsLeftOnlyByReset : Prop :=
  (∀ s t : State, s.mode = .fault → ¬ s.nextIsSoftReset → step s = .next t →
    t.mode = .fault ∧ t.run = s.run ∧ t.cfg = s.cfg ∧ t.agcDelay = s.agcDelay ∧ t.records = s.records) ∧
  (∀ s t : State, s.mode ≠ .fault → step s = .next t → t.mode = .fault →
    s.mode = .run ∧ (t.err = 0x20#8 ∨ t.err = 0x21#8) ∧ t.records = s.records) ∧
  (∀ (a : Byte) (d : Word64) (s t : State), s.mode = .fault →
    (exec (.cfgWrite a d) s = .next t ∨ exec (.start a d) s = .next t ∨
      exec (.sample a d) s = .next t ∨ exec (.finish a d) s = .next t) →
    t.err = 0x03#8 ∧ t.mode = .fault) ∧
  (∀ (a : Byte) (d : Word64) (s : State), s.mode = .fault →
    exec (.nop a d) s = .next s ∧
    ∃ t, exec (.regRead a d) s = .next t ∧ t.mode = .fault ∧ (t.err = s.err ∨ t.err = 0x02#8)) ∧
  (∀ (a : Byte) (d : Word64) (s : State),
    ∃ t, exec (.softReset a d) s = .next t ∧ t.mode = .idle ∧ t.records = s.records)

/-- 70_reset_and_hazards.md R373, 10_state.md R53, R54: no step of a run but a SOFT_RESET changes a
configuration register. -/
def Obligations.ConfigurationIsLockedDuringRun : Prop :=
  ∀ s t : State, s.mode = .run → ¬ s.nextIsSoftReset → step s = .next t → t.cfg = s.cfg

/-- 20_memory.md R113, 70_reset_and_hazards.md R370: a step only appends to the output stream and to the
responses, and takes nothing but the oldest command from the inbox. The ports are the model's own (log
entries 1 and 4). -/
def Obligations.OutputStreamOnlyGrows : Prop :=
  ∀ s t : State, step s = .next t →
    (∃ new, t.records = s.records ++ new) ∧ (∃ new, t.responses = s.responses ++ new ∧ new.length ≤ 1) ∧
    t.inbox = s.inbox.tail

/-! ### SAMPLE -/

/-- 40_host_commands.md R184, 60_exceptions.md R341, R344, R345: a refused SAMPLE changes nothing but
MODE, ERR and ERR_INFO, in the order ILLEGAL_STATE, BAD_SAMPLE, INDEX_OVERFLOW. -/
def Obligations.SampleErrorsInOrder : Prop :=
  ∀ (addr : Byte) (data : Word64) (s : State),
    (s.mode ≠ .run → exec (.sample addr data) s =
      .next { s with err := 0x03#8, errInfo := (0x04#8 ++ addr : Half).setWidth 64 }) ∧
    (s.mode = .run → data.extractLsb' 52 11 = 0x7FF#11 → exec (.sample addr data) s =
      .next { s with mode := .fault, err := 0x20#8, errInfo := s.run.n }) ∧
    (s.mode = .run → data.extractLsb' 52 11 ≠ 0x7FF#11 → s.run.n = 0xFFFFFFFFFFFFFFFF#64 →
      exec (.sample addr data) s = .next { s with mode := .fault, err := 0x21#8, errInfo := s.run.n })

/-- 41_agc.md R220: an accepted SAMPLE writes the sample and its power to slot n mod C, moves the window
sum on by the newest power minus the one D samples old, and increments N; the other slots of S and P are
unchanged. -/
def Obligations.SampleUpdatesTheAgcWindow : Prop :=
  ∀ (addr : Byte) (data : Word64) (s : State),
    s.mode = .run → finite64 data = true → s.run.n ≠ 0xFFFFFFFFFFFFFFFF#64 →
    ∃ t, exec (.sample addr data) s = .next t ∧
      let x := f64 data
      let n := s.run.n.toNat
      let d := s.agcDelay.toNat
      (∀ m, ringAt t.run.ringS m = if m % 256 = n % 256 then x else ringAt s.run.ringS m) ∧
      (∀ m, ringAt t.run.ringP m = if m % 256 = n % 256 then x * x else ringAt s.run.ringP m) ∧
      t.run.w = s.run.w + x * x - (if n < d then 0 else ringAt t.run.ringP (n - d)) ∧
      t.run.n.toNat = n + 1

/-- 42_filter_slicer.md R240, R241: an accepted SAMPLE writes x = s · hist(S, n − k) to X and the
third-order recurrence y to Y, in slot n mod C, with the coefficients of the FILT registers and a[0] = 1;
the other slots are unchanged. -/
def Obligations.SampleFiltersTheProduct : Prop :=
  ∀ (addr : Byte) (data : Word64) (s : State),
    s.mode = .run → finite64 data = true → s.run.n ≠ 0xFFFFFFFFFFFFFFFF#64 →
    ∃ t, exec (.sample addr data) s = .next t ∧
      let n := s.run.n.toNat
      let x := f64 data * hist t.run.ringS n s.cfg.delayK.toNat
      let y := f64 s.cfg.filtB0 * x + f64 s.cfg.filtB1 * hist s.run.ringX n 1
        + f64 s.cfg.filtB2 * hist s.run.ringX n 2 + f64 s.cfg.filtB3 * hist s.run.ringX n 3
        - f64 s.cfg.filtA1 * hist s.run.ringY n 1 - f64 s.cfg.filtA2 * hist s.run.ringY n 2
        - f64 s.cfg.filtA3 * hist s.run.ringY n 3
      (∀ m, ringAt t.run.ringX m = if m % 256 = n % 256 then x else ringAt s.run.ringX m) ∧
      (∀ m, ringAt t.run.ringY m = if m % 256 = n % 256 then y else ringAt s.run.ringY m)

/-- 42_filter_slicer.md R243 with R242 and 41_agc.md R222, R223: the level after an accepted SAMPLE.
The carrier is lost when W = 0 (G = INF) or G = D / W exceeds GMAX, or GRE in NONE; otherwise o = y · G
against 2/5 and 1/2, the band between keeping the level. -/
def Obligations.SampleClassifiesTheTone : Prop :=
  ∀ (addr : Byte) (data : Word64) (s : State),
    s.mode = .run → finite64 data = true → s.run.n ≠ 0xFFFFFFFFFFFFFFFF#64 →
    ∃ t, exec (.sample addr data) s = .next t ∧
      let g : NUM := (s.agcDelay.toNat : NUM) / t.run.w
      let o : NUM := ringAt t.run.ringY s.run.n.toNat * g
      let lost : Prop := t.run.w = 0 ∨ f64 s.cfg.gainMax < g ∨
        (s.run.lvl = .none ∧ f64 s.cfg.gainReacq < g)
      (lost → t.run.lvl = .none) ∧
      (¬ lost → o < 2 / 5 → t.run.lvl = .low) ∧
      (¬ lost → 1 / 2 < o → t.run.lvl = .high) ∧
      (¬ lost → 2 / 5 ≤ o → o ≤ 1 / 2 → t.run.lvl = s.run.lvl)

/-- 42_filter_slicer.md R245, R247: an accepted SAMPLE first emits the TRACE record, if enabled and n is
in the range; a level-run event occurs exactly when the level changes, covers RS .. n − 1, and its RUN
record, if enabled, comes before every record it causes. -/
def Obligations.SampleEmitsTraceThenRun : Prop :=
  ∀ (addr : Byte) (data : Word64) (s : State),
    s.mode = .run → finite64 data = true → s.run.n ≠ 0xFFFFFFFFFFFFFFFF#64 →
    ∃ t caused, exec (.sample addr data) s = .next t ∧
      let y := ringAt t.run.ringY s.run.n.toNat
      let g : NUM := (s.agcDelay.toNat : NUM) / t.run.w
      let trace : List Record :=
        if s.cfg.ctrl.getLsbD 2 = true ∧ s.cfg.traceLo.toNat ≤ s.run.n.toNat ∧
            s.run.n.toNat ≤ s.cfg.traceHi.toNat
        then [.trace s.run.n (f64 data) y (if t.run.w = 0 then .undef else .val (y * g))
          (if t.run.w = 0 then .inf else .val g)]
        else []
      let event : List Record :=
        if s.cfg.ctrl.getLsbD 3 = true
        then [.run s.run.rs s.run.lvl (s.run.n - s.run.rs) t.run.lvl] else []
      (t.run.lvl = s.run.lvl → t.records = s.records ++ trace ∧ t.run.rs = s.run.rs) ∧
      (t.run.lvl ≠ s.run.lvl →
        t.records = s.records ++ trace ++ event ++ caused ∧ t.run.rs = s.run.n)

/-- 40_host_commands.md R184, 42_filter_slicer.md R245: after the signal path and the trace record, a
step whose level stays only advances N, and one whose level changes runs LevelChange on the new level and
then advances N; nothing else happens. -/
def Obligations.SampleRunsTheLevelChange : Prop :=
  ∀ (addr : Byte) (data : Word64) (s : State),
    s.mode = .run → finite64 data = true → s.run.n ≠ 0xFFFFFFFFFFFFFFFF#64 →
    ∃ t trace, exec (.sample addr data) s = .next t ∧ trace.length ≤ 1 ∧
      let front : State := { s with
        records := s.records ++ trace
        run := { s.run with ringS := t.run.ringS, ringP := t.run.ringP, ringX := t.run.ringX,
                            ringY := t.run.ringY, w := t.run.w } }
      let changed := levelChange t.run.lvl front
      (t.run.lvl = s.run.lvl → t = { front with run := { front.run with n := s.run.n + 1 } }) ∧
      (t.run.lvl ≠ s.run.lvl → t = { changed with run := { changed.run with n := s.run.n + 1 } })

/-- 40_host_commands.md R184 (Status written): the frame of an accepted SAMPLE. Control state,
configuration, AGC_DELAY, inbox and responses are unchanged. Without a level change so are RS, the timer,
the parser, the statistics and the file state. With one, HB changes at most in entry HC and only in
READ_HEADER, and every byte of PB other than PB[PCNT] reads as before, all of them outside READ_DATA. -/
def Obligations.SampleFrame : Prop :=
  ∀ (addr : Byte) (data : Word64) (s : State),
    s.mode = .run → finite64 data = true → s.run.n ≠ 0xFFFFFFFFFFFFFFFF#64 →
    ∃ t, exec (.sample addr data) s = .next t ∧
      t.mode = .run ∧ t.err = s.err ∧ t.errInfo = s.errInfo ∧ t.cfg = s.cfg ∧
      t.agcDelay = s.agcDelay ∧ t.inbox = s.inbox ∧ t.responses = s.responses ∧
      (t.run.lvl = s.run.lvl → t.run = { s.run with
        ringS := t.run.ringS, ringP := t.run.ringP, ringX := t.run.ringX, ringY := t.run.ringY,
        w := t.run.w, n := t.run.n }) ∧
      (∀ (j : Nat) (h : j < 4), j ≠ s.run.hc.toNat → t.run.hb[j] = s.run.hb[j]) ∧
      (s.run.pst ≠ .readHeader → t.run.hb = s.run.hb) ∧
      (∀ a, a ≠ s.run.pcnt.toNat → Memory.read t.run.pb a = Memory.read s.run.pb a) ∧
      (s.run.pst ≠ .readData → t.run.pb = s.run.pb)

/-- 40_host_commands.md R184 (corner cases): one SAMPLE captures at most one byte. -/
def Obligations.SampleCapturesAtMostOneByte : Prop :=
  ∀ (addr : Byte) (data : Word64) (s t : State), exec (.sample addr data) s = .next t →
    ∃ new, t.records = s.records ++ new ∧ new.countP Record.isByte ≤ 1

/-- 41_agc.md R225: multiplying the recording level by c ≠ 0 multiplies W by c², divides a finite gain by
c² and leaves the normalized output of the step unchanged. -/
def Obligations.NormalizedOutputIsScaleInvariant : Prop :=
  ∀ (c x : NUM) (s t : State), c ≠ 0 → Scaled c s t →
    sampleNorm (c * x) t = sampleNorm x s ∧
    (sampleGain (c * x) t = .inf ↔ sampleGain x s = .inf) ∧
    (∀ q, sampleGain x s = .val q → sampleGain (c * x) t = .val (q / (c * c))) ∧
    Scaled c (storeOutput (sampleFilter x s) (frontEnd x s))
      (storeOutput (sampleFilter (c * x) t) (frontEnd (c * x) t))

/-! ### Level-run events, symbol timer -/

/-- 42_filter_slicer.md R246, 43_symbol_timer.md R271, R274: a level change emits the RUN record if
enabled, takes the new level and run start, and runs the symbol timer on the ended run: a HIGH run's
1-bits, a LOW run's 0-bits, nothing for a NONE run, and the carrier loss last when the new level is
NONE. -/
def Obligations.LevelChangeRunsTheSymbolTimer : Prop :=
  ∀ (new : Level) (s : State),
    let dur := s.run.n - s.run.rs
    let entered : State := { s with
      records := s.records ++
        (if s.cfg.ctrl.getLsbD 3 = true then [.run s.run.rs s.run.lvl dur new] else [])
      run := { s.run with lvl := new, rs := s.run.n } }
    let nb := s.cfg.nbits dur
    let added := match s.run.lvl with
      | .high => highRun nb entered
      | .low  => lowRun nb entered
      | .none => entered
    (new ≠ .none → levelChange new s = added) ∧
    (new = .none → levelChange new s = carrierLost added)

/-- 43_symbol_timer.md R270, 00_scope.md R12: nbits is the number of bit periods of the run rounded to
the nearest integer, the exact quotient dur · BR / SR with ties up; less than half a period gives 0. -/
def Obligations.NbitsRoundsHalfUp : Prop :=
  ∀ (c : CfgRegs) (dur : Word64), c.sampleRate ≠ 0#32 →
    let p := dur.toNat * c.baudRate.toNat
    let q := c.sampleRate.toNat
    2 * q * c.nbits dur ≤ 2 * p + q ∧ 2 * p + q < 2 * q * (c.nbits dur + 1) ∧
    (c.nbits dur = 0 ↔ 2 * p < q)

/-- 43_symbol_timer.md R272, its pseudocode: a HIGH run sets the positions from CNT up to
min(CNT + nb, 30) and no other, CNT saturates at 30, and nothing else changes. That the pseudocode holds
against the rule's contradicting Example is the model's choice (log entry 14). -/
def Obligations.HighRunSetsOnes : Prop :=
  ∀ (nb : Nat) (s : State),
    let t := highRun nb s
    (∀ j < 32, t.run.acc.getLsbD j =
      (s.run.acc.getLsbD j ||
        (decide (s.run.cnt.toNat ≤ j) && decide (j < min (s.run.cnt.toNat + nb) 30)))) ∧
    t.run.cnt.toNat = min (s.run.cnt.toNat + nb) 30 ∧
    t = { s with run := { s.run with acc := t.run.acc, cnt := t.run.cnt } }

/-- 43_symbol_timer.md R273, R276: a LOW run that finds CNT ≥ 10 hands the accumulator to the framer with
ACC and CNT already cleared, before its own 0-bits, which only advance CNT. -/
def Obligations.LowRunFlushesAtTheFrameBoundary : Prop :=
  ∀ (nb : Nat) (s : State),
    (s.run.cnt.toNat < 10 → lowRun nb s =
      { s with run := { s.run with cnt := BitVec.ofNat 5 (min (s.run.cnt.toNat + nb) 30) } }) ∧
    (10 ≤ s.run.cnt.toNat →
      let f := framer s.run.acc s.run.cnt.toNat
        { s with run := { s.run with acc := 0#32, cnt := 0#5 } }
      lowRun nb s = { f with run := { f.run with acc := 0#32, cnt := BitVec.ofNat 5 (min nb 30) } })

/-- 43_symbol_timer.md R276: nothing the framer or the parser does reads ACC or CNT, or writes them. -/
def Obligations.FramerIgnoresTheAccumulator : Prop :=
  ∀ (r : Word32) (c : Nat) (acc : Word32) (cnt : BitVec 5) (s : State),
    let f := framer r c s
    framer r c { s with run := { s.run with acc := acc, cnt := cnt } } =
      { f with run := { f.run with acc := acc, cnt := cnt } } ∧
    f.run.acc = s.run.acc ∧ f.run.cnt = s.run.cnt

/-- 43_symbol_timer.md R275, 45_block_parser.md R312: entering NONE flushes a nonempty accumulator, then
closes the open file and the open capture, in that order, and with CL_KEEP = 0 returns the parser to
WAIT_HEADER; the statistics and everything else stay. -/
def Obligations.CarrierLossClosesAndResets : Prop :=
  ∀ s : State,
    let flushed := if s.run.cnt = 0#5 then s
      else framer s.run.acc s.run.cnt.toNat { s with run := { s.run with acc := 0#32, cnt := 0#5 } }
    let closed : State := { flushed with
      records := flushed.records ++ (if flushed.run.fopen then [.fileClose] else [])
        ++ (if flushed.run.capopen then [.captureClose] else [])
      run := { flushed.run with fopen := false, capopen := false } }
    (s.cfg.ctrl.getLsbD 4 = true → carrierLost s = closed) ∧
    (s.cfg.ctrl.getLsbD 4 = false → carrierLost s =
      { closed with run := { closed.run with pst := .waitHeader, hc := 0#3, pcnt := 0#15 } })

/-! ### Byte framer -/

/-- 44_byte_framer.md R290 to R295: a frame with start bit 0, at least 11 bits and stop bits 1, 1 yields
R[8:1], captured if enabled before it is parsed; every other frame changes nothing at all. -/
def Obligations.FramerFollowsItsRule : Prop :=
  ∀ (r : Word32) (c : Nat) (s : State),
    let byte : Byte := r.extractLsb' 1 8
    let captured : State := if s.cfg.ctrl.getLsbD 1 = true
      then { s with records := s.records ++ [.byte byte], run := { s.run with capopen := true } }
      else s
    (r.getLsbD 0 = false → 11 ≤ c → r.getLsbD 9 = true → r.getLsbD 10 = true →
      framer r c s = parser byte captured) ∧
    ((r.getLsbD 0 = true ∨ c < 11 ∨ r.getLsbD 9 = false ∨ r.getLsbD 10 = false) → framer r c s = s)

/-- 30_encoding.md R145: the frame of any byte, whatever follows its two stop bits, passes the checks and
yields that byte. -/
def Obligations.FramedByteIsRecovered : Prop :=
  ∀ (b : Byte) (rest : Word32) (c : Nat), 11 ≤ c →
    let r : Word32 := (b.setWidth 32 <<< 1) ||| 0x600#32 ||| (rest <<< 11)
    frameOk r c = true ∧ frameByte r = b

/-- 30_encoding.md R146, R166, 43_symbol_timer.md R278: the 11 frame bits of a byte, added to an empty
accumulator as runs of one bit period, make a frame that passes the checks and yields that byte, and
change nothing but the accumulator. -/
def Obligations.FrameBitsAccumulateToTheByte : Prop :=
  ∀ (b : Byte) (s : State), s.run.acc = 0#32 → s.run.cnt = 0#5 →
    let t := addBits (frameBits b) s
    t.run.cnt.toNat = 11 ∧ frameOk t.run.acc 11 = true ∧ frameByte t.run.acc = b ∧
    t = { s with run := { s.run with acc := t.run.acc, cnt := t.run.cnt } }

/-! ### Block parser -/

/-- 45_block_parser.md R300 to R304, 30_encoding.md R142, R147, 20_memory.md R107: from WAIT_HEADER a byte other than the sentinel
changes nothing; the sentinel and four bytes decode the header, an empty block being reported and not
dispatched, another one entering READ_DATA with PCNT 0. -/
def Obligations.HeaderIsDecoded : Prop :=
  ∀ (s : State) (h0 h1 h2 h3 : Byte), s.run.pst = .waitHeader →
    let w0 : Half := if s.cfg.ctrl.getLsbD 5 then h1 ++ h0 else h0 ++ h1
    let w1 : Half := if s.cfg.ctrl.getLsbD 5 then h3 ++ h2 else h2 ++ h3
    let bl : BitVec 14 := w0.extractLsb' 0 14
    let bt : BlockType :=
      if w0.getLsbD 15 then (if w0.getLsbD 14 then .endBlock else .data)
      else (if w0.getLsbD 14 then .reserved else .title)
    let run := { s.run with
      hc := 4#3, hb := #v[h0, h1, h2, h3], bt := bt, bl := bl, bc := w1 }
    (∀ b : Byte, b ≠ 0x02#8 → parser b s = s) ∧
    (bl = 0#14 → parseBytes [0x02#8, h0, h1, h2, h3] s =
      { s with run := run, records := s.records ++ [.blockEmpty bt] }) ∧
    (bl ≠ 0#14 → parseBytes [0x02#8, h0, h1, h2, h3] s =
      { s with run := { run with pst := .readData, pcnt := 0#15 } })

/-- 45_block_parser.md R302, R308, R309, R310: the 2L payload bytes of a DATA block are checked against
the header checksum as a sum mod 65536 of all L words, reported with the running index and the difference,
counted, and appended from byte 8 on to an open file whatever the verdict; then the parser waits for the
next block. -/
def Obligations.DataBlockIsCheckedAndAppended : Prop :=
  ∀ (s : State) (bs : List Byte), s.BufferInv → s.run.pst = .readData → s.run.pcnt = 0#15 →
    s.run.bt = .data → s.run.bl ≠ 0#14 → bs.length = 2 * s.run.bl.toNat →
    let t := parseBytes bs s
    let sum := wordSum (s.cfg.ctrl.getLsbD 5) bs
    let ok := decide (sum = s.run.bc)
    t.records = s.records
      ++ [.dataReport (s.run.bl.setWidth 16) s.run.blockCount ok sum s.run.bc (s.run.bc - sum)]
      ++ (if s.run.fopen = true ∧ 8 < bs.length then [.fileAppend (bs.drop 8)] else []) ∧
    t.run.blockCount = s.run.blockCount + 1 ∧
    t.run.errorCount = (if ok then s.run.errorCount else s.run.errorCount + 1) ∧
    t.run.fopen = s.run.fopen ∧ t.run.pst = .waitHeader

/-- 45_block_parser.md R306: a completed TITLE block is reported, resets the statistics, and with
EXTRACT_EN closes the open file and opens a new one with the whole payload. -/
def Obligations.TitleBlockReplacesTheFile : Prop :=
  ∀ (s : State) (bs : List Byte), s.BufferInv → s.run.pst = .readData → s.run.pcnt = 0#15 →
    s.run.bt = .title → s.run.bl ≠ 0#14 → bs.length = 2 * s.run.bl.toNat →
    let t := parseBytes bs s
    t.records = s.records ++ [.blockReport .title (s.run.bl.setWidth 16)]
      ++ (if s.cfg.ctrl.getLsbD 0 = true
          then (if s.run.fopen then [.fileClose] else []) ++ [.fileOpen bs] else []) ∧
    t.run.blockCount = 0#32 ∧ t.run.errorCount = 0#32 ∧
    t.run.fopen = (s.cfg.ctrl.getLsbD 0 || s.run.fopen) ∧ t.run.pst = .waitHeader

/-- 45_block_parser.md R307, R311: a completed reserved block is only reported; a completed END block
reports the statistics without resetting them and closes the open file. -/
def Obligations.ReservedAndEndBlocksReport : Prop :=
  ∀ (s : State) (bs : List Byte), s.run.pst = .readData → s.run.pcnt = 0#15 →
    s.run.bl ≠ 0#14 → bs.length = 2 * s.run.bl.toNat →
    let t := parseBytes bs s
    (s.run.bt = .reserved →
      t.records = s.records ++ [.blockReport .reserved (s.run.bl.setWidth 16)] ∧
      t.run.fopen = s.run.fopen) ∧
    (s.run.bt = .endBlock →
      t.records = s.records
        ++ [.endReport (s.run.bl.setWidth 16) s.run.blockCount s.run.errorCount]
        ++ (if s.run.fopen then [.fileClose] else []) ∧
      t.run.fopen = false) ∧
    ((s.run.bt = .reserved ∨ s.run.bt = .endBlock) →
      t.run.blockCount = s.run.blockCount ∧ t.run.errorCount = s.run.errorCount ∧
      t.run.capopen = s.run.capopen ∧ t.run.pst = .waitHeader)

/-- 45_block_parser.md R315: from any state of the parser at most 4 + 2 · 16383 bytes bring it back to
WAIT_HEADER. -/
def Obligations.ParserResynchronizes : Prop :=
  ∀ (s : State) (bs : List Byte), s.ParserInv → 4 + 2 * 16383 ≤ bs.length →
    ∃ k ≤ 4 + 2 * 16383, (parseBytes (bs.take k) s).run.pst = .waitHeader

/-- 45_block_parser.md R313: the file records of a step other than a SOFT_RESET go on in order (open, then
appends, then close) from the file state before it to the file state after it. -/
def Obligations.FileRecordsAlternate : Prop :=
  ∀ s t : State, s.FileInv → ¬ s.nextIsSoftReset → step s = .next t →
    ∃ new, t.records = s.records ++ new ∧ fileRecords s.run.fopen new = some t.run.fopen

/-! ### Invariants -/

/-- 41_agc.md R221, 10_state.md R55, R58: every step keeps D < C and W equal to the sum of the last D
powers, read naively from the ring. -/
def Obligations.StepKeepsTheWindowSum : Prop :=
  ∀ s t : State, s.WindowInv → step s = .next t → t.WindowInv

/-- 10_state.md R58, 41_agc.md R220, R223: with W the sum of the last D powers and every power a square,
W is never negative, and it is 0 exactly when the last D samples, those before the stream counted as 0,
are all 0. -/
def Obligations.WindowSumIsZeroExactlyInSilence : Prop :=
  ∀ s : State, s.WindowInv → s.PowerInv →
    0 ≤ s.run.w ∧
    (s.run.w = 0 ↔ ∀ j, 1 ≤ j → j ≤ s.agcDelay.toNat → hist s.run.ringS s.run.n.toNat j = 0)

/-- 10_state.md R57, R61: every step keeps each power the square of its sample, and RS ≤ N, RS < N once a
step has completed. -/
def Obligations.StepKeepsPowersAndIndices : Prop :=
  ∀ s t : State, step s = .next t →
    (s.PowerInv → t.PowerInv) ∧ (s.IndexInv → t.IndexInv)

/-- 43_symbol_timer.md R277, 10_state.md R62, R63: every step keeps CNT ≤ 30, ACC < 2^CNT, and CNT = 0
while the level is NONE. -/
def Obligations.StepKeepsTheAccumulatorBounds : Prop :=
  ∀ s t : State, s.TimerInv → step s = .next t → t.TimerInv

/-- 10_state.md R65, R66: every step keeps the parser's counts in range, HC < 4 in READ_HEADER and
PCNT < 2 · BL in READ_DATA. -/
def Obligations.StepKeepsTheParserCounts : Prop :=
  ∀ s t : State, s.ParserInv → step s = .next t → t.ParserInv

/-- 10_state.md R66, log entry 13: every step keeps the payload buffer in its canonical form, within its
32766 addresses. -/
def Obligations.StepKeepsTheBufferCanonical : Prop :=
  ∀ s t : State, s.BufferInv → step s = .next t → t.BufferInv

/-- 10_state.md R70, R71: every step keeps FOPEN = 1 only with EXTRACT_EN and CAPOPEN = 1 only with
CAPTURE_EN, each only during a run or in FAULT. -/
def Obligations.StepKeepsTheFileFlags : Prop :=
  ∀ s t : State, s.FileInv → step s = .next t → t.FileInv

/-- 10_state.md R54, R55: every step keeps a configuration that START accepted, and AGC_DELAY its
round(SR/BR), in RUN and FAULT. -/
def Obligations.StepKeepsTheCheckedConfiguration : Prop :=
  ∀ s t : State, s.ConfigInv → step s = .next t → t.ConfigInv

/-- 60_exceptions.md R341, 10_state.md R52: every step keeps ERR among 0 and the ten codes of R341, an
ERR of 0 with ERR_INFO 0, and an error in FAULT. -/
def Obligations.StepKeepsTheErrorCodes : Prop :=
  ∀ s t : State, s.ErrorInv → step s = .next t → t.ErrorInv

/-- 10_state.md R85: every invariant holds after reset. -/
def Obligations.ResetMeetsTheInvariants : Prop :=
  State.reset.WindowInv ∧ State.reset.PowerInv ∧ State.reset.IndexInv ∧ State.reset.TimerInv ∧
  State.reset.ParserInv ∧ State.reset.BufferInv ∧ State.reset.FileInv ∧ State.reset.ConfigInv ∧
  State.reset.ErrorInv

/-! ### Numbers on the wire -/

/-- 00_scope.md R11, 30_encoding.md R156: rounding the exact value of a finite binary64 number gives the
number back; −0.0, whose value is 0, is the only finite pattern left out, and comes back as +0.0 (the
model's choice, log entry 9). -/
def Obligations.RoundingKeepsBinary64Values : Prop :=
  (∀ b : Word64, finite64 b = true → b ≠ 0x8000000000000000#64 → roundF64 (f64 b) = b) ∧
  roundF64 (f64 0x8000000000000000#64) = 0#64

/-- 30_encoding.md R151 to R162: the wire form of a record, other than the rounded TRACE, can be read off
the front of the stream in one way only. -/
def Obligations.WireFormIsUniquelyReadable : Prop :=
  ∀ (r r' : Record) (xs ys : List Byte), r.wireExact = true → r'.wireExact = true →
    r.wire ++ xs = r'.wire ++ ys → r = r' ∧ xs = ys

/-- 30_encoding.md R152 to R158, R161, R162: the length in bytes of every record of fixed length. -/
def Obligations.RecordLengths : Prop :=
  (∀ a l d n, (Record.run a l d n).wire.length = 19) ∧
  (∀ b, (Record.byte b).wire.length = 2) ∧
  (∀ t, (Record.blockEmpty t).wire.length = 2) ∧
  (∀ t l, (Record.blockReport t l).wire.length = 4) ∧
  (∀ n s y o g, (Record.trace n s y o g).wire.length = 41) ∧
  (∀ l i k c e d, (Record.dataReport l i k c e d).wire.length = 14) ∧
  (∀ l b e, (Record.endReport l b e).wire.length = 11) ∧
  Record.fileClose.wire.length = 1 ∧ Record.captureClose.wire.length = 1

/-- 30_encoding.md R165, R166: SENDBYTE b, m expands to 11 · m SAMPLE commands of real values, m for each
frame bit (start 0, the bits of b from bit 0 up, two stop bits 1). A value repeats the one before it where
its frame bit is 1 and negates it where it is 0, the value before the first being PREV; so every value is
PREV or −PREV, and consecutive values have the product PREV² at a 1 and −PREV² at a 0. -/
def Obligations.SendByteExpandsToSamples : Prop :=
  ∀ (prev : NUM) (b : Byte) (m : Nat),
    ∃ vs : List NUM, sendByte prev b m = vs.map asmSample ∧ vs.length = 11 * m ∧
      (∀ v ∈ vs, v = prev ∨ v = -prev) ∧
      ∀ k < 11 * m,
        let before := if k = 0 then prev else vs.getD (k - 1) 0
        let bit := if k / m = 0 then false else if k / m ≤ 8 then b.getLsbD (k / m - 1) else true
        vs.getD k 0 = (if bit then before else -before) ∧
        before * vs.getD k 0 = if bit then prev * prev else -(prev * prev)
end

