-- ==== Sys2Proof/Laws/Encoding.lean ====
section
/-! SUPPORT. The fields of an encoded command (30_encoding.md R130). -/

namespace Sys2Proof

/-- The bits of a command word: ADDR below bit 8, OP from bit 8 on. -/
theorem getLsbD_cmdWord (op addr : Byte) (i : Nat) :
    (cmdWord op addr).getLsbD i = if i < 8 then addr.getLsbD i else op.getLsbD (i - 8) :=
  BitVec.getLsbD_append

/-- OP is the high byte of CW. -/
@[simp] theorem op_cmdWord (op addr : Byte) (data : Word64) :
    (Command.mk (cmdWord op addr) data).op = op := by
  ext i hi
  simp [Command.op, BitVec.getElem_extractLsb', getLsbD_cmdWord, BitVec.getLsbD_eq_getElem hi]

/-- ADDR is the low byte of CW. -/
@[simp] theorem addr_cmdWord (op addr : Byte) (data : Word64) :
    (Command.mk (cmdWord op addr) data).addr = addr := by
  ext i hi
  simp [Command.addr, BitVec.getElem_extractLsb', getLsbD_cmdWord, hi]

/-- A command word is its OP and its ADDR and nothing else. -/
theorem cmdWord_op_addr (c : Command) : cmdWord c.op c.addr = c.cw := by
  ext i hi
  rw [← BitVec.getLsbD_eq_getElem, ← BitVec.getLsbD_eq_getElem, getLsbD_cmdWord]
  split
  · simp [Command.addr, *]
  · simp [Command.op, show i - 8 < 8 by omega,
      show 8 + (i - 8) = i by omega]

/-- Every OP of an instruction is one of the seven of the opcode map. -/
theorem opcode_le (i : Instr) : i.opcode.toNat ≤ 6 := by cases i <;> simp [Instr.opcode]

end Sys2Proof
end

