-- ==== Sys2Proof/Laws/Memory.lean ====
section
/-! SUPPORT. The laws of the payload buffer's memory: read after write, and that every operation keeps
the canonical form. -/

namespace Sys2Proof.Machine

@[simp] theorem Memory.read_nil (a : Nat) : Memory.read [] a = 0#8 := rfl

/-- Below every listed address a memory reads as 0. -/
theorem Memory.read_below (m : Memory) (a : Nat) (h : ∀ c ∈ m, a < c.1) : Memory.read m a = 0#8 := by
  induction m with
  | nil => rfl
  | cons c rest ih =>
    have hc := h c (by simp)
    rw [Memory.read, if_neg (by omega)]
    exact ih fun d hd => h d (by simp [hd])

theorem Memory.wf_cons {c : Host.Cell} {rest : Memory} (h : Memory.wf (c :: rest) = true) :
    c.2 ≠ 0#8 ∧ (∀ d ∈ rest, c.1 < d.1) ∧ Memory.wf rest = true := by
  simpa [Memory.wf, and_assoc] using h

/-- Every entry of a written memory is an old entry or the written one. -/
theorem Memory.mem_write (m : Memory) (a : Nat) (b : Byte) :
    ∀ c ∈ Memory.write m a b, c ∈ m ∨ c = (a, b) := by
  induction m with
  | nil => intro c; unfold Memory.write; split <;> simp
  | cons d rest ih =>
    intro c hc
    unfold Memory.write at hc
    split at hc
    · rcases List.mem_cons.mp hc with rfl | hc
      · simp
      · rcases ih c hc with h | h <;> simp [h]
    · by_cases hk : d.1 = a <;> by_cases hb : b = 0#8 <;> simp [hk, hb] at hc ⊢ <;> tauto

/-- A write keeps the canonical form. -/
theorem Memory.wf_write (m : Memory) (a : Nat) (b : Byte) (h : Memory.wf m = true) :
    Memory.wf (Memory.write m a b) = true := by
  induction m with
  | nil => unfold Memory.write; split <;> simp_all [Memory.wf]
  | cons d rest ih =>
    obtain ⟨h0, h1, h2⟩ := Memory.wf_cons h
    unfold Memory.write
    split
    next hlt =>
      simp only [Memory.wf, Bool.and_eq_true, List.all_eq_true, decide_eq_true_eq, bne_iff_ne]
      refine ⟨⟨h0, fun c hc => ?_⟩, ih h2⟩
      rcases Memory.mem_write rest a b c hc with hc | rfl
      · exact h1 c hc
      · exact hlt
    next hge =>
      by_cases hk : d.1 = a <;> by_cases hb : b = 0#8
      · simpa [hk, hb] using h2
      · simp only [hk, hb, if_true, if_false, Memory.wf, Bool.and_eq_true, List.all_eq_true,
          decide_eq_true_eq, bne_iff_ne]
        exact ⟨⟨hb, fun c hc => hk ▸ h1 c hc⟩, h2⟩
      · simpa [hk, hb] using h
      · simp only [hk, hb, if_false, Memory.wf, Bool.and_eq_true, List.all_eq_true,
          decide_eq_true_eq, bne_iff_ne, List.mem_cons, forall_eq_or_imp]
        exact ⟨⟨hb, by omega, fun c hc => by have := h1 c hc; omega⟩, ⟨h0, h1⟩, h2⟩

/-- Read after write on a canonical memory. -/
theorem Memory.read_write (m : Memory) (a a' : Nat) (b : Byte) (h : Memory.wf m = true) :
    Memory.read (Memory.write m a b) a' = if a' = a then b else Memory.read m a' := by
  induction m with
  | nil =>
    unfold Memory.write
    by_cases hb : b = 0#8 <;> simp [hb, Memory.read, eq_comm]
  | cons d rest ih =>
    obtain ⟨-, h1, h2⟩ := Memory.wf_cons h
    unfold Memory.write
    split
    next hlt =>
      simp only [Memory.read]
      by_cases hd : d.1 = a'
      · simp [hd, show a' ≠ a by omega]
      · simp [hd, ih h2]
    next hge =>
      have below : ∀ x, x ≤ d.1 → Memory.read rest x = 0#8 := fun x hx =>
        Memory.read_below rest x fun c hc => by have := h1 c hc; omega
      by_cases hk : d.1 = a <;> by_cases hb : b = 0#8 <;> by_cases ha : a' = a
      · simp [hk, hb, ha, below a (by omega)]
      · simp [hk, hb, ha, Memory.read, show ¬ a = a' by omega]
      · simp [hk, hb, ha, Memory.read]
      · simp [hk, hb, ha, Memory.read, show ¬ a = a' by omega]
      · simp [hk, hb, ha, Memory.read, below a (by omega)]
      · simp [hk, hb, ha, Memory.read]
      · simp [hk, hb, ha, Memory.read]
      · simp [hk, hb, ha, Memory.read, show ¬ a = a' by omega]

/-- A write leaves every other address as it reads, also on a memory out of its canonical form. -/
theorem Memory.read_write_other (m : Memory) (a a' : Nat) (b : Byte) (h : a' ≠ a) :
    Memory.read (Memory.write m a b) a' = Memory.read m a' := by
  induction m with
  | nil =>
    unfold Memory.write
    by_cases hb : b = 0#8 <;> simp [hb, Memory.read, h.symm]
  | cons d rest ih =>
    unfold Memory.write
    split
    · simp only [Memory.read, ih]
    · by_cases hk : d.1 = a <;> by_cases hb : b = 0#8 <;> simp [hk, hb, Memory.read, h.symm]

/-- A canonical memory is determined by what it reads. -/
theorem Memory.ext_read : ∀ (m m' : Memory), Memory.wf m = true → Memory.wf m' = true →
    (∀ a, Memory.read m a = Memory.read m' a) → m = m' := by
  intro m
  induction m with
  | nil =>
    intro m' _ h' hr
    cases m' with
    | nil => rfl
    | cons d rest =>
      have := hr d.1
      simp only [Memory.read, if_true] at this
      exact absurd this.symm (Memory.wf_cons h').1
  | cons d rest ih =>
    intro m' h h' hr
    obtain ⟨h0, h1, h2⟩ := Memory.wf_cons h
    cases m' with
    | nil =>
      have := hr d.1
      simp only [Memory.read, if_true] at this
      exact absurd this h0
    | cons d' rest' =>
      obtain ⟨h0', h1', h2'⟩ := Memory.wf_cons h'
      have hk : d.1 = d'.1 := by
        rcases Nat.lt_trichotomy d.1 d'.1 with hlt | heq | hgt
        · have := hr d.1
          rw [Memory.read_below (d' :: rest') d.1 (by
            simp only [List.mem_cons, forall_eq_or_imp]
            exact ⟨hlt, fun c hc => by have := h1' c hc; omega⟩)] at this
          simp only [Memory.read, if_true] at this
          exact absurd this h0
        · exact heq
        · have := hr d'.1
          rw [Memory.read_below (d :: rest) d'.1 (by
            simp only [List.mem_cons, forall_eq_or_imp]
            exact ⟨hgt, fun c hc => by have := h1 c hc; omega⟩)] at this
          simp only [Memory.read, if_true] at this
          exact absurd this.symm h0'
      have hv : d.2 = d'.2 := by
        have := hr d.1
        simpa [Memory.read, hk] using this
      have hrest : rest = rest' := ih rest' h2 h2' fun a => by
        by_cases ha : d.1 = a
        · rw [Memory.read_below rest a fun c hc => ha ▸ h1 c hc,
            Memory.read_below rest' a fun c hc => ha ▸ hk ▸ h1' c hc]
        · have := hr a
          simpa [Memory.read, ha, show ¬ d'.1 = a by omega] using this
      exact congrArg₂ List.cons (Prod.ext hk hv) hrest

/-! ### The payload buffer -/

theorem wf_pbWrite (m : Memory) (i : Nat) (b : Byte) (h : Memory.wf m = true) :
    Memory.wf (pbWrite m i b) = true := by
  unfold pbWrite
  split
  · exact Memory.wf_write m i b h
  · exact h

theorem bound_pbWrite (m : Memory) (i : Nat) (b : Byte) (h : ∀ c ∈ m, c.1 < pbBytes) :
    ∀ c ∈ pbWrite m i b, c.1 < pbBytes := by
  unfold pbWrite
  split
  next hi =>
    intro c hc
    rcases Memory.mem_write m i b c hc with hc | rfl
    · exact h c hc
    · exact hi
  next => exact h

/-- Read after write of the payload buffer. -/
theorem read_pbWrite (m : Memory) (i a : Nat) (b : Byte) (h : Memory.wf m = true) (hi : i < pbBytes) :
    Memory.read (pbWrite m i b) a = if a = i then b else Memory.read m a := by
  rw [pbWrite, if_pos hi, Memory.read_write m i a b h]

/-- A payload write leaves every other byte as it reads. -/
theorem read_pbWrite_other (m : Memory) (i a : Nat) (b : Byte) (h : a ≠ i) :
    Memory.read (pbWrite m i b) a = Memory.read m a := by
  unfold pbWrite
  split
  · exact Memory.read_write_other m i a b h
  · rfl

@[simp] theorem length_readBytes (m : Memory) (a len : Nat) : (m.readBytes a len).length = len := by
  simp [Memory.readBytes]

/-! ### The header buffer -/

/-- Read after write of the header buffer. -/
theorem getElem_hbWrite (h : Vector Byte 4) (i j : Nat) (b : Byte) (hj : j < 4) :
    (hbWrite h i b)[j] = if i = j then b else h[j] := by
  unfold hbWrite
  split
  · simp [Vector.getElem_set]
  · rw [if_neg (by omega)]

end Sys2Proof.Machine
end

