-- ==== Sys2Proof/Laws/State.lean ====
section
/-! SUPPORT. The small lemmas of the state updates: what each named update leaves in each part of the
state, true by rfl, so that no later proof unfolds a record update. -/

namespace Sys2Proof.Machine

section Emit
variable (r : Record) (s : State)

@[simp] theorem emit_records : (emit r s).records = s.records ++ [r] := rfl
@[simp] theorem emit_run : (emit r s).run = s.run := rfl
@[simp] theorem emit_cfg : (emit r s).cfg = s.cfg := rfl
@[simp] theorem emit_mode : (emit r s).mode = s.mode := rfl
@[simp] theorem emit_err : (emit r s).err = s.err := rfl
@[simp] theorem emit_errInfo : (emit r s).errInfo = s.errInfo := rfl
@[simp] theorem emit_agcDelay : (emit r s).agcDelay = s.agcDelay := rfl
@[simp] theorem emit_inbox : (emit r s).inbox = s.inbox := rfl
@[simp] theorem emit_responses : (emit r s).responses = s.responses := rfl

end Emit

section Respond
variable (v : Word64) (s : State)

@[simp] theorem respond_responses : (respond v s).responses = s.responses ++ [v] := rfl
@[simp] theorem respond_records : (respond v s).records = s.records := rfl
@[simp] theorem respond_run : (respond v s).run = s.run := rfl
@[simp] theorem respond_cfg : (respond v s).cfg = s.cfg := rfl
@[simp] theorem respond_mode : (respond v s).mode = s.mode := rfl
@[simp] theorem respond_err : (respond v s).err = s.err := rfl
@[simp] theorem respond_errInfo : (respond v s).errInfo = s.errInfo := rfl
@[simp] theorem respond_agcDelay : (respond v s).agcDelay = s.agcDelay := rfl
@[simp] theorem respond_inbox : (respond v s).inbox = s.inbox := rfl

end Respond

section Raise
variable (e : ErrorCode) (info : Word64) (s : State)

@[simp] theorem raise_mode : (raise e info s).mode = e.modeAfter s.mode := rfl
@[simp] theorem raise_err : (raise e info s).err = e.code := rfl
@[simp] theorem raise_errInfo : (raise e info s).errInfo = info := rfl
@[simp] theorem raise_run : (raise e info s).run = s.run := rfl
@[simp] theorem raise_cfg : (raise e info s).cfg = s.cfg := rfl
@[simp] theorem raise_agcDelay : (raise e info s).agcDelay = s.agcDelay := rfl
@[simp] theorem raise_inbox : (raise e info s).inbox = s.inbox := rfl
@[simp] theorem raise_records : (raise e info s).records = s.records := rfl
@[simp] theorem raise_responses : (raise e info s).responses = s.responses := rfl

end Raise

/-- No error has code 0, which stands for "none". -/
theorem code_ne_zero (e : ErrorCode) : e.code ≠ 0#8 := by cases e <;> decide

section BeginRun
variable (s : State)

@[simp] theorem beginRun_mode : (beginRun s).mode = .run := rfl
@[simp] theorem beginRun_run : (beginRun s).run = RunState.reset := rfl
@[simp] theorem beginRun_cfg : (beginRun s).cfg = s.cfg := rfl
@[simp] theorem beginRun_err : (beginRun s).err = 0 := rfl
@[simp] theorem beginRun_errInfo : (beginRun s).errInfo = 0 := rfl
@[simp] theorem beginRun_agcDelay :
    (beginRun s).agcDelay = BitVec.ofNat 32 s.cfg.agcdelay := rfl
@[simp] theorem beginRun_inbox : (beginRun s).inbox = s.inbox := rfl
@[simp] theorem beginRun_records : (beginRun s).records = s.records := rfl
@[simp] theorem beginRun_responses : (beginRun s).responses = s.responses := rfl

end BeginRun

section FrontEnd
variable (x : NUM) (s : State)

@[simp] theorem agcUpdate_ringS :
    (agcUpdate x s).run.ringS = ringWrite s.run.ringS s.run.n.toNat x := rfl
@[simp] theorem agcUpdate_ringP :
    (agcUpdate x s).run.ringP = ringWrite s.run.ringP s.run.n.toNat (x * x) := rfl
@[simp] theorem agcUpdate_w :
    (agcUpdate x s).run.w = s.run.w + ringAt (ringWrite s.run.ringP s.run.n.toNat (x * x)) s.run.n.toNat
      - hist (ringWrite s.run.ringP s.run.n.toNat (x * x)) s.run.n.toNat s.agcDelay.toNat := rfl
@[simp] theorem agcUpdate_n : (agcUpdate x s).run.n = s.run.n := rfl
@[simp] theorem agcUpdate_cfg : (agcUpdate x s).cfg = s.cfg := rfl
@[simp] theorem agcUpdate_agcDelay : (agcUpdate x s).agcDelay = s.agcDelay := rfl

/-- All that the AGC update and the product do: S, P, W and X, and nothing else. -/
theorem frontEnd_eq :
    frontEnd x s = { s with run := { s.run with
      ringS := ringWrite s.run.ringS s.run.n.toNat x
      ringP := ringWrite s.run.ringP s.run.n.toNat (x * x)
      w := (agcUpdate x s).run.w
      ringX := ringWrite s.run.ringX s.run.n.toNat
        (x * hist (ringWrite s.run.ringS s.run.n.toNat x) s.run.n.toNat s.cfg.k) } } := rfl

@[simp] theorem storeOutput_ringY (y : NUM) :
    (storeOutput y s).run.ringY = ringWrite s.run.ringY s.run.n.toNat y := rfl

end FrontEnd

section Advance
variable (s : State)

@[simp] theorem advance_n : (advance s).run.n = s.run.n + 1 := rfl
@[simp] theorem advance_records : (advance s).records = s.records := rfl
@[simp] theorem advance_cfg : (advance s).cfg = s.cfg := rfl
@[simp] theorem advance_mode : (advance s).mode = s.mode := rfl

end Advance

end Sys2Proof.Machine
end

