-- ==== Sys2Proof/Laws/Frame.lean ====
section
/-! SUPPORT. The frames of the stages behind the slicer: what the parser, the framer and the symbol timer
leave unchanged, said once each. -/

namespace Sys2Proof.Machine

/-- `t` differs from `s` at most in the timer, parser, statistics and file state, and in records
appended to the output stream: control state, configuration, rings, W, LVL, N, RS, the inbox and the
responses are the same. -/
structure Keeps (s t : State) : Prop where
  mode      : t.mode = s.mode
  err       : t.err = s.err
  errInfo   : t.errInfo = s.errInfo
  cfg       : t.cfg = s.cfg
  agcDelay  : t.agcDelay = s.agcDelay
  inbox     : t.inbox = s.inbox
  responses : t.responses = s.responses
  ringS     : t.run.ringS = s.run.ringS
  ringP     : t.run.ringP = s.run.ringP
  ringX     : t.run.ringX = s.run.ringX
  ringY     : t.run.ringY = s.run.ringY
  w         : t.run.w = s.run.w
  lvl       : t.run.lvl = s.run.lvl
  n         : t.run.n = s.run.n
  rs        : t.run.rs = s.run.rs
  records   : ∃ new, t.records = s.records ++ new

theorem Keeps.refl (s : State) : Keeps s s := by
  constructor <;> first | rfl | exact ⟨[], by simp⟩

theorem Keeps.trans {s t u : State} (h : Keeps s t) (k : Keeps t u) : Keeps s u := by
  obtain ⟨a, ha⟩ := h.records
  obtain ⟨b, hb⟩ := k.records
  exact ⟨k.mode.trans h.mode, k.err.trans h.err, k.errInfo.trans h.errInfo, k.cfg.trans h.cfg,
    k.agcDelay.trans h.agcDelay, k.inbox.trans h.inbox, k.responses.trans h.responses,
    k.ringS.trans h.ringS, k.ringP.trans h.ringP, k.ringX.trans h.ringX, k.ringY.trans h.ringY,
    k.w.trans h.w, k.lvl.trans h.lvl, k.n.trans h.n, k.rs.trans h.rs,
    ⟨a ++ b, by rw [hb, ha, List.append_assoc]⟩⟩

theorem keeps_emit (r : Record) (s : State) : Keeps s (emit r s) := by
  constructor <;> first | rfl | exact ⟨[r], rfl⟩

theorem keeps_setPst (v : PState) (s : State) : Keeps s (setPst v s) := by
  constructor <;> first | rfl | exact ⟨[], by simp [setPst]⟩

theorem keeps_setFopen (v : Bool) (s : State) : Keeps s (setFopen v s) := by
  constructor <;> first | rfl | exact ⟨[], by simp [setFopen]⟩

theorem keeps_setCapopen (v : Bool) (s : State) : Keeps s (setCapopen v s) := by
  constructor <;> first | rfl | exact ⟨[], by simp [setCapopen]⟩

/-! ### Dispatch -/

theorem keeps_closeFile (s : State) : Keeps s (closeFile s) := by
  unfold closeFile
  split
  · exact (keeps_emit _ s).trans (keeps_setFopen _ _)
  · exact .refl s

theorem keeps_closeCapture (s : State) : Keeps s (closeCapture s) := by
  unfold closeCapture
  split
  · exact (keeps_emit _ s).trans (keeps_setCapopen _ _)
  · exact .refl s

theorem keeps_openFile (s : State) : Keeps s (openFile s) :=
  (keeps_emit _ s).trans (keeps_setFopen _ _)

theorem keeps_resetStatistics (s : State) : Keeps s (resetStatistics s) := by
  constructor <;> first | rfl | exact ⟨[], by simp [resetStatistics]⟩

theorem keeps_replaceFile (s : State) : Keeps s (replaceFile s) := by
  unfold replaceFile
  split
  · exact (keeps_closeFile s).trans (keeps_openFile _)
  · exact .refl s

theorem keeps_dispatchTitle (s : State) : Keeps s (dispatchTitle s) :=
  (keeps_emit _ s).trans ((keeps_resetStatistics _).trans (keeps_replaceFile _))

theorem keeps_statistics (ok : Bool) (s : State) : Keeps s (statistics ok s) := by
  constructor <;> first | rfl | exact ⟨[], by simp [statistics]⟩

theorem keeps_fileAppend (s : State) : Keeps s (fileAppend s) := by
  unfold fileAppend
  split
  · exact keeps_emit _ s
  · exact .refl s

theorem keeps_dispatchData (s : State) : Keeps s (dispatchData s) :=
  (keeps_emit _ s).trans ((keeps_statistics _ _).trans (keeps_fileAppend _))

theorem keeps_dispatchEnd (s : State) : Keeps s (dispatchEnd s) :=
  (keeps_emit _ s).trans (keeps_closeFile _)

theorem keeps_dispatch (s : State) : Keeps s (dispatch s) := by
  unfold dispatch
  split
  · exact keeps_dispatchTitle s
  · exact keeps_emit _ s
  · exact keeps_dispatchData s
  · exact keeps_dispatchEnd s

/-- Everything closing a file can do (R311, R312). -/
theorem closeFile_cases (s : State) :
    (s.run.fopen = true ∧
      closeFile s = { s with records := s.records ++ [.fileClose], run := { s.run with fopen := false } }) ∨
    (s.run.fopen = false ∧ closeFile s = s) := by
  unfold closeFile
  cases h : s.run.fopen
  · exact .inr ⟨rfl, rfl⟩
  · exact .inl ⟨rfl, rfl⟩

/-- Everything closing a capture interval can do (R312). -/
theorem closeCapture_cases (s : State) :
    (s.run.capopen = true ∧ closeCapture s =
      { s with records := s.records ++ [.captureClose], run := { s.run with capopen := false } }) ∨
    (s.run.capopen = false ∧ closeCapture s = s) := by
  unfold closeCapture
  cases h : s.run.capopen
  · exact .inr ⟨rfl, rfl⟩
  · exact .inl ⟨rfl, rfl⟩

/-- Closing a file as one update. -/
theorem closeFile_eq (s : State) : closeFile s = { s with
    records := s.records ++ (if s.run.fopen then [.fileClose] else [])
    run := { s.run with fopen := false } } := by
  rcases closeFile_cases s with ⟨h, e⟩ | ⟨h, e⟩ <;> rw [e] <;> simp [h]
  rw [← h]

/-- Closing a capture interval as one update. -/
theorem closeCapture_eq (s : State) : closeCapture s = { s with
    records := s.records ++ (if s.run.capopen then [.captureClose] else [])
    run := { s.run with capopen := false } } := by
  rcases closeCapture_cases s with ⟨h, e⟩ | ⟨h, e⟩ <;> rw [e] <;> simp [h]
  rw [← h]

/-- `t` differs from `s` within the run at most in the statistics and FOPEN. -/
def KeepsBlock (s t : State) : Prop :=
  t.run = { s.run with
    blockCount := t.run.blockCount, errorCount := t.run.errorCount, fopen := t.run.fopen }

theorem KeepsBlock.refl (s : State) : KeepsBlock s s := rfl

theorem KeepsBlock.trans {s t u : State} (h : KeepsBlock s t) (k : KeepsBlock t u) :
    KeepsBlock s u := by
  unfold KeepsBlock at *
  rw [k, h]

theorem keepsBlock_closeFile (s : State) : KeepsBlock s (closeFile s) := by
  rcases closeFile_cases s with ⟨-, h⟩ | ⟨-, h⟩ <;> rw [h] <;> rfl

/-- A dispatch reads the block and the parser's counts and writes statistics, FOPEN and records only
(45_block_parser.md R305). -/
theorem keepsBlock_dispatch (s : State) : KeepsBlock s (dispatch s) := by
  have replace (u : State) : KeepsBlock u (replaceFile u) := by
    unfold replaceFile
    split
    · exact (keepsBlock_closeFile u).trans rfl
    · exact .refl u
  have append (u : State) : KeepsBlock u (fileAppend u) := by
    unfold fileAppend
    split
    · exact rfl
    · exact .refl u
  unfold dispatch
  split
  · exact .trans (t := resetStatistics (emit _ s)) rfl (replace _)
  · exact rfl
  · exact .trans (t := statistics _ (emit _ s)) rfl (append _)
  · exact .trans (t := emit _ s) rfl (keepsBlock_closeFile _)

/-! ### The parser -/

theorem keeps_setHeader (s : State) : Keeps s (setHeader s) := by
  constructor <;> first | rfl | exact ⟨[], by simp [setHeader]⟩

theorem keeps_enterData (s : State) : Keeps s (enterData s) := by
  constructor <;> first | rfl | exact ⟨[], by simp [enterData]⟩

theorem keeps_enterHeader (s : State) : Keeps s (enterHeader s) := by
  constructor <;> first | rfl | exact ⟨[], by simp [enterHeader]⟩

theorem keeps_storeHeader (b : Byte) (s : State) : Keeps s (storeHeader b s) := by
  constructor <;> first | rfl | exact ⟨[], by simp [storeHeader]⟩

theorem keeps_storePayload (b : Byte) (s : State) : Keeps s (storePayload b s) := by
  constructor <;> first | rfl | exact ⟨[], by simp [storePayload]⟩

theorem keeps_beginBlock (s : State) : Keeps s (beginBlock s) := by
  unfold beginBlock
  split
  · exact (keeps_emit _ s).trans (keeps_setPst _ _)
  · exact keeps_enterData s

theorem keeps_decodeHeader (s : State) : Keeps s (decodeHeader s) :=
  (keeps_setHeader s).trans (keeps_beginBlock _)

theorem keeps_completeHeader (s : State) : Keeps s (completeHeader s) := by
  unfold completeHeader
  split
  · exact keeps_decodeHeader s
  · exact .refl s

theorem keeps_completePayload (s : State) : Keeps s (completePayload s) := by
  unfold completePayload
  split
  · exact (keeps_dispatch s).trans (keeps_setPst _ _)
  · exact .refl s

theorem keeps_parser (b : Byte) (s : State) : Keeps s (parser b s) := by
  unfold parser
  split
  · split
    · exact keeps_enterHeader s
    · exact .refl s
  · exact (keeps_storeHeader b s).trans (keeps_completeHeader _)
  · exact (keeps_storePayload b s).trans (keeps_completePayload _)

/-- `t` has the accumulator and CAPOPEN of `s`. -/
def KeepsTimer (s t : State) : Prop :=
  t.run.acc = s.run.acc ∧ t.run.cnt = s.run.cnt ∧ t.run.capopen = s.run.capopen

theorem KeepsBlock.keepsTimer {s t : State} (h : KeepsBlock s t) : KeepsTimer s t := by
  unfold KeepsBlock at h
  refine ⟨?_, ?_, ?_⟩ <;> rw [h]

theorem KeepsTimer.trans {s t u : State} (h : KeepsTimer s t) (k : KeepsTimer t u) :
    KeepsTimer s u :=
  ⟨k.1.trans h.1, k.2.1.trans h.2.1, k.2.2.trans h.2.2⟩

/-- The parser reads and writes neither the accumulator nor CAPOPEN (43_symbol_timer.md R276). -/
theorem keepsTimer_parser (b : Byte) (s : State) : KeepsTimer s (parser b s) := by
  have begin (u : State) : KeepsTimer u (beginBlock u) := by
    unfold beginBlock
    split <;> exact ⟨rfl, rfl, rfl⟩
  have header (u : State) : KeepsTimer u (completeHeader u) := by
    unfold completeHeader
    split
    · exact .trans (t := setHeader u) ⟨rfl, rfl, rfl⟩ (begin _)
    · exact ⟨rfl, rfl, rfl⟩
  have payload (u : State) : KeepsTimer u (completePayload u) := by
    unfold completePayload
    split
    · exact (keepsBlock_dispatch u).keepsTimer.trans ⟨rfl, rfl, rfl⟩
    · exact ⟨rfl, rfl, rfl⟩
  unfold parser
  split
  · split <;> exact ⟨rfl, rfl, rfl⟩
  · exact .trans (t := storeHeader b s) ⟨rfl, rfl, rfl⟩ (header _)
  · exact .trans (t := storePayload b s) ⟨rfl, rfl, rfl⟩ (payload _)

theorem keeps_resetParser (s : State) : Keeps s (resetParser s) := by
  unfold resetParser
  split
  · exact .refl s
  · constructor <;> first | rfl | exact ⟨[], by simp⟩

theorem keeps_carrierLossActions (s : State) : Keeps s (carrierLossActions s) :=
  (keeps_closeFile s).trans ((keeps_closeCapture _).trans (keeps_resetParser _))

/-- The carrier-loss actions leave the accumulator alone (R312). -/
theorem carrierLossActions_timer (s : State) :
    (carrierLossActions s).run.acc = s.run.acc ∧ (carrierLossActions s).run.cnt = s.run.cnt := by
  unfold carrierLossActions resetParser
  rcases closeFile_cases s with ⟨-, h⟩ | ⟨-, h⟩ <;> rw [h] <;>
    rcases closeCapture_cases _ with ⟨-, k⟩ | ⟨-, k⟩ <;> rw [k] <;>
    split <;> exact ⟨rfl, rfl⟩

/-! ### The framer and the symbol timer -/

theorem keeps_captureOut (b : Byte) (s : State) : Keeps s (captureOut b s) := by
  unfold captureOut
  split
  · exact (keeps_emit _ s).trans (keeps_setCapopen _ _)
  · exact .refl s

theorem keeps_framer (r : Word32) (c : Nat) (s : State) : Keeps s (framer r c s) := by
  unfold framer
  split
  · exact (keeps_captureOut _ s).trans (keeps_parser _ _)
  · exact .refl s

/-- The framer leaves the accumulator alone (R276). -/
theorem framer_timer (r : Word32) (c : Nat) (s : State) :
    (framer r c s).run.acc = s.run.acc ∧ (framer r c s).run.cnt = s.run.cnt := by
  unfold framer
  split
  · obtain ⟨h1, h2, -⟩ := keepsTimer_parser (frameByte r) (captureOut (frameByte r) s)
    rw [h1, h2]
    unfold captureOut
    split <;> exact ⟨rfl, rfl⟩
  · exact ⟨rfl, rfl⟩

/-- A frame of zeros, which an empty accumulator holds, is dropped (44_byte_framer.md R292). -/
@[simp] theorem framer_zero (c : Nat) (s : State) : framer 0#32 c s = s := by
  simp [framer, frameOk]

theorem keeps_clearBits (s : State) : Keeps s (clearBits s) := by
  constructor <;> first | rfl | exact ⟨[], by simp [clearBits]⟩

theorem keeps_flush (s : State) : Keeps s (flush s) :=
  (keeps_clearBits s).trans (keeps_framer _ _ _)

/-- After a flush the accumulator is empty (R276). -/
@[simp] theorem flush_acc (s : State) : (flush s).run.acc = 0#32 := (framer_timer _ _ _).1

@[simp] theorem flush_cnt (s : State) : (flush s).run.cnt = 0#5 := (framer_timer _ _ _).2

/-- A flush of an empty accumulator only clears the bit count (44_byte_framer.md R292). -/
theorem flush_of_acc_zero (s : State) (h : s.run.acc = 0#32) : flush s = clearBits s := by
  rw [flush, h, framer_zero]

theorem keeps_highRun (nb : Nat) (s : State) : Keeps s (highRun nb s) := by
  constructor <;> first | rfl | exact ⟨[], by simp [highRun]⟩

theorem keeps_addZeros (nb : Nat) (s : State) : Keeps s (addZeros nb s) := by
  constructor <;> first | rfl | exact ⟨[], by simp [addZeros]⟩

theorem keeps_boundaryFlush (s : State) : Keeps s (boundaryFlush s) := by
  unfold boundaryFlush
  split
  · exact keeps_flush s
  · exact .refl s

theorem keeps_lowRun (nb : Nat) (s : State) : Keeps s (lowRun nb s) :=
  (keeps_boundaryFlush s).trans (keeps_addZeros nb _)

theorem keeps_addRun (prev : Level) (nb : Nat) (s : State) : Keeps s (addRun prev nb s) := by
  unfold addRun
  split
  · exact keeps_highRun nb s
  · exact keeps_lowRun nb s
  · exact .refl s

theorem keeps_lossFlush (s : State) : Keeps s (lossFlush s) := by
  unfold lossFlush
  split
  · exact keeps_flush s
  · exact .refl s

theorem keeps_endRun (new : Level) (s : State) : Keeps s (endRun new s) := by
  unfold endRun
  split
  · exact (keeps_lossFlush s).trans (keeps_carrierLossActions _)
  · exact .refl s

theorem keeps_symbolTimer (prev : Level) (dur : Word64) (new : Level) (s : State) :
    Keeps s (symbolTimer prev dur new s) :=
  (keeps_addRun _ _ s).trans (keeps_endRun _ _)

/-- A carrier loss leaves the bit count 0 (R275, R277). -/
theorem endRun_none_cnt (s : State) : (endRun .none s).run.cnt = 0#5 := by
  simp only [endRun, if_true, carrierLost, (carrierLossActions_timer _).2, lossFlush]
  split
  · exact flush_cnt s
  · simp_all

/-! ### The slicer -/

theorem keeps_traceOut (x y : NUM) (o : NormOut) (g : Gain) (s : State) :
    Keeps s (traceOut x y o g s) := by
  unfold traceOut
  split
  · exact keeps_emit _ s
  · exact .refl s

/-- The trace stage touches the record stream only. -/
@[simp] theorem traceOut_run (x y : NUM) (o : NormOut) (g : Gain) (s : State) :
    (traceOut x y o g s).run = s.run := by
  unfold traceOut
  split <;> rfl

theorem keeps_runOut (new : Level) (s : State) : Keeps s (runOut new s) := by
  unfold runOut
  split
  · exact keeps_emit _ s
  · exact .refl s

@[simp] theorem runOut_run (new : Level) (s : State) : (runOut new s).run = s.run := by
  unfold runOut
  split <;> rfl

end Sys2Proof.Machine
end

