-- ==== Sys2Proof/Laws/Parser.lean ====
section
/-! SUPPORT. The parser over a whole block: what collecting its payload leaves, and the checksum and the
automaton of the file records over sequences (45_block_parser.md R302, R305, R308, R313). -/

namespace Sys2Proof.Machine

/-- One byte in READ_DATA (R302). -/
theorem parser_readData (b : Byte) (s : State) (h : s.run.pst = .readData) :
    parser b s = completePayload (storePayload b s) := by
  simp [parser, h, payloadByte]

/-- Bytes that do not complete the block are stored in order and nothing else happens (R302). -/
theorem parseBytes_collect (bs : List Byte) : ∀ s : State, s.BufferInv → s.run.pst = .readData →
    s.run.pcnt.toNat + bs.length < 2 * s.run.bl.toNat →
    ∃ pb, parseBytes bs s = { s with run := { s.run with
        pb := pb, pcnt := BitVec.ofNat 15 (s.run.pcnt.toNat + bs.length) } } ∧
      (parseBytes bs s).BufferInv ∧
      ∀ a, Memory.read pb a =
        if s.run.pcnt.toNat ≤ a ∧ a < s.run.pcnt.toNat + bs.length
        then bs.getD (a - s.run.pcnt.toNat) 0 else Memory.read s.run.pb a := by
  induction bs with
  | nil =>
    intro s hB _ _
    exact ⟨s.run.pb, by simp [parseBytes], hB, fun a => by rw [if_neg (by simp)]⟩
  | cons b bs ih =>
    intro s hB hp h
    have hl := s.run.bl.isLt
    simp only [List.length_cons] at h
    have pc : (storePayload b s).run.pcnt.toNat = s.run.pcnt.toNat + 1 := by
      simp [storePayload]
      omega
    have e : parser b s = storePayload b s := by
      rw [parser_readData b s hp, completePayload, if_neg]
      rw [pc]
      show ¬ s.run.pcnt.toNat + 1 = 2 * s.run.bl.toNat
      omega
    obtain ⟨pb, h1, h2, h3⟩ := ih (storePayload b s)
      ⟨wf_pbWrite _ _ _ hB.1, bound_pbWrite _ _ _ hB.2⟩ hp
      (by rw [pc]; show _ < 2 * s.run.bl.toNat; omega)
    refine ⟨pb, ?_, ?_, fun a => ?_⟩
    · show parseBytes bs (parser b s) = _
      rw [e, h1, pc, List.length_cons,
        show s.run.pcnt.toNat + 1 + bs.length = s.run.pcnt.toNat + (bs.length + 1) by omega]
      rfl
    · show (parseBytes bs (parser b s)).BufferInv
      rw [e]
      exact h2
    · have r : Memory.read (storePayload b s).run.pb a =
          if a = s.run.pcnt.toNat then b else Memory.read s.run.pb a :=
        read_pbWrite _ _ _ _ hB.1 (by simp [pbBytes]; omega)
      rw [h3, pc, r]
      by_cases h5 : s.run.pcnt.toNat + 1 ≤ a ∧ a < s.run.pcnt.toNat + 1 + bs.length
      · rw [if_pos h5, if_pos (by simp; omega)]
        obtain ⟨k, rfl⟩ : ∃ k, a = s.run.pcnt.toNat + 1 + k := ⟨a - (s.run.pcnt.toNat + 1), by omega⟩
        simp [show s.run.pcnt.toNat + 1 + k - s.run.pcnt.toNat = k + 1 by omega]
      · rw [if_neg h5]
        by_cases h6 : a = s.run.pcnt.toNat
        · subst h6
          simp
        · rw [if_neg h6, if_neg (by simp; omega)]

/-- The payload bytes of a buffer that holds a byte sequence (R305). -/
theorem readBytes_of_read (pb : Memory) (bs : List Byte)
    (h : ∀ a (_ : a < bs.length), Memory.read pb a = bs[a]) (k : Nat) :
    Memory.readBytes pb k (bs.length - k) = bs.drop k := by
  apply List.ext_getElem
  · simp
  · intro i h1 h2
    simp only [Memory.readBytes, List.getElem_map, List.getElem_range, List.getElem_drop]
    apply h

/-- Summing word by word is the sum over the byte sequence (R308). -/
theorem foldl_wordSum (wl : Bool) : ∀ (n : Nat) (bs : List Byte) (f : Nat → Half)
    (hl : bs.length = 2 * n),
    (∀ i (h : i < n), f i = tapeWord wl (bs[2 * i]'(by omega)) (bs[2 * i + 1]'(by omega))) →
    ∀ a : Half, (List.range n).foldl (fun sum i => sum + f i) a = a + wordSum wl bs := by
  intro n
  induction n with
  | zero =>
    intro bs f hl _ a
    rw [List.length_eq_zero_iff.mp (show bs.length = 0 by omega)]
    simp [wordSum]
  | succ n ih =>
    intro bs f hl hf a
    match bs, hl with
    | [], hl => simp at hl
    | [_], hl => simp at hl; omega
    | b0 :: b1 :: rest, hl =>
      rw [List.range_succ_eq_map, List.foldl_cons, List.foldl_map,
        ih rest (fun i => f (i + 1)) (by simp at hl; omega)
          (fun i hi => by rw [hf (i + 1) (by omega)]; rfl) (a + f 0), wordSum, hf 0 (by omega)]
      show a + tapeWord wl b0 b1 + _ = _
      rw [BitVec.add_assoc]
      rfl

/-- The file automaton over one stretch of records after another (R313). -/
theorem fileRecords_append (f : Bool) (a b : List Record) :
    fileRecords f (a ++ b) = (fileRecords f a).bind fun g => fileRecords g b := by
  induction a generalizing f with
  | nil => rfl
  | cons r a ih =>
    simp only [List.cons_append, fileRecords, Option.bind_assoc]
    cases fileRecord f r <;> simp [ih]

end Sys2Proof.Machine
end

