-- ==== Sys2Proof/Laws/PerInstr.lean ====
section
/-! SUPPORT. Facts stated once per instruction.

The family EncodingMatchesRow: the command word of every instruction has the bits its row of the opcode
table fixes (match and mask of spec/opcode_table.json, 30_encoding.md R132). -/

namespace Sys2Proof.Laws.EncodingMatchesRow

/-- The match value of the instruction's row in the opcode table; its mask is 0xFF00. -/
def rowMatch : Instr → Half
  | .nop _ _       => 0x0000#16
  | .cfgWrite _ _  => 0x0100#16
  | .regRead _ _   => 0x0200#16
  | .start _ _     => 0x0300#16
  | .sample _ _    => 0x0400#16
  | .finish _ _    => 0x0500#16
  | .softReset _ _ => 0x0600#16

/-- The encoded command word agrees with the row's match on the row's mask. -/
def Statement (i : Instr) : Prop := (encode i).cw &&& 0xFF00#16 = rowMatch i

/-- Masking a command word with 0xFF00 leaves OP in the high byte. -/
theorem mask_cmdWord (op addr : Byte) : cmdWord op addr &&& 0xFF00#16 = cmdWord op 0x00#8 := by
  have hmask : (0xFF00#16 : Half) = cmdWord 0xFF#8 0x00#8 := by decide
  have hones : ∀ k < 8, (0xFF#8 : Byte).getLsbD k = true := by decide
  apply BitVec.eq_of_getLsbD_eq
  intro i hi
  rw [hmask, BitVec.getLsbD_and, getLsbD_cmdWord, getLsbD_cmdWord, getLsbD_cmdWord]
  split
  · simp
  · rw [hones (i - 8) (by omega), Bool.and_true]

/-- An instruction's row follows from the value of its OP byte. -/
theorem of_opcode {i : Instr} (h : cmdWord i.opcode 0x00#8 = rowMatch i) : Statement i :=
  (mask_cmdWord i.opcode i.addr).trans h

theorem nop (addr : Byte) (data : Word64) : Statement (.nop addr data) :=
  of_opcode (show cmdWord 0x00#8 0x00#8 = 0x0000#16 by decide)
theorem cfgWrite (addr : Byte) (data : Word64) : Statement (.cfgWrite addr data) :=
  of_opcode (show cmdWord 0x01#8 0x00#8 = 0x0100#16 by decide)
theorem regRead (addr : Byte) (data : Word64) : Statement (.regRead addr data) :=
  of_opcode (show cmdWord 0x02#8 0x00#8 = 0x0200#16 by decide)
theorem start (addr : Byte) (data : Word64) : Statement (.start addr data) :=
  of_opcode (show cmdWord 0x03#8 0x00#8 = 0x0300#16 by decide)
theorem sample (addr : Byte) (data : Word64) : Statement (.sample addr data) :=
  of_opcode (show cmdWord 0x04#8 0x00#8 = 0x0400#16 by decide)
theorem finish (addr : Byte) (data : Word64) : Statement (.finish addr data) :=
  of_opcode (show cmdWord 0x05#8 0x00#8 = 0x0500#16 by decide)
theorem softReset (addr : Byte) (data : Word64) : Statement (.softReset addr data) :=
  of_opcode (show cmdWord 0x06#8 0x00#8 = 0x0600#16 by decide)

end Sys2Proof.Laws.EncodingMatchesRow
end

