-- ==== Sys2Proof/Laws/Records.lean ====
section
/-! SUPPORT. The wire form of numbers (30_encoding.md R151). -/

namespace Sys2Proof.Machine

@[simp] theorem length_bytesLE (k v : Nat) : (bytesLE k v).length = k := by simp [bytesLE]

/-- One byte and the rest: the least significant byte goes first. -/
theorem bytesLE_succ (k v : Nat) : bytesLE (k + 1) v = BitVec.ofNat 8 v :: bytesLE k (v / 256) := by
  simp only [bytesLE, List.range_succ_eq_map, List.map_cons, List.map_map]
  refine congrArg₂ List.cons (by simp) (List.map_congr_left fun i _ => ?_)
  simp only [Function.comp, Nat.div_div_eq_div_mul]
  rw [show (256 : Nat) = 2 ^ 8 by decide, ← Nat.pow_add, show 8 + 8 * i = 8 * i.succ by omega]

/-- Numbers of at most k bytes are told apart by their wire form. -/
theorem bytesLE_inj (k v v' : Nat) (h : v < 256 ^ k) (h' : v' < 256 ^ k)
    (e : bytesLE k v = bytesLE k v') : v = v' := by
  induction k generalizing v v' with
  | zero => omega
  | succ k ih =>
    rw [bytesLE_succ, bytesLE_succ, List.cons.injEq] at e
    rw [Nat.pow_succ] at h h'
    have hd := ih (v / 256) (v' / 256) (Nat.div_lt_of_lt_mul (by omega))
      (Nat.div_lt_of_lt_mul (by omega)) e.2
    have hm : v % 256 = v' % 256 := by simpa [BitVec.ofNat_eq_ofNat, BitVec.toNat_eq] using e.1
    omega

end Sys2Proof.Machine
end

