-- ==== Sys2Proof/Laws/Ring.lean ====
section
/-! SUPPORT. The laws of the history rings (20_memory.md R104, R105). -/

namespace Sys2Proof.Machine

/-- Read after write, by slot. -/
theorem ringAt_ringWrite (b : Ring) (n m : Nat) (v : NUM) :
    ringAt (ringWrite b n v) m = if m % 256 = n % 256 then v else ringAt b m := by
  simp only [ringAt, ringWrite, Config.histCap, Vector.getElem_set, eq_comm (a := n % 256)]

@[simp] theorem ringAt_ringWrite_same (b : Ring) (n : Nat) (v : NUM) :
    ringAt (ringWrite b n v) n = v := by simp [ringAt_ringWrite]

/-- A write in step n leaves every lag from 1 to 255 as it was. -/
theorem hist_ringWrite_lag (b : Ring) (n lag : Nat) (v : NUM) (h1 : 1 ≤ lag) (h2 : lag < 256) :
    hist (ringWrite b n v) n lag = hist b n lag := by
  unfold hist
  split
  · rfl
  · rw [ringAt_ringWrite, if_neg (by omega)]

@[simp] theorem hist_zero_lag (b : Ring) (n : Nat) : hist b n 0 = ringAt b n := by simp [hist]

/-- The index of the next step moves every lag by one. -/
theorem hist_succ (b : Ring) (n lag : Nat) : hist b (n + 1) (lag + 1) = hist b n lag := by
  simp [hist]

@[simp] theorem ringAt_replicate_zero (m : Nat) :
    ringAt (Vector.replicate Config.histCap 0) m = 0 := by simp [ringAt]

@[simp] theorem hist_replicate_zero (n lag : Nat) :
    hist (Vector.replicate Config.histCap 0) n lag = 0 := by simp [hist]

end Sys2Proof.Machine
end

