-- ==== Sys2Proof/Laws/Step.lean ====
section
/-! SUPPORT. What a command and a step can do, said once: one inversion lemma per command and one for
step. -/

namespace Sys2Proof.Machine

theorem next_inj {s t : State} (h : (Host.Outcome.next s : Host.Outcome State Fault Refusal) = .next t) :
    s = t := by injection h

/-! ### The commands -/

/-- Everything a CFG_WRITE can do (40_host_commands.md R181). -/
theorem execCfgWrite_cases {addr : Byte} {data : Word64} {s t : State}
    (h : execCfgWrite addr data s = .next t) :
    (s.mode.acceptsConfig = false ∧ t = raise .illegalState (cmdInfo 0x01#8 addr) s) ∨
    (s.mode.acceptsConfig = true ∧ ∃ c, writeCfg addr data s.cfg = some c ∧ t = { s with cfg := c }) ∨
    (s.mode.acceptsConfig = true ∧ writeCfg addr data s.cfg = none ∧
      t = raise .illegalAddr (cmdInfo 0x01#8 addr) s) := by
  unfold execCfgWrite at h
  cases hm : s.mode.acceptsConfig <;> simp only [hm, Bool.not_false, Bool.not_true, if_true] at h
  · exact .inl ⟨rfl, (next_inj h).symm⟩
  · cases hw : writeCfg addr data s.cfg <;> simp [hw] at h
    · exact .inr (.inr ⟨rfl, rfl, h.symm⟩)
    · exact .inr (.inl ⟨rfl, _, rfl, h.symm⟩)

/-- Everything a REG_READ can do (R182). -/
theorem execRegRead_cases {addr : Byte} {s t : State} (h : execRegRead addr s = .next t) :
    (∃ v, readReg addr s = some v ∧ t = respond v s) ∨
    (readReg addr s = none ∧ t = raise .illegalAddr (cmdInfo 0x02#8 addr) (respond 0#64 s)) := by
  unfold execRegRead at h
  cases hr : readReg addr s <;> simp [hr] at h
  · exact .inr ⟨rfl, h.symm⟩
  · exact .inl ⟨_, rfl, h.symm⟩

/-- Everything a START can do (R183). -/
theorem execStart_cases {addr : Byte} {s t : State} (h : execStart addr s = .next t) :
    (s.mode.acceptsConfig = false ∧ t = raise .illegalState (cmdInfo 0x03#8 addr) s) ∨
    (s.mode.acceptsConfig = true ∧ ∃ e info, startError s.cfg = some (e, info) ∧ t = raise e info s) ∨
    (s.mode.acceptsConfig = true ∧ startError s.cfg = none ∧ t = beginRun s) := by
  unfold execStart at h
  cases hm : s.mode.acceptsConfig <;> simp only [hm, Bool.not_false, Bool.not_true, if_true] at h
  · exact .inl ⟨rfl, (next_inj h).symm⟩
  · cases hw : startError s.cfg <;> simp [hw] at h
    · exact .inr (.inr ⟨rfl, rfl, h.symm⟩)
    · exact .inr (.inl ⟨rfl, _, _, rfl, h.symm⟩)

/-- Everything a SAMPLE can do (R184). -/
theorem execSample_cases {addr : Byte} {data : Word64} {s t : State}
    (h : execSample addr data s = .next t) :
    (s.mode ≠ .run ∧ t = raise .illegalState (cmdInfo 0x04#8 addr) s) ∨
    (s.mode = .run ∧ finite64 data = false ∧ t = raise .badSample s.run.n s) ∨
    (s.mode = .run ∧ finite64 data = true ∧ s.run.n = 0xFFFFFFFFFFFFFFFF#64 ∧
      t = raise .indexOverflow s.run.n s) ∨
    (s.mode = .run ∧ finite64 data = true ∧ s.run.n ≠ 0xFFFFFFFFFFFFFFFF#64 ∧
      t = sampleStep (f64 data) s) := by
  unfold execSample at h
  by_cases hm : s.mode = .run <;> simp only [hm, ne_eq, not_true, not_false_iff, if_true, if_false] at h
  · cases hf : finite64 data <;> simp only [hf, Bool.not_false, Bool.not_true, if_true] at h
    · exact .inr (.inl ⟨hm, rfl, (next_inj h).symm⟩)
    · by_cases hn : s.run.n = 0xFFFFFFFFFFFFFFFF#64 <;> simp [hn] at h
      · exact .inr (.inr (.inl ⟨hm, rfl, hn, by rw [hn]; exact h.symm⟩))
      · exact .inr (.inr (.inr ⟨hm, rfl, hn, h.symm⟩))
  · exact .inl ⟨hm, (next_inj h).symm⟩

/-- Where a SAMPLE is accepted it runs one step of the pipeline (R184). -/
theorem execSample_run {addr : Byte} {data : Word64} {s : State} (hm : s.mode = .run)
    (hf : finite64 data = true) (hn : s.run.n ≠ 0xFFFFFFFFFFFFFFFF#64) :
    execSample addr data s = .next (sampleStep (f64 data) s) := by
  simp [execSample, hm, hf, hn]

/-- Everything a FINISH can do (R185). -/
theorem execFinish_cases {addr : Byte} {s t : State} (h : execFinish addr s = .next t) :
    (s.mode ≠ .run ∧ t = raise .illegalState (cmdInfo 0x05#8 addr) s) ∨
    (s.mode = .run ∧ t = { closeCapture (closeFile s) with mode := .done }) := by
  unfold execFinish at h
  by_cases hm : s.mode = .run <;> simp [hm] at h
  · exact .inr ⟨hm, h.symm⟩
  · exact .inl ⟨hm, h.symm⟩

/-- No command stops the machine (60_exceptions.md R348). -/
theorem exec_next (i : Instr) (s : State) : ∃ t, exec i s = .next t := by
  cases i with
  | nop addr data => exact ⟨_, rfl⟩
  | cfgWrite addr data =>
    simp only [exec, execCfgWrite]
    split
    · exact ⟨_, rfl⟩
    · split <;> exact ⟨_, rfl⟩
  | regRead addr data =>
    simp only [exec, execRegRead]
    split <;> exact ⟨_, rfl⟩
  | start addr data =>
    simp only [exec, execStart]
    split
    · exact ⟨_, rfl⟩
    · split <;> exact ⟨_, rfl⟩
  | sample addr data =>
    simp only [exec, execSample]
    split
    · exact ⟨_, rfl⟩
    · split
      · exact ⟨_, rfl⟩
      · split <;> exact ⟨_, rfl⟩
  | finish addr data =>
    simp only [exec, execFinish]
    split <;> exact ⟨_, rfl⟩
  | softReset addr data => exact ⟨_, rfl⟩

/-! ### One step -/

/-- Everything a step can do: wait, run the decoded instruction, or refuse a reserved OP. -/
theorem step_cases {s t : State} (h : step s = .next t) :
    (s.inbox = [] ∧ t = s) ∨
    (∃ c rest i, s.inbox = c :: rest ∧ decode c = .instr i ∧
      exec i { s with inbox := rest } = .next t) ∨
    (∃ c rest cw, s.inbox = c :: rest ∧ decode c = .reserved cw ∧
      t = rejectReserved cw { s with inbox := rest }) := by
  unfold step accept at h
  cases hi : s.inbox with
  | nil =>
    simp only [hi] at h
    exact .inl ⟨rfl, (next_inj h).symm⟩
  | cons c rest =>
    simp only [hi] at h
    cases hd : decode c with
    | instr i =>
      simp only [hd] at h
      exact .inr (.inl ⟨c, rest, i, rfl, hd, h⟩)
    | reserved cw =>
      simp only [hd] at h
      exact .inr (.inr ⟨c, rest, cw, rfl, hd, (next_inj h).symm⟩)

/-- A property that survives taking a command out of the inbox, every instruction and every refused OP
survives every step. -/
theorem step_invariant (P : State → Prop) (hin : ∀ s r, P s → P { s with inbox := r })
    (hex : ∀ i s t, P s → exec i s = .next t → P t)
    (hrs : ∀ cw s, P s → P (rejectReserved cw s)) {s t : State} (hs : P s)
    (h : step s = .next t) : P t := by
  rcases step_cases h with ⟨-, rfl⟩ | ⟨c, rest, i, -, -, he⟩ | ⟨c, rest, cw, -, -, rfl⟩
  · exact hs
  · exact hex i _ _ (hin _ _ hs) he
  · exact hrs _ _ (hin _ _ hs)

/-- What START's checks leave of the rates and of round(SR/BR) (R183, 10_state.md R55). -/
theorem startError_none {c : CfgRegs} (h : startError c = none) :
    c.sr ≠ 0 ∧ c.br ≠ 0 ∧ c.agcdelay ≠ 0 ∧ c.agcdelay < 256 ∧ c.k < 256 := by
  unfold startError at h
  split at h; · cases h
  split at h; · cases h
  split at h; · cases h
  split at h; · cases h
  split at h; · cases h
  simp only [Config.histCap] at *
  omega

/-! ### The pipeline of a SAMPLE -/

/-- Below its last value the sample index does not wrap (10_state.md R60). -/
theorem toNat_index_succ {n : Word64} (h : n ≠ 0xFFFFFFFFFFFFFFFF#64) :
    (n + 1).toNat = n.toNat + 1 := by
  have hn : n.toNat ≠ 2 ^ 64 - 1 := fun h' => h (BitVec.eq_of_toNat_eq (by simpa using h'))
  have h1 : (1 : Word64).toNat = 1 := rfl
  have := n.isLt
  rw [BitVec.toNat_add, h1]
  omega

/-- The step behind the front end: nothing when the level stays, the level-run event otherwise
(42_filter_slicer.md R245). -/
theorem sampleEvent_cases (new : Level) (s : State) :
    (new = s.run.lvl ∧ sampleEvent new s = s) ∨
    (new ≠ s.run.lvl ∧ sampleEvent new s = levelChange new s) := by
  unfold sampleEvent
  by_cases h : new = s.run.lvl
  · exact .inl ⟨h, if_neg (not_not.mpr h)⟩
  · exact .inr ⟨h, if_pos h⟩

/-- What a level change keeps, against the state with the new level and run start. -/
theorem keeps_levelChange (new : Level) (s : State) : Keeps (enterLevel new s) (levelChange new s) := by
  have h : Keeps (enterLevel new s) (enterLevel new (runOut new s)) := by
    unfold runOut
    split
    · constructor <;> first | rfl | exact ⟨[_], rfl⟩
    · exact .refl _
  exact h.trans (keeps_symbolTimer _ _ _ _)

/-- The level of the state after the event stage is the new level (R246). -/
theorem sampleEvent_lvl (new : Level) (s : State) : (sampleEvent new s).run.lvl = new := by
  rcases sampleEvent_cases new s with ⟨h, e⟩ | ⟨-, e⟩ <;> rw [e]
  · exact h.symm
  · exact (keeps_levelChange new s).lvl

/-- The rings, W and N behind the event stage are those before it. -/
theorem sampleEvent_signal (new : Level) (s : State) :
    (sampleEvent new s).run.ringS = s.run.ringS ∧ (sampleEvent new s).run.ringP = s.run.ringP ∧
    (sampleEvent new s).run.ringX = s.run.ringX ∧ (sampleEvent new s).run.ringY = s.run.ringY ∧
    (sampleEvent new s).run.w = s.run.w ∧ (sampleEvent new s).run.n = s.run.n := by
  rcases sampleEvent_cases new s with ⟨-, e⟩ | ⟨-, e⟩ <;> rw [e]
  · exact ⟨rfl, rfl, rfl, rfl, rfl, rfl⟩
  · have k := keeps_levelChange new s
    exact ⟨k.ringS, k.ringP, k.ringX, k.ringY, k.w, k.n⟩

/-- The control state, configuration and ports behind the event stage are those before it. -/
theorem sampleEvent_control (new : Level) (s : State) :
    (sampleEvent new s).mode = s.mode ∧ (sampleEvent new s).err = s.err ∧
    (sampleEvent new s).errInfo = s.errInfo ∧ (sampleEvent new s).cfg = s.cfg ∧
    (sampleEvent new s).agcDelay = s.agcDelay ∧ (sampleEvent new s).inbox = s.inbox ∧
    (sampleEvent new s).responses = s.responses := by
  rcases sampleEvent_cases new s with ⟨-, e⟩ | ⟨-, e⟩ <;> rw [e]
  · exact ⟨rfl, rfl, rfl, rfl, rfl, rfl, rfl⟩
  · have k := keeps_levelChange new s
    exact ⟨k.mode, k.err, k.errInfo, k.cfg, k.agcDelay, k.inbox, k.responses⟩

/-- The run after the front end of a step: S, P, W, X and Y are written and nothing else (R184). -/
theorem sampleFront_run (x : NUM) (s : State) :
    (sampleFront x s).run = { s.run with
      ringS := ringWrite s.run.ringS s.run.n.toNat x
      ringP := ringWrite s.run.ringP s.run.n.toNat (x * x)
      w := (agcUpdate x s).run.w
      ringX := ringWrite s.run.ringX s.run.n.toNat
        (x * hist (ringWrite s.run.ringS s.run.n.toNat x) s.run.n.toNat s.cfg.k)
      ringY := ringWrite s.run.ringY s.run.n.toNat (sampleFilter x s) } := by
  rw [sampleFront, traceOut_run]
  rfl

/-- The TRACE record of a step, if it is enabled and the index is in the range (R247). -/
def traceRecords (x : NUM) (s : State) : List Record :=
  if s.cfg.traceEn = true ∧ s.cfg.traceLo.toNat ≤ s.run.n.toNat ∧ s.run.n.toNat ≤ s.cfg.traceHi.toNat
  then [.trace s.run.n x (sampleFilter x s) (sampleNorm x s) (sampleGain x s)]
  else []

/-- Everything the front end of a step does, as one update. -/
theorem sampleFront_eq (x : NUM) (s : State) : sampleFront x s = { s with
    records := s.records ++ traceRecords x s
    run := { s.run with
      ringS := ringWrite s.run.ringS s.run.n.toNat x
      ringP := ringWrite s.run.ringP s.run.n.toNat (x * x)
      w := (agcUpdate x s).run.w
      ringX := ringWrite s.run.ringX s.run.n.toNat
        (x * hist (ringWrite s.run.ringS s.run.n.toNat x) s.run.n.toNat s.cfg.k)
      ringY := ringWrite s.run.ringY s.run.n.toNat (sampleFilter x s) } } := by
  by_cases h : s.cfg.traceEn = true ∧ s.cfg.traceLo.toNat ≤ s.run.n.toNat ∧
      s.run.n.toNat ≤ s.cfg.traceHi.toNat
  · rw [traceRecords, if_pos h]
    exact if_pos h
  · rw [traceRecords, if_neg h, List.append_nil]
    exact if_neg h

/-- The control state, configuration and ports are untouched by the front end, and it appends at most
the trace record. -/
theorem sampleFront_control (x : NUM) (s : State) :
    (sampleFront x s).mode = s.mode ∧ (sampleFront x s).err = s.err ∧
    (sampleFront x s).errInfo = s.errInfo ∧ (sampleFront x s).cfg = s.cfg ∧
    (sampleFront x s).agcDelay = s.agcDelay ∧ (sampleFront x s).inbox = s.inbox ∧
    (sampleFront x s).responses = s.responses := by
  have k := keeps_traceOut x (sampleFilter x s) (sampleNorm x s) (sampleGain x s)
    (storeOutput (sampleFilter x s) (frontEnd x s))
  exact ⟨k.mode, k.err, k.errInfo, k.cfg, k.agcDelay, k.inbox, k.responses⟩

/-- The level after a step is the classified level (R184). -/
@[simp] theorem sampleStep_lvl (x : NUM) (s : State) :
    (sampleStep x s).run.lvl = sampleLevel x s := sampleEvent_lvl _ _

/-- What a step does to the signal path (R105, R184). -/
theorem sampleStep_signal (x : NUM) (s : State) :
    (sampleStep x s).run.ringS = ringWrite s.run.ringS s.run.n.toNat x ∧
    (sampleStep x s).run.ringP = ringWrite s.run.ringP s.run.n.toNat (x * x) ∧
    (sampleStep x s).run.ringX = ringWrite s.run.ringX s.run.n.toNat
      (x * hist (ringWrite s.run.ringS s.run.n.toNat x) s.run.n.toNat s.cfg.k) ∧
    (sampleStep x s).run.ringY = ringWrite s.run.ringY s.run.n.toNat (sampleFilter x s) ∧
    (sampleStep x s).run.w = (agcUpdate x s).run.w ∧
    (sampleStep x s).run.n = s.run.n + 1 := by
  obtain ⟨h1, h2, h3, h4, h5, h6⟩ := sampleEvent_signal (sampleLevel x s) (sampleFront x s)
  rw [sampleFront_run] at h1 h2 h3 h4 h5 h6
  exact ⟨h1, h2, h3, h4, h5, by rw [sampleStep, advance_n, h6]⟩

/-- The gain of a step, read from the state after it (41_agc.md R222). -/
theorem sampleGain_eq (x : NUM) (s : State) : sampleGain x s =
    if (sampleStep x s).run.w = 0 then .inf
    else .val ((s.agcDelay.toNat : NUM) / (sampleStep x s).run.w) := by
  rw [(sampleStep_signal x s).2.2.2.2.1]
  rfl

/-- The normalized output of a step, read from the state after it (42_filter_slicer.md R242). -/
theorem sampleNorm_eq (x : NUM) (s : State) : sampleNorm x s =
    if (sampleStep x s).run.w = 0 then .undef
    else .val (ringAt (sampleStep x s).run.ringY s.run.n.toNat *
      ((s.agcDelay.toNat : NUM) / (sampleStep x s).run.w)) := by
  rw [sampleNorm, sampleGain_eq, (sampleStep_signal x s).2.2.2.1, ringAt_ringWrite_same]
  split <;> rfl

/-- The classification on finite values, as comparisons of rationals (R243). -/
theorem classify_val (c : CfgRegs) (q o : NUM) (lvl : Level) : classify c (.val q) (.val o) lvl =
    if c.gmax < q ∨ (lvl = .none ∧ c.gre < q) then .none
    else if o < 2 / 5 then .low else if 1 / 2 < o then .high else lvl := by
  have hlo : threshLo = 2 / 5 := by simp [threshLo, Rat.mkRat_eq_div]
  have hhi : threshHi = 1 / 2 := by simp [threshHi, Rat.mkRat_eq_div]
  simp [classify, Gain.gt, NormOut.lt, NormOut.gt, hlo, hhi]

/-- What a step leaves alone: control state, configuration, AGC_DELAY and the ports but the output
stream. -/
theorem sampleStep_control (x : NUM) (s : State) :
    (sampleStep x s).mode = s.mode ∧ (sampleStep x s).err = s.err ∧
    (sampleStep x s).errInfo = s.errInfo ∧ (sampleStep x s).cfg = s.cfg ∧
    (sampleStep x s).agcDelay = s.agcDelay ∧ (sampleStep x s).inbox = s.inbox ∧
    (sampleStep x s).responses = s.responses := by
  obtain ⟨h1, h2, h3, h4, h5, h6, h7⟩ := sampleEvent_control (sampleLevel x s) (sampleFront x s)
  obtain ⟨k1, k2, k3, k4, k5, k6, k7⟩ := sampleFront_control x s
  exact ⟨h1.trans k1, h2.trans k2, h3.trans k3, h4.trans k4, h5.trans k5, h6.trans k6, h7.trans k7⟩

end Sys2Proof.Machine
end

