-- ==== Sys2Proof/Laws/Timer.lean ====
section
/-! SUPPORT. The accumulator: which bits a run sets and what bounds the count (43_symbol_timer.md R272,
R273, R277). -/

namespace Sys2Proof.Machine

/-- `setOnes` sets exactly the positions lo ≤ j < hi. -/
theorem getLsbD_setOnes (acc : Word32) (lo hi j : Nat) (hj : j < 32) :
    (setOnes acc lo hi).getLsbD j = (acc.getLsbD j || (decide (lo ≤ j) && decide (j < hi))) := by
  have below (k : Nat) : (BitVec.allOnes 32 <<< k).getLsbD j = !decide (j < k) := by
    rw [BitVec.getLsbD_shiftLeft, BitVec.getLsbD_allOnes]
    simp only [hj, decide_true, Bool.true_and, show j - k < 32 by omega, Bool.and_true]
  rw [setOnes, BitVec.getLsbD_or, BitVec.getLsbD_and, BitVec.getLsbD_not, below, below]
  simp only [hj, decide_true, Bool.true_and, Bool.not_not]
  rw [show decide (lo ≤ j) = !decide (j < lo) by rw [← decide_not]; simp]

theorem bumpCount_le (cnt : BitVec 5) (nb : Nat) : bumpCount cnt nb ≤ 30 := Nat.min_le_right _ _

/-- The bumped count fits CNT's 5 bits. -/
@[simp] theorem toNat_bumpCount (cnt : BitVec 5) (nb : Nat) :
    (BitVec.ofNat 5 (bumpCount cnt nb)).toNat = bumpCount cnt nb := by
  have := bumpCount_le cnt nb
  simp only [BitVec.toNat_ofNat]
  omega

/-- Within the cap a bump never lowers the count. -/
theorem le_bumpCount (cnt : BitVec 5) (nb : Nat) (h : cnt.toNat ≤ 30) :
    cnt.toNat ≤ bumpCount cnt nb := by
  unfold bumpCount bitCap
  omega

/-- A register holds no bit at or above position k exactly when it is below 2^k. -/
theorem lt_two_pow_iff (r : Word32) (k : Nat) :
    r.toNat < 2 ^ k ↔ ∀ j, k ≤ j → j < 32 → r.getLsbD j = false := by
  constructor
  · intro h j hk _
    exact Nat.testBit_lt_two_pow (Nat.lt_of_lt_of_le h (Nat.pow_le_pow_right (by omega) hk))
  · intro h
    refine Nat.lt_pow_two_of_testBit _ fun j hj => ?_
    by_cases h32 : j < 32
    · exact h j hj h32
    · exact Nat.testBit_lt_two_pow (Nat.lt_of_lt_of_le r.isLt (Nat.pow_le_pow_right (by omega) (by omega)))

end Sys2Proof.Machine
end

