-- ==== Sys2Proof/Laws/Window.lean ====
section
/-! SUPPORT. The naive window sum over the ring P (41_agc.md R221). -/

namespace Sys2Proof.Machine

/-- After START every window sum is 0 (10_state.md R86). -/
theorem windowSum_replicate_zero (n d : Nat) :
    windowSum (Vector.replicate Config.histCap 0) n d = 0 := by
  induction d with
  | zero => rfl
  | succ d ih => simp [windowSum, ih]

/-- The window one longer, seen from the next index, is the old window and the newest power. -/
theorem windowSum_ringWrite (p : Ring) (n d : Nat) (v : NUM) (hd : d < 256) :
    windowSum (ringWrite p n v) (n + 1) (d + 1) = windowSum p n d + v := by
  induction d with
  | zero => simp [windowSum, hist_succ]
  | succ d ih =>
    rw [windowSum, ih (by omega), hist_succ, hist_ringWrite_lag _ _ _ _ (by omega) hd, windowSum]
    ring

end Sys2Proof.Machine
end

