-- ==== Sys2Proof/Tests/Slice0.lean ====
section
/-! SUPPORT. The model's own tests: the WellFormed smoke test, decoding of words written out from the
spec's encoding, the vectors of 95_test_vectors.md one step at a time, and for every statement with
hypotheses a witness that meets them. -/

open Sys2Proof Sys2Proof.Machine

/-! ### WellFormed (30_encoding.md R133): an ill-formed term for each check -/

theorem test_wf_nop_addr : (Instr.nop 0x01#8 0#64).wf = false := by decide
theorem test_wf_nop_data : (Instr.nop 0x00#8 1#64).wf = false := by decide
theorem test_wf_ctrl_dropped_bits : (Instr.cfgWrite 0x00#8 0x40#64).wf = false := by decide
theorem test_wf_rate_dropped_bits : (Instr.cfgWrite 0x01#8 0x100000000#64).wf = false := by decide
theorem test_wf_baud_dropped_bits : (Instr.cfgWrite 0x02#8 0x100000000#64).wf = false := by decide
theorem test_wf_delay_dropped_bits : (Instr.cfgWrite 0x03#8 0x100000000#64).wf = false := by decide
theorem test_wf_regRead_data : (Instr.regRead 0x10#8 1#64).wf = false := by decide
theorem test_wf_start_addr : (Instr.start 0x01#8 0#64).wf = false := by decide
theorem test_wf_start_data : (Instr.start 0x00#8 1#64).wf = false := by decide
theorem test_wf_sample_addr : (Instr.sample 0x01#8 0#64).wf = false := by decide
theorem test_wf_finish_addr : (Instr.finish 0x01#8 0#64).wf = false := by decide
theorem test_wf_finish_data : (Instr.finish 0x00#8 1#64).wf = false := by decide
theorem test_wf_softReset_addr : (Instr.softReset 0x01#8 0#64).wf = false := by decide
theorem test_wf_softReset_data : (Instr.softReset 0x00#8 1#64).wf = false := by decide
theorem test_wf_accepts : (Instr.cfgWrite 0x00#8 0x3F#64).wf = true ∧
    (Instr.cfgWrite 0x03#8 0xFFFFFFFF#64).wf = true ∧
    (Instr.cfgWrite 0x0E#8 0xFFFFFFFFFFFFFFFF#64).wf = true ∧
    (Instr.sample 0x00#8 0xBFF0000000000000#64).wf = true := by decide

/-! ### Decoding: words written out bit by bit, OP in bits 15..8 and ADDR in bits 7..0 (R130, R132) -/

theorem test_decode_nop : decode ⟨0b0000000000000000#16, 7#64⟩ = .instr (.nop 0x00#8 7#64) := by decide
/-- 95_test_vectors.md, V-HOST-3: CFG_WRITE BAUD_RATE is 0x0102. -/
theorem test_decode_cfgWrite :
    decode ⟨0b0000000100000010#16, 0x100000001#64⟩ = .instr (.cfgWrite 0x02#8 0x100000001#64) := by decide
/-- V-HOST-1: REG_READ STATUS is 0x0210. -/
theorem test_decode_regRead : decode ⟨0b0000001000010000#16, 0#64⟩ = .instr (.regRead 0x10#8 0#64) := by
  decide
theorem test_decode_start : decode ⟨0b0000001100000000#16, 0#64⟩ = .instr (.start 0x00#8 0#64) := by decide
/-- R164: SAMPLE -1.0 is CW 0x0400, DATA 0xBFF0000000000000. -/
theorem test_decode_sample :
    decode ⟨0b0000010000000000#16, 0xBFF0000000000000#64⟩ =
      .instr (.sample 0x00#8 0xBFF0000000000000#64) := by decide
theorem test_decode_finish : decode ⟨0b0000010100000000#16, 0#64⟩ = .instr (.finish 0x00#8 0#64) := by decide
theorem test_decode_softReset :
    decode ⟨0b0000011011111111#16, 0#64⟩ = .instr (.softReset 0xFF#8 0#64) := by decide
theorem test_decode_reserved_first : decode ⟨0b0000011100000000#16, 0#64⟩ = .reserved 0x0700#16 := by decide
theorem test_decode_reserved_last : decode ⟨0b1111111111111111#16, 0#64⟩ = .reserved 0xFFFF#16 := by decide
theorem test_tableWord_cw : decodeTableWord 16 0x0102 = some (.cfgWrite 0x02#8 0#64) := by decide
theorem test_tableWord_reserved : decodeTableWord 16 0x0700 = none := by decide
theorem test_fetchWord_runs_as_first :
    step (State.reset.withFetchWord 16 0x0000) = .next State.reset := by rfl

/-! ### Small states -/

/-- The ring of zeros. -/
abbrev zeros : Ring := Vector.replicate Config.histCap 0

/-- Test configuration T1 of 95_test_vectors.md with a CTRL value. -/
def t1Cfg (ctrl : BitVec 6) : CfgRegs :=
  { CfgRegs.reset with
    ctrl := ctrl, sampleRate := 2, baudRate := 1, delayK := 1,
    gainMax := 0x4010000000000000, gainReacq := 0x3FF8000000000000, filtB0 := 0x3FF0000000000000 }

/-- IDLE with two rates and a lag, everything else as after reset. -/
def ratesState (sr br k : Word32) : State :=
  { State.reset with cfg := { CfgRegs.reset with sampleRate := sr, baudRate := br, delayK := k } }

/-- Program P1 before the SAMPLE at n = 25: the two samples of TONE L, 2 are −1 and +1 and the frame of
0x41 is in the accumulator. -/
def p1Before : State :=
  { State.reset with
    mode := .run, cfg := t1Cfg 0x0A#6, agcDelay := 2
    run := { RunState.reset with
      ringS := ringWrite (ringWrite zeros 23 (-1)) 24 1
      ringP := ringWrite (ringWrite zeros 23 1) 24 1
      ringX := ringWrite (ringWrite zeros 23 (-1)) 24 (-1)
      ringY := ringWrite (ringWrite zeros 23 (-1)) 24 (-1)
      w := 2, lvl := .low, n := 25, rs := 23, acc := 0x682, cnt := 11 } }

/-- A run in the middle of a DATA block of 5 words, with a file and a capture interval open and a SAMPLE
1.0 waiting. -/
def inBlock : State :=
  { p1Before with
    cfg := t1Cfg 0x0B#6
    inbox := [⟨0x0400#16, 0x3FF0000000000000#64⟩]
    run := { p1Before.run with
      pst := .readData, bt := .data, bl := 5, bc := 0x1244, hc := 4, pcnt := 3, pb := [(1, 0x10#8)]
      fopen := true, capopen := true } }

/-- A parser state at the start of a block's payload. -/
def atPayload (bt : BlockType) (bl : BitVec 14) (bc : Half) (fopen : Bool) : State :=
  { State.reset with
    mode := .run, cfg := t1Cfg 0x01#6
    run := { RunState.reset with pst := .readData, bt := bt, bl := bl, bc := bc, fopen := fopen } }

/-! ### One step of each instruction -/

/-- V-HOST-2. -/
theorem test_nop : exec (.nop 0x00#8 0xFFFFFFFFFFFFFFFF#64) State.reset = .next State.reset := rfl

/-- V-HOST-3: CTRL keeps 6 bits. -/
theorem test_cfgWrite_ctrl : exec (.cfgWrite 0x00#8 0xFFFF#64) State.reset =
    .next { State.reset with cfg := { CfgRegs.reset with ctrl := 0x3F#6 } } := rfl
/-- V-ERR-2. -/
theorem test_cfgWrite_illegal_addr : exec (.cfgWrite 0x0F#8 5#64) State.reset =
    .next { State.reset with err := 0x02#8, errInfo := 0x010F#64 } := rfl

/-- V-HOST-1. -/
theorem test_regRead_status : exec (.regRead 0x10#8 0#64) State.reset =
    .next { State.reset with responses := [0x0000000000000008#64] } := rfl
/-- V-ERR-3. -/
theorem test_regRead_illegal_addr : exec (.regRead 0x19#8 0#64) State.reset =
    .next { State.reset with err := 0x02#8, errInfo := 0x0219#64, responses := [0#64] } := rfl

/-- V-HOST-4: 44100 / 1200 rounds to 37. -/
theorem test_start_agcDelay : ∃ t, exec (.start 0x00#8 0#64) (ratesState 44100 1200 10) = .next t ∧
    t.agcDelay = 37#32 ∧ t.status = 0x0009#64 := by
  refine ⟨beginRun (ratesState 44100 1200 10), ?_, by decide +kernel, by decide +kernel⟩
  rw [exec, execStart, if_neg (by decide), show startError (ratesState 44100 1200 10).cfg = none by
    decide +kernel]
/-- V-ERR-9. -/
theorem test_start_capacity : exec (.start 0x00#8 0#64) (ratesState 44100 1200 256) =
    .next { ratesState 44100 1200 256 with err := 0x12#8, errInfo := 0x03#64 } := by
  rw [exec, execStart, if_neg (by decide),
    show startError (ratesState 44100 1200 256).cfg = some (.cfgCapacity, 0x03#64) by decide +kernel]
  rfl

/-- P1, the SAMPLE at n = 25: it ends a LOW run, flushes the frame 0x682 and emits BYTE 0x41. -/
theorem test_sample_p1 : (sampleStep (f64 0x3FF0000000000000#64) p1Before).records =
    [.run 23#64 .low 2#64 .high, .byte 0x41#8] := by decide +kernel
/-- V-ERR-14: +infinity. -/
theorem test_sample_infinity :
    exec (.sample 0x00#8 0x7FF0000000000000#64) { State.reset with mode := .run } =
      .next { State.reset with mode := .fault, err := 0x20#8, errInfo := 0#64 } := rfl

/-- V-HOST-8. -/
theorem test_finish_closes : exec (.finish 0x00#8 0#64)
    { State.reset with mode := .run, run := { RunState.reset with fopen := true, capopen := true } } =
      .next { State.reset with mode := .done, records := [.fileClose, .captureClose] } := rfl
/-- P4, command 10's kind: refused outside RUN. -/
theorem test_finish_illegal_state : exec (.finish 0x00#8 0#64) State.reset =
    .next { State.reset with err := 0x03#8, errInfo := 0x0500#64 } := rfl

/-- V-HOST-10, V-ERR-17: out of FAULT, and the configuration goes too. -/
theorem test_softReset : exec (.softReset 0x00#8 0#64)
    { State.reset with mode := .fault, err := 0x20#8, cfg := t1Cfg 0x3F#6 } = .next State.reset := rfl

/-- V-ERR-1: a reserved OP. -/
theorem test_reserved : step { State.reset with inbox := [⟨0x0700#16, 0#64⟩] } =
    .next { State.reset with err := 0x01#8, errInfo := 0x0700#64 } := rfl

/-! ### Stages (95_test_vectors.md, L2) -/

/-- V-AGC-1, n = 3: D = 3 and powers 1, 4, 0 give W = 4 after a sample 0. -/
theorem test_agc_window : (agcUpdate 0 { State.reset with agcDelay := 3, run := { RunState.reset with
    ringP := ringWrite (ringWrite zeros 0 1) 1 4, w := 5, n := 3 } }).run.w = 4 := by decide +kernel
/-- V-FILT-1, n = 1: y = x/2 + x'/4 + y'/2 with x = x' = 1 and y' = 1/2. -/
theorem test_filter : iirOutput { State.reset with
    cfg := { CfgRegs.reset with
      filtB0 := 0x3FE0000000000000, filtB1 := 0x3FD0000000000000, filtA1 := 0xBFE0000000000000 }
    run := { RunState.reset with
      ringX := ringWrite (ringWrite zeros 0 1) 1 1, ringY := ringWrite zeros 0 (1 / 2), n := 1 } } = 1 := by
  decide +kernel
/-- V-SLC-3 and V-SLC-6: 2/5 keeps HIGH, 0.3999 is LOW. -/
theorem test_slicer_threshold : classify (t1Cfg 0) (.val 1) (.val (2 / 5)) .high = .high ∧
    classify (t1Cfg 0) (.val 1) (.val (3999 / 10000)) .high = .low := by decide +kernel
/-- V-SLC-8 and V-SLC-9: GAIN_REACQ applies only in NONE. -/
theorem test_slicer_reacquire : classify (t1Cfg 0) (.val 2) (.val (9 / 10)) .none = .none ∧
    classify (t1Cfg 0) (.val 2) (.val (9 / 10)) .high = .high := by decide +kernel
/-- V-TIM-1, V-TIM-2: ties round up. -/
theorem test_nbits : ({ CfgRegs.reset with sampleRate := 3, baudRate := 1 } : CfgRegs).nbits 5 = 2 ∧
    (t1Cfg 0).nbits 3 = 2 := by decide +kernel
/-- V-TIM-3: a long HIGH run saturates at 30. -/
theorem test_highRun_cap : (highRun 40 State.reset).run.acc = 0x3FFFFFFF#32 ∧
    (highRun 40 State.reset).run.cnt = 30#5 := by decide
/-- R272 by its pseudocode on the state of its Example: bits 8 and 9 are set (log entry 14). -/
theorem test_highRun_example :
    (highRun 2 { State.reset with run := { RunState.reset with acc := 0x082#32, cnt := 8#5 } }).run.acc
      = 0x382#32 := by decide
/-- V-TIM-4: the frame of a leader is flushed by the LOW run and dropped. -/
theorem test_lowRun_flush : lowRun 1 { State.reset with run := { RunState.reset with
      acc := 0x3FFFFFFF, cnt := 30 } } =
    { State.reset with run := { RunState.reset with cnt := 1 } } := rfl
/-- V-FRM-1 to V-FRM-8. -/
theorem test_framer : frameOk 0x682#32 11 = true ∧ frameByte 0x682#32 = 0x41#8 ∧
    frameOk 0x683#32 11 = false ∧ frameOk 0x682#32 10 = false ∧ frameOk 0x282#32 11 = false ∧
    frameOk 0x482#32 11 = false ∧ frameOk 0x3FFFFE82#32 30 = true ∧ frameByte 0x3FFFFE82#32 = 0x41#8 ∧
    frameByte 0x7FE#32 = 0xFF#8 ∧ frameByte 0x600#32 = 0x00#8 := by decide
/-- V-PAR-4: a DATA block whose checksum field is 4 too small. -/
theorem test_data_block_mismatch :
    (parseBytes [0x02#8, 0x80#8, 0x05#8, 0x12#8, 0x40#8, 0x00#8, 0x10#8, 0#8, 0#8, 0#8, 0#8, 0#8, 0#8, 0x12#8,
      0x34#8] State.reset).records = [.dataReport 5 0 false 0x1244 0x1240 0xFFFC] := by decide +kernel
/-- V-PAR-5: the same block with little-endian words and the right checksum. -/
theorem test_data_block_wordLe :
    (parseBytes [0x02#8, 0x05#8, 0x80#8, 0x44#8, 0x12#8, 0x10#8, 0x00#8, 0#8, 0#8, 0#8, 0#8, 0#8, 0#8, 0x34#8,
      0x12#8] { State.reset with cfg := t1Cfg 0x20#6 }).records =
      [.dataReport 5 0 true 0x1244 0x1244 0] := by decide +kernel
/-- V-PAR-2: an empty block. -/
theorem test_empty_block : (parseBytes [0x02#8, 0x80#8, 0x00#8, 0x00#8, 0x00#8] State.reset).records =
    [.blockEmpty .data] := by decide +kernel
/-- V-PAR-9, the carrier loss: the file is closed and the parser waits again. -/
theorem test_carrier_loss : (carrierLossActions inBlock).records = [.fileClose, .captureClose] ∧
    (carrierLossActions inBlock).run.pst = .waitHeader := by decide +kernel
/-- The RUN and TRACE rows of the wire-form table. -/
theorem test_wire_run : Record.wire (.run 1#64 .low 2#64 .high) =
    [0x01#8, 1#8, 0#8, 0#8, 0#8, 0#8, 0#8, 0#8, 0#8, 0#8, 2#8, 0#8, 0#8, 0#8, 0#8, 0#8, 0#8, 0#8, 1#8] := by
  decide +kernel
theorem test_wire_trace : Record.wire (.trace 1#64 (-1) (-1) (.val (-1)) (.val 1)) =
    [0x0B#8, 1#8, 0#8, 0#8, 0#8, 0#8, 0#8, 0#8, 0#8] ++ [0#8, 0#8, 0#8, 0#8, 0#8, 0#8, 0xF0#8, 0xBF#8]
      ++ [0#8, 0#8, 0#8, 0#8, 0#8, 0#8, 0xF0#8, 0xBF#8] ++ [0#8, 0#8, 0#8, 0#8, 0#8, 0#8, 0xF0#8, 0xBF#8]
      ++ [0#8, 0#8, 0#8, 0#8, 0#8, 0#8, 0xF0#8, 0x3F#8] := by decide +kernel
/-- P3: the samples of the byte 02, `-+-+++-+-+-+-+-+-+++++`, from PREV = 1. -/
theorem test_sendByte : sendByte 1 0x02#8 2 = [-1, 1, -1, 1, 1, 1, -1, 1, -1, 1, -1, 1, -1, 1, -1, 1, -1, 1,
    1, 1, 1, 1].map asmSample := by decide +kernel

/-! ### Witnesses: for every statement with hypotheses, concrete inputs that meet them together, each
clause at a boundary value -/

theorem witness_DecodeEncodeAgree : ∃ c i, decode c = .instr i := ⟨⟨0x06FF#16, 0#64⟩, _, rfl⟩

theorem witness_DecodeSelectsTheRowByMask :
    0x00FF#16 &&& 0xFF00#16 = 0x0000#16 ∧ 0x01FF#16 &&& 0xFF00#16 = 0x0100#16 ∧
    0x02FF#16 &&& 0xFF00#16 = 0x0200#16 ∧ 0x03FF#16 &&& 0xFF00#16 = 0x0300#16 ∧
    0x04FF#16 &&& 0xFF00#16 = 0x0400#16 ∧ 0x05FF#16 &&& 0xFF00#16 = 0x0500#16 ∧
    0x06FF#16 &&& 0xFF00#16 = 0x0600#16 ∧ 0x0700 ≤ (0x0700#16 : Half).toNat ∧
    0x0700 ≤ (0xFFFF#16 : Half).toNat := by decide

/-- The next command of `inBlock`. -/
theorem inBlock_next : inBlock.inbox = [⟨0x0400#16, 0x3FF0000000000000#64⟩] ∧
    decode ⟨0x0400#16, 0x3FF0000000000000#64⟩ = .instr (.sample 0x00#8 0x3FF0000000000000#64) :=
  ⟨rfl, by decide⟩

theorem witness_StepRunsTheDecodedInstruction :
    (∃ c rest i, inBlock.inbox = c :: rest ∧ decode c = .instr i) ∧ State.reset.inbox = [] ∧
    ∃ i, decodeTableWord 16 0x0600 = some i :=
  ⟨⟨_, _, _, inBlock_next.1, inBlock_next.2⟩, rfl, _, rfl⟩

/-- A state whose next command has a reserved OP, at both ends of the range. -/
def reservedNext (cw : Half) : State := { inBlock with inbox := [⟨cw, 0#64⟩] }

theorem witness_ReservedOpcodeRaisesIllegalOpcode :
    (∃ c rest, (reservedNext 0x0700#16).inbox = c :: rest ∧ 0x07 ≤ c.op.toNat) ∧
    ∃ c rest, (reservedNext 0xFFFF#16).inbox = c :: rest ∧ 0x07 ≤ c.op.toNat :=
  ⟨⟨_, _, rfl, by decide⟩, _, _, rfl, by decide⟩

theorem witness_IgnoredFieldsHaveNoEffect :
    State.reset.mode = .idle ∧ inBlock.mode = .run ∧
    (0x7F#64 : Word64).toNat % 2 ^ 6 = (0x3F#64 : Word64).toNat % 2 ^ 6 ∧
    (0x100000001#64 : Word64).toNat % 2 ^ 32 = (0x1#64 : Word64).toNat % 2 ^ 32 ∧
    1 ≤ (0x01#8 : Byte).toNat ∧ (0x03#8 : Byte).toNat ≤ 3 := by
  refine ⟨rfl, rfl, ?_⟩
  decide

/-- One state in each mode. -/
def inMode (m : Mode) : State := { State.reset with mode := m }

theorem witness_CfgWriteFollowsItsRule :
    (inMode .run).mode = .run ∧ (inMode .fault).mode = .fault ∧ (inMode .idle).mode = .idle ∧
    (inMode .done).mode = .done ∧ 0x0E < (0x0F#8 : Byte).toNat ∧ 0x0E < (0xFF#8 : Byte).toNat := by
  refine ⟨rfl, rfl, rfl, rfl, ?_⟩
  decide

theorem witness_RegReadFollowsItsRule :
    ((0x0F#8 : Byte) = 0x0F#8 ∨ 0x19 ≤ (0x0F#8 : Byte).toNat) ∧
    ((0x19#8 : Byte) = 0x0F#8 ∨ 0x19 ≤ (0x19#8 : Byte).toNat) := by decide

theorem witness_CfgWriteReadsBack :
    (inMode .done).mode = .done ∧ (0x0E#8 : Byte).toNat ≤ 0x0E ∧ (0x00#8 : Byte) ≠ 0x0E#8 :=
  ⟨rfl, by decide, by decide⟩

/-- IDLE with rates 44100 and 1200, a lag, GAIN_MAX and GAIN_REACQ. -/
def gainState (gmax gre : Word64) : State :=
  { State.reset with cfg := { CfgRegs.reset with
      sampleRate := 44100, baudRate := 1200, delayK := 255, gainMax := gmax, gainReacq := gre } }

/-- The rate clauses of START: SR = 0; BR = 0; d = 0; d = 256; k = 256. -/
theorem witness_StartFollowsItsRule_rates :
    (ratesState 0 1200 10).cfg.sampleRate.toNat = 0 ∧
    ((ratesState 44100 0 10).cfg.sampleRate.toNat ≠ 0 ∧ (ratesState 44100 0 10).cfg.baudRate.toNat = 0) ∧
    (2 * (ratesState 1 3 0).cfg.sampleRate.toNat + (ratesState 1 3 0).cfg.baudRate.toNat)
      / (2 * (ratesState 1 3 0).cfg.baudRate.toNat) = 0 ∧
    256 ≤ (2 * (ratesState 256 1 0).cfg.sampleRate.toNat + (ratesState 256 1 0).cfg.baudRate.toNat)
      / (2 * (ratesState 256 1 0).cfg.baudRate.toNat) ∧
    256 ≤ (ratesState 44100 1200 256).cfg.delayK.toNat := by decide

/-- The binary64 clauses of START: GAIN_MAX not finite, the gain bounds out of order, and in order. -/
theorem witness_StartFollowsItsRule_gains :
    finite64 (gainState 0x7FF0000000000000#64 0#64).cfg.gainMax = false ∧
    (f64 (gainState 0x3FF0000000000000#64 0x4000000000000000#64).cfg.gainMax <
      f64 (gainState 0x3FF0000000000000#64 0x4000000000000000#64).cfg.gainReacq) ∧
    (f64 (gainState 0x3FF0000000000000#64 0x3FF0000000000000#64).cfg.gainReacq ≤
      f64 (gainState 0x3FF0000000000000#64 0x3FF0000000000000#64).cfg.gainMax) := by decide +kernel

/-- A START that begins a run. -/
theorem witness_start_begins (m : Mode) (hm : m.acceptsConfig = true) :
    ∃ t, exec (.start 0x00#8 0#64) { ratesState 44100 1200 255 with mode := m } = .next t ∧
      t.mode = .run := by
  refine ⟨beginRun { ratesState 44100 1200 255 with mode := m }, ?_, rfl⟩
  have h : startError (ratesState 44100 1200 255).cfg = none := by decide +kernel
  rw [exec, execStart, if_neg (by simp [hm]),
    show startError ({ ratesState 44100 1200 255 with mode := m } : State).cfg = none from h]

theorem witness_StartForgetsThePreviousRun :
    (inMode .idle).mode ∈ [Mode.idle, .done] ∧ (inMode .done).mode ∈ [Mode.idle, .done] ∧
    (∃ t, exec (.start 0x00#8 0#64) { ratesState 44100 1200 255 with mode := .idle } = .next t ∧
      t.mode = .run) :=
  ⟨by decide, by decide, witness_start_begins .idle rfl⟩

/-- `inBlock` steps, and its next command is no SOFT_RESET. -/
theorem inBlock_steps : ¬ inBlock.nextIsSoftReset ∧ ∃ t, step inBlock = .next t := by
  refine ⟨?_, ?_⟩
  · rintro ⟨c, rest, i, h, hd, hi⟩
    rw [inBlock_next.1] at h
    injection h with h1 h2
    rw [← h1, inBlock_next.2] at hd
    injection hd with hd
    rw [← hd] at hi
    exact absurd hi (by decide)
  · obtain ⟨t, h⟩ := exec_next (.sample 0x00#8 0x3FF0000000000000#64) { inBlock with inbox := [] }
    exact ⟨t, h⟩

theorem witness_AgcDelayIsTheRoundedRatio :
    (∃ t, exec (.start 0x00#8 0#64) { ratesState 44100 1200 255 with mode := .done } = .next t ∧
      t.mode = .run) ∧
    inBlock.mode = .run ∧ ¬ inBlock.nextIsSoftReset ∧ ∃ t, step inBlock = .next t :=
  ⟨witness_start_begins .done rfl, rfl, inBlock_steps.1, inBlock_steps.2⟩

theorem witness_FinishFollowsItsRule : (inMode .idle).mode ≠ .run ∧ inBlock.mode = .run :=
  ⟨by decide, rfl⟩

theorem witness_ModesFollowTheTable :
    illegalIn (.finish 0x00#8 0#64) (inMode .idle).mode = true ∧
    illegalIn (.nop 0x00#8 0#64) (inMode .idle).mode = false ∧
    (∃ t, exec (.finish 0x00#8 0#64) (inMode .idle) = .next t) ∧
    (illegalIn (.start 0x00#8 0#64) State.reset.mode = false ∧
      ∃ t, exec (.start 0x00#8 0#64) State.reset = .next t ∧ t.mode = .idle) ∧
    ∃ t, step (reservedNext 0x0700#16) = .next t :=
  ⟨by decide, by decide, exec_next _ _, ⟨by decide, _, rfl, rfl⟩, _, rfl⟩

/-- ErrorsArePrecise: a command to which an error applies and one to which none does. -/
theorem witness_ErrorsArePrecise :
    (Raises State.reset (.regRead 0x19#8 0#64) 0x02#8 0x0219#64 .idle ∧
      ∃ t, exec (.regRead 0x19#8 0#64) State.reset = .next t ∧ t.responses = [0#64]) ∧
    (∀ code info mode, ¬ Raises State.reset (.nop 0x00#8 0#64) code info mode) ∧
    ∃ t, exec (.nop 0x00#8 0#64) State.reset = .next t :=
  ⟨⟨.readAddr 0x19#8 0#64 (.inr (by decide)), _, rfl, rfl⟩, fun _ _ _ h => (nomatch h), _, rfl⟩

theorem witness_FaultIsLeftOnlyByReset :
    ((inMode .fault).mode = .fault ∧ ¬ (inMode .fault).nextIsSoftReset ∧
      ∃ t, step (inMode .fault) = .next t) ∧
    (∃ s t : State, s.mode ≠ .fault ∧ step s = .next t ∧ t.mode = .fault) ∧
    ∃ t, exec (.sample 0x00#8 0#64) (inMode .fault) = .next t := by
  refine ⟨⟨rfl, ?_, _, rfl⟩, ⟨{ inMode .run with inbox := [⟨0x0400#16, 0x7FF0000000000000#64⟩] }, _, ?_, rfl,
    rfl⟩, exec_next _ _⟩
  · rintro ⟨c, rest, i, h, -⟩
    cases h
  · decide

theorem witness_ConfigurationIsLockedDuringRun :
    inBlock.mode = .run ∧ ¬ inBlock.nextIsSoftReset ∧ ∃ t, step inBlock = .next t :=
  ⟨rfl, inBlock_steps.1, inBlock_steps.2⟩

theorem witness_OutputStreamOnlyGrows : ∃ t, step inBlock = .next t := inBlock_steps.2

/-- A run whose next sample would have the last index. -/
def lastIndex : State :=
  { State.reset with mode := .run, run := { RunState.reset with n := 0xFFFFFFFFFFFFFFFF#64 } }

theorem witness_SampleErrorsInOrder :
    (inMode .idle).mode ≠ .run ∧
    ((inMode .run).mode = .run ∧ (0xFFF0000000000000#64 : Word64).extractLsb' 52 11 = 0x7FF#11) ∧
    (lastIndex.mode = .run ∧ (0x7FEFFFFFFFFFFFFF#64 : Word64).extractLsb' 52 11 ≠ 0x7FF#11 ∧
      lastIndex.run.n = 0xFFFFFFFFFFFFFFFF#64) :=
  ⟨by decide, ⟨rfl, by decide⟩, rfl, by decide, rfl⟩

/-- A run one sample before the last index. -/
def lastButOne : State :=
  { State.reset with
    mode := .run, cfg := t1Cfg 0x04#6, agcDelay := 2
    run := { RunState.reset with n := 0xFFFFFFFFFFFFFFFE#64 } }

/-- An accepted SAMPLE: the hypotheses of SampleUpdatesTheAgcWindow, SampleFiltersTheProduct,
SampleClassifiesTheTone, SampleEmitsTraceThenRun, SampleRunsTheLevelChange and SampleFrame, with the
largest finite sample and the last index that is accepted. -/
theorem witness_accepted_sample :
    lastButOne.mode = .run ∧ finite64 0x7FEFFFFFFFFFFFFF#64 = true ∧
    lastButOne.run.n ≠ 0xFFFFFFFFFFFFFFFF#64 := ⟨rfl, by decide, by decide⟩

/-- The clauses of SampleClassifiesTheTone: lost by W = 0, LOW, HIGH, and the band. -/
theorem witness_SampleClassifiesTheTone :
    (sampleStep 0 (inMode .run)).run.w = 0 ∧
    (sampleStep (-1) p1Before).run.w = 2 ∧ ringAt (sampleStep (-1) p1Before).run.ringY 25 = -1 ∧
    (sampleStep 1 p1Before).run.w = 2 ∧ ringAt (sampleStep 1 p1Before).run.ringY 25 = 1 ∧
    (sampleStep 2 p1Before).run.w = 5 ∧ ringAt (sampleStep 2 p1Before).run.ringY 25 * (2 / 5) = 4 / 5 ∧
    (sampleStep (1 / 2) p1Before).run.w = 5 / 4 ∧
    ringAt (sampleStep (1 / 3) p1Before).run.ringY 25 * (2 / (10 / 9)) = 3 / 5 ∧
    ringAt (sampleStep (1 / 4) p1Before).run.ringY 25 * (2 / (17 / 16)) = 8 / 17 ∧
    (sampleStep (1 / 4) p1Before).run.lvl = .low := by decide +kernel

/-- A level that stays and one that changes (SampleEmitsTraceThenRun, SampleRunsTheLevelChange,
SampleFrame), and the parser states of SampleFrame. -/
theorem witness_sample_levels :
    (sampleStep (-1) p1Before).run.lvl = p1Before.run.lvl ∧
    (sampleStep 1 p1Before).run.lvl ≠ p1Before.run.lvl ∧
    p1Before.run.pst ≠ .readHeader ∧ p1Before.run.pst ≠ .readData := by decide +kernel

theorem witness_SampleCapturesAtMostOneByte :
    ∃ t, exec (.sample 0x00#8 0x3FF0000000000000#64) p1Before = .next t := exec_next _ _

/-- A state and the same state of a recording twice as loud. -/
theorem witness_NormalizedOutputIsScaleInvariant : (2 : NUM) ≠ 0 ∧
    Scaled 2
      { State.reset with run := { RunState.reset with ringS := ringWrite zeros 0 1, w := 1, n := 1 } }
      { State.reset with run := { RunState.reset with ringS := ringWrite zeros 0 2, w := 4, n := 1 } } := by
  refine ⟨by decide +kernel, rfl, rfl, rfl, rfl, fun m => ?_, fun m => ?_, fun m => ?_, fun m => ?_,
    by decide +kernel⟩
  · show ringAt (ringWrite zeros 0 2) m = 2 * ringAt (ringWrite zeros 0 1) m
    rw [ringAt_ringWrite, ringAt_ringWrite]
    split <;> simp
  all_goals simp [RunState.reset]

theorem witness_LevelChangeRunsTheSymbolTimer : Level.high ≠ .none ∧ Level.none = .none := by decide

theorem witness_NbitsRoundsHalfUp : (t1Cfg 0).sampleRate ≠ 0#32 := by decide

theorem witness_HighRunSetsOnes : (0 : Nat) < 32 ∧ (31 : Nat) < 32 := by decide

theorem witness_LowRunFlushesAtTheFrameBoundary :
    (9#5 : BitVec 5).toNat < 10 ∧ 10 ≤ (10#5 : BitVec 5).toNat ∧ 10 ≤ p1Before.run.cnt.toNat := by
  refine ⟨by decide, by decide, ?_⟩
  show 10 ≤ (11#5 : BitVec 5).toNat
  decide

theorem witness_CarrierLossClosesAndResets :
    (t1Cfg 0x10#6).ctrl.getLsbD 4 = true ∧ inBlock.cfg.ctrl.getLsbD 4 = false := by decide

/-- Each clause of the framer: the frame of 0x41, and one frame for each check it can fail. -/
theorem witness_FramerFollowsItsRule :
    ((0x682#32 : Word32).getLsbD 0 = false ∧ 11 ≤ 11 ∧ (0x682#32 : Word32).getLsbD 9 = true ∧
      (0x682#32 : Word32).getLsbD 10 = true) ∧
    (0x683#32 : Word32).getLsbD 0 = true ∧ 10 < 11 ∧ (0x482#32 : Word32).getLsbD 9 = false ∧
    (0x282#32 : Word32).getLsbD 10 = false := by decide

theorem witness_FramedByteIsRecovered : (11 : Nat) ≤ 11 := by decide

theorem witness_FrameBitsAccumulateToTheByte :
    State.reset.run.acc = 0#32 ∧ State.reset.run.cnt = 0#5 := ⟨rfl, rfl⟩

/-- HeaderIsDecoded: the empty block, and the longest one. -/
theorem witness_HeaderIsDecoded : State.reset.run.pst = .waitHeader ∧ (0x41#8 : Byte) ≠ 0x02#8 ∧
    (if State.reset.cfg.ctrl.getLsbD 5 then 0x00#8 ++ 0x80#8 else 0x80#8 ++ 0x00#8 : Half).extractLsb' 0 14
      = 0#14 ∧
    (if State.reset.cfg.ctrl.getLsbD 5 then 0xFF#8 ++ 0xBF#8 else 0xBF#8 ++ 0xFF#8 : Half).extractLsb' 0 14
      = 16383#14 :=
  ⟨rfl, by decide, by decide, by decide⟩

/-- The start of a payload of 5 words (DATA with a file open), the shortest that is appended, and of 4
words, the longest that is not. -/
theorem witness_DataBlockIsCheckedAndAppended :
    (atPayload .data 5 0x1244 true).BufferInv ∧
    (atPayload .data 5 0x1244 true).run.pst = .readData ∧
    (atPayload .data 5 0x1244 true).run.pcnt = 0#15 ∧ (atPayload .data 5 0x1244 true).run.bt = .data ∧
    (atPayload .data 5 0x1244 true).run.bl ≠ 0#14 ∧
    (List.replicate 10 0x12#8 : List Byte).length = 2 * (atPayload .data 5 0x1244 true).run.bl.toNat ∧
    (atPayload .data 4 0x1244 true).BufferInv ∧
    (atPayload .data 4 0x1244 true).run.bl ≠ 0#14 ∧
    (List.replicate 8 0x12#8 : List Byte).length = 2 * (atPayload .data 4 0x1244 true).run.bl.toNat :=
  ⟨⟨rfl, by simp [atPayload, RunState.reset]⟩, rfl, rfl, rfl, (by decide : (5#14 : BitVec 14) ≠ 0#14), rfl,
    ⟨rfl, by simp [atPayload, RunState.reset]⟩, (by decide : (4#14 : BitVec 14) ≠ 0#14), rfl⟩

theorem witness_TitleBlockReplacesTheFile :
    (atPayload .title 1 0 true).BufferInv ∧ (atPayload .title 1 0 true).run.pst = .readData ∧
    (atPayload .title 1 0 true).run.pcnt = 0#15 ∧ (atPayload .title 1 0 true).run.bt = .title ∧
    (atPayload .title 1 0 true).run.bl ≠ 0#14 ∧
    ([0x41#8, 0x42#8] : List Byte).length = 2 * (atPayload .title 1 0 true).run.bl.toNat :=
  ⟨⟨rfl, by simp [atPayload, RunState.reset]⟩, rfl, rfl, rfl, (by decide : (1#14 : BitVec 14) ≠ 0#14), rfl⟩

theorem witness_ReservedAndEndBlocksReport :
    (atPayload .reserved 1 0 true).run.pst = .readData ∧ (atPayload .reserved 1 0 true).run.pcnt = 0#15 ∧
    (atPayload .reserved 1 0 true).run.bl ≠ 0#14 ∧
    (atPayload .reserved 1 0 true).run.bt = .reserved ∧ (atPayload .endBlock 1 0 true).run.bt = .endBlock ∧
    ([0xAB#8, 0xCD#8] : List Byte).length = 2 * (atPayload .endBlock 1 0 true).run.bl.toNat :=
  ⟨rfl, rfl, (by decide : (1#14 : BitVec 14) ≠ 0#14), rfl, rfl, rfl⟩

/-! The invariants, on `inBlock`, which also steps. -/

theorem witness_ParserResynchronizes :
    inBlock.ParserInv ∧ 4 + 2 * 16383 ≤ (List.replicate 32770 0x00#8 : List Byte).length := by
  refine ⟨⟨?_, ?_, ?_, ?_⟩, Nat.le_of_eq (List.length_replicate (n := 32770)).symm⟩
  · show (4#3 : BitVec 3).toNat ≤ 4
    decide
  · show (3#15 : BitVec 15).toNat ≤ 32766
    decide
  · intro h
    cases h
  · intro _
    show (3#15 : BitVec 15).toNat < 2 * (5#14 : BitVec 14).toNat
    decide

theorem witness_FileRecordsAlternate :
    inBlock.FileInv ∧ ¬ inBlock.nextIsSoftReset ∧ ∃ t, step inBlock = .next t :=
  ⟨⟨fun _ => ⟨by decide, rfl⟩, fun _ => ⟨by decide, rfl⟩⟩, inBlock_steps⟩

theorem witness_StepKeepsTheWindowSum : inBlock.WindowInv ∧ ∃ t, step inBlock = .next t :=
  ⟨⟨(by decide : (2#32 : Word32).toNat < 256), by decide +kernel⟩, inBlock_steps.2⟩

/-- Every power of `inBlock` is a square. -/
theorem inBlock_powers : inBlock.PowerInv := fun m => by
  show ringAt (ringWrite (ringWrite zeros 23 1) 24 1) m =
    ringAt (ringWrite (ringWrite zeros 23 (-1)) 24 1) m * ringAt (ringWrite (ringWrite zeros 23 (-1)) 24 1) m
  simp only [ringAt_ringWrite]
  split
  · simp
  · split <;> simp

theorem witness_WindowSumIsZeroExactlyInSilence : inBlock.WindowInv ∧ inBlock.PowerInv :=
  ⟨witness_StepKeepsTheWindowSum.1, inBlock_powers⟩

theorem witness_StepKeepsPowersAndIndices :
    inBlock.PowerInv ∧ inBlock.IndexInv ∧ ∃ t, step inBlock = .next t := by
  refine ⟨inBlock_powers, ⟨?_, fun _ => ?_⟩, inBlock_steps.2⟩
  · show (23#64 : Word64).toNat ≤ (25#64 : Word64).toNat
    decide
  · show (23#64 : Word64).toNat < (25#64 : Word64).toNat
    decide

theorem witness_StepKeepsTheAccumulatorBounds : inBlock.TimerInv ∧ ∃ t, step inBlock = .next t := by
  refine ⟨⟨?_, ?_, fun h => ?_⟩, inBlock_steps.2⟩
  · show (11#5 : BitVec 5).toNat ≤ 30
    decide
  · show (0x682#32 : Word32).toNat < 2 ^ (11#5 : BitVec 5).toNat
    decide
  · cases h

theorem witness_StepKeepsTheParserCounts : inBlock.ParserInv ∧ ∃ t, step inBlock = .next t :=
  ⟨witness_ParserResynchronizes.1, inBlock_steps.2⟩

theorem witness_StepKeepsTheBufferCanonical : inBlock.BufferInv ∧ ∃ t, step inBlock = .next t := by
  refine ⟨⟨rfl, fun c hc => ?_⟩, inBlock_steps.2⟩
  have h : c = (1, 0x10#8) := by simpa [inBlock] using hc
  rw [h]
  decide

theorem witness_StepKeepsTheFileFlags : inBlock.FileInv ∧ ∃ t, step inBlock = .next t :=
  ⟨witness_FileRecordsAlternate.1, inBlock_steps.2⟩

theorem witness_StepKeepsTheCheckedConfiguration : inBlock.ConfigInv ∧ ∃ t, step inBlock = .next t :=
  ⟨fun _ => ⟨by decide +kernel, by decide +kernel⟩, inBlock_steps.2⟩

theorem witness_StepKeepsTheErrorCodes : inBlock.ErrorInv ∧ ∃ t, step inBlock = .next t :=
  ⟨⟨.inl rfl, fun _ => rfl, fun h => by cases h⟩, inBlock_steps.2⟩

/-- The least positive subnormal and the largest finite number. -/
theorem witness_RoundingKeepsBinary64Values :
    finite64 0x0000000000000001#64 = true ∧ (0x0000000000000001#64 : Word64) ≠ 0x8000000000000000#64 ∧
    finite64 0x7FEFFFFFFFFFFFFF#64 = true := by decide

theorem witness_WireFormIsUniquelyReadable :
    (Record.fileOpen [0x41#8, 0x42#8]).wireExact = true ∧ Record.fileClose.wireExact = true ∧
    Record.wire (.fileOpen [0x41#8, 0x42#8]) ++ Record.wire .fileClose =
      Record.wire (.fileOpen [0x41#8, 0x42#8]) ++ Record.wire .fileClose := ⟨by decide, rfl, rfl⟩

theorem witness_SendByteExpandsToSamples : (0 : Nat) < 11 * 1 ∧ asmSample (-1) ∈ sendByte 1 0x00#8 1 :=
  ⟨by decide, List.mem_append_left _ (List.mem_cons_self (l := toneLow (-1) 0))⟩
end

section
/-! SUPPORT. Rounding to binary64 (00_scope.md R11, 30_encoding.md R156): a finite pattern as significand
and shift, what the rounding does to a magnitude that is a binary64 number, and O57. -/

namespace Sys2Proof.Machine

/-! ### The fields of a pattern -/

/-- The significand of a pattern as an integer, with the hidden bit where the pattern is normal. -/
def f64Significand (b : Word64) : Nat := if f64Exp b = 0 then f64Frac b else 2 ^ 52 + f64Frac b

/-- How far the significand stands above the unit 2^-1074 of the subnormal numbers. -/
def f64Shift (b : Word64) : Nat := f64Exp b - 1

theorem f64Frac_lt (b : Word64) : f64Frac b < 2 ^ 52 := (b.extractLsb' 0 52).isLt

theorem f64Significand_lt (b : Word64) : f64Significand b < 2 ^ 53 := by
  have hfrac := f64Frac_lt b
  unfold f64Significand
  split <;> omega

/-- A shifted significand has the hidden bit: only a subnormal number is without it. -/
theorem f64Shift_eq_zero_or_hidden_bit (b : Word64) : f64Shift b = 0 ∨ 2 ^ 52 ≤ f64Significand b := by
  unfold f64Shift f64Significand
  split <;> omega

theorem f64Shift_le_of_finite64 {b : Word64} (hb : finite64 b = true) : f64Shift b ≤ 2045 := by
  have hexp : f64Exp b < 2 ^ 11 := (b.extractLsb' 52 11).isLt
  have hne : f64Exp b ≠ 2047 := by simpa [finite64] using hb
  unfold f64Shift
  omega

theorem toNat_eq_sign_exp_frac (b : Word64) :
    b.toNat = (if b.getLsbD 63 then 2 ^ 63 else 0) + f64Exp b * 2 ^ 52 + f64Frac b := by
  have hlt := b.isLt
  have hsign : b.getLsbD 63 = decide (b.toNat / 2 ^ 63 = 1) := by
    rw [BitVec.getLsbD, Nat.testBit_eq_decide_div_mod_eq, Nat.mod_eq_of_lt (by omega)]
  simp only [hsign, decide_eq_true_eq, f64Exp, f64Frac, BitVec.extractLsb'_toNat, Nat.shiftRight_eq_div_pow]
  split <;> omega

/-- The hidden bit carries into the exponent field, so that the sum of shift and significand is the
pattern of normal and subnormal numbers alike. -/
theorem toNat_eq_sign_shift_significand (b : Word64) :
    b.toNat = (if b.getLsbD 63 then 2 ^ 63 else 0) + (f64Shift b * 2 ^ 52 + f64Significand b) := by
  rw [toNat_eq_sign_exp_frac, Nat.add_assoc, Nat.add_left_cancel_iff]
  unfold f64Shift f64Significand
  split <;> omega

/-- A fraction with a power of two below the line, as a scaled integer. -/
theorem mkRat_two_pow (m n : Nat) : mkRat m (2 ^ n) = m * (2 : ℚ) ^ (-n : ℤ) := by
  rw [Rat.mkRat_eq_div, zpow_neg, zpow_natCast, div_eq_mul_inv, Int.cast_natCast, Nat.cast_pow,
    Nat.cast_ofNat]

/-- The magnitude of a finite pattern, normal or subnormal, is its significand times 2^(shift - 1074). -/
theorem f64Magnitude_eq (b : Word64) :
    f64Magnitude b = f64Significand b * (2 : ℚ) ^ ((f64Shift b : ℤ) - 1074) := by
  unfold f64Magnitude f64Significand f64Shift
  split
  · rw [mkRat_two_pow]
    congr 2
    omega
  · split
    · rw [mkRat_two_pow]
      congr 2
      omega
    · have hexp : ((f64Exp b - 1 : ℕ) : ℤ) - 1074 = (f64Exp b - 1075 : ℕ) := by omega
      rw [hexp, zpow_natCast, Rat.mkRat_one, Int.cast_natCast, Nat.cast_mul, Nat.cast_pow, Nat.cast_ofNat]

theorem f64Magnitude_nonneg (b : Word64) : 0 ≤ f64Magnitude b := by
  rw [f64Magnitude_eq]
  positivity

theorem f64Magnitude_eq_zero_iff (b : Word64) : f64Magnitude b = 0 ↔ f64Significand b = 0 := by
  simp [f64Magnitude_eq, zpow_ne_zero]

/-! ### The exponent of a magnitude -/

/-- The test of `binaryExponent`: with a sign-split exponent it compares 2^e with a / d. -/
theorem binaryExponent_test_iff (a : Nat) {d : Nat} (hd : 0 < d) (e : ℤ) :
    (if 0 ≤ e then d * 2 ^ e.toNat ≤ a else d ≤ a * 2 ^ (-e).toNat) ↔ (2 : ℚ) ^ e ≤ a / d := by
  have hdq : (0 : ℚ) < d := by exact_mod_cast hd
  rw [le_div_iff₀ hdq]
  split
  · next he =>
    obtain ⟨n, rfl⟩ := Int.eq_ofNat_of_zero_le he
    rw [zpow_natCast, mul_comm]
    exact_mod_cast Iff.rfl
  · next he =>
    obtain ⟨n, rfl⟩ : ∃ n : ℕ, e = -n := ⟨e.natAbs, by omega⟩
    rw [zpow_neg, zpow_natCast, inv_mul_le_iff₀ (by positivity), neg_neg, Int.toNat_natCast, mul_comm]
    exact_mod_cast Iff.rfl

/-- Bit lengths bound a quotient up to a factor of two on either side. -/
theorem zpow_log2_sub_bounds {a d : Nat} (ha : 0 < a) (hd : 0 < d) :
    (2 : ℚ) ^ ((a.log2 : ℤ) - d.log2 - 1) ≤ a / d ∧ (a / d : ℚ) < 2 ^ ((a.log2 : ℤ) - d.log2 + 1) := by
  have hdq : (0 : ℚ) < d := by exact_mod_cast hd
  have ha_lo : (2 : ℚ) ^ a.log2 ≤ a := by exact_mod_cast Nat.log2_self_le ha.ne'
  have ha_hi : (a : ℚ) < 2 ^ (a.log2 + 1) := by exact_mod_cast Nat.lt_log2_self
  have hd_lo : (2 : ℚ) ^ d.log2 ≤ d := by exact_mod_cast Nat.log2_self_le hd.ne'
  have hd_hi : (d : ℚ) < 2 ^ (d.log2 + 1) := by exact_mod_cast Nat.lt_log2_self
  constructor
  · calc (2 : ℚ) ^ ((a.log2 : ℤ) - d.log2 - 1)
        = 2 ^ a.log2 / 2 ^ (d.log2 + 1) := by
          rw [← zpow_natCast, ← zpow_natCast, ← zpow_sub₀ two_ne_zero]; congr 1; omega
      _ ≤ a / d := by gcongr
  · calc (a / d : ℚ) < 2 ^ (a.log2 + 1) / 2 ^ d.log2 := by gcongr
      _ = 2 ^ ((a.log2 : ℤ) - d.log2 + 1) := by
          rw [← zpow_natCast, ← zpow_natCast, ← zpow_sub₀ two_ne_zero]; congr 1; omega

/-- `binaryExponent` is the integer logarithm of the quotient: the bit lengths leave two candidates, and
the test chooses between them. -/
theorem binaryExponent_eq_log {a d : Nat} (ha : 0 < a) (hd : 0 < d) :
    binaryExponent a d = Int.log 2 (a / d : ℚ) := by
  have hq : (0 : ℚ) < a / d := by positivity
  obtain ⟨hlo, hhi⟩ := zpow_log2_sub_bounds ha hd
  replace hlo := (Int.zpow_le_iff_le_log one_lt_two hq).1 hlo
  replace hhi := (Int.lt_zpow_iff_log_lt one_lt_two hq).1 hhi
  have htest := (binaryExponent_test_iff a hd (a.log2 - d.log2)).trans
    (Int.zpow_le_iff_le_log one_lt_two hq)
  simp only [binaryExponent, htest]
  split <;> omega

/-! ### Rounding a magnitude that is a binary64 number -/

/-- An exact quotient is not rounded. -/
theorem divHalfEven_mul_self (m : Nat) {q : Nat} (hq : 0 < q) : divHalfEven (m * q) q = m := by
  simp [divHalfEven, hq]

/-- A multiple of the unit 2^u, counted in that unit, is not rounded. -/
theorem divHalfEven_scaled {a d m : Nat} {u : ℤ} (hd : 0 < d) (hval : (a / d : ℚ) = m * 2 ^ u) :
    (if 0 ≤ u then divHalfEven a (d * 2 ^ u.toNat) else divHalfEven (a * 2 ^ (-u).toNat) d) = m := by
  have hdq : (d : ℚ) ≠ 0 := by exact_mod_cast hd.ne'
  rw [div_eq_iff hdq] at hval
  split
  · next hu =>
    obtain ⟨n, rfl⟩ := Int.eq_ofNat_of_zero_le hu
    have ha : a = m * (d * 2 ^ n) := by
      rw [zpow_natCast, mul_assoc, mul_comm (2 ^ n : ℚ)] at hval
      exact_mod_cast hval
    rw [Int.toNat_natCast, ha, divHalfEven_mul_self m (by positivity)]
  · next hu =>
    obtain ⟨n, rfl⟩ : ∃ n : ℕ, u = -n := ⟨u.natAbs, by omega⟩
    have ha : a * 2 ^ n = m * d := by
      have hscaled : (a * 2 ^ n : ℚ) = m * d := by
        rw [hval, zpow_neg, zpow_natCast]
        field_simp
      exact_mod_cast hscaled
    rw [neg_neg, Int.toNat_natCast, ha, divHalfEven_mul_self m hd]

/-- The exponent of a binary64 number, cut off below at -1022, is 52 above that of its unit. -/
theorem max_binaryExponent {a d m k : Nat} (hd : 0 < d) (hm : 0 < m)
    (hval : (a / d : ℚ) = m * 2 ^ ((k : ℤ) - 1074)) (hlt : m < 2 ^ 53) (hhid : k = 0 ∨ 2 ^ 52 ≤ m) :
    max (binaryExponent a d) (-1022) = (k : ℤ) - 1022 := by
  have hq : (0 : ℚ) < a / d := by rw [hval]; positivity
  have ha : 0 < a := by
    refine Nat.pos_of_ne_zero fun h => ?_
    simp [h] at hq
  have hhi : Int.log 2 (a / d : ℚ) < (k : ℤ) - 1021 := by
    rw [← Int.lt_zpow_iff_log_lt one_lt_two hq, hval]
    have hmq : (m : ℚ) < 2 ^ (53 : ℤ) := by exact_mod_cast hlt
    calc (m : ℚ) * 2 ^ ((k : ℤ) - 1074) < 2 ^ (53 : ℤ) * 2 ^ ((k : ℤ) - 1074) := by gcongr
      _ = 2 ^ ((k : ℤ) - 1021) := by rw [← zpow_add₀ two_ne_zero]; congr 1; omega
  have hlo : 2 ^ 52 ≤ m → (k : ℤ) - 1022 ≤ Int.log 2 (a / d : ℚ) := fun hbit => by
    rw [← Int.zpow_le_iff_le_log one_lt_two hq, hval]
    have hmq : (2 : ℚ) ^ (52 : ℤ) ≤ m := by exact_mod_cast hbit
    calc (2 : ℚ) ^ ((k : ℤ) - 1022) = 2 ^ (52 : ℤ) * 2 ^ ((k : ℤ) - 1074) := by
          rw [← zpow_add₀ two_ne_zero]; congr 1; omega
      _ ≤ m * 2 ^ ((k : ℤ) - 1074) := by gcongr
  rw [binaryExponent_eq_log ha hd]
  omega

/-- Rounding finds the shift and the significand of a magnitude that is a binary64 number. -/
theorem roundMagnitude_eq {a d m k : Nat} (hd : 0 < d)
    (hval : (a / d : ℚ) = m * 2 ^ ((k : ℤ) - 1074)) (hlt : m < 2 ^ 53) (hhid : k = 0 ∨ 2 ^ 52 ≤ m)
    (hk : k ≤ 2045) : roundMagnitude a d = k * 2 ^ 52 + m := by
  have hzero : a = 0 ↔ m = 0 := by
    have hiff : (a / d : ℚ) = 0 ↔ (m : ℚ) * 2 ^ ((k : ℤ) - 1074) = 0 := by rw [hval]
    simpa [hd.ne', zpow_ne_zero] using hiff
  unfold roundMagnitude
  split
  · next ha => omega
  · next ha =>
    have hunit : (k : ℤ) - 1022 - 52 = k - 1074 := by ring
    have hfield : ((k : ℤ) - 1022 + 1022).toNat = k := by omega
    simp only [max_binaryExponent hd (by omega) hval hlt hhid, hunit, hfield, divHalfEven_scaled hd hval]
    omega

/-! ### Rounding the value of a pattern -/

/-- A value whose magnitude is that of a finite pattern rounds to the pattern without its sign bit. -/
theorem roundMagnitude_of_abs_eq {b : Word64} (hb : finite64 b = true) {v : NUM}
    (hv : |v| = f64Magnitude b) :
    roundMagnitude v.num.natAbs v.den = f64Shift b * 2 ^ 52 + f64Significand b := by
  refine roundMagnitude_eq v.den_pos ?_ (f64Significand_lt b) (f64Shift_eq_zero_or_hidden_bit b)
    (f64Shift_le_of_finite64 hb)
  rw [← f64Magnitude_eq, ← hv, Rat.abs_def, Rat.divInt_eq_div, Int.cast_natCast, Int.cast_natCast]

theorem abs_f64 {b : Word64} (hb : finite64 b = true) : |f64 b| = f64Magnitude b := by
  rw [f64, if_pos hb]
  split
  · rw [abs_neg, abs_of_nonneg (f64Magnitude_nonneg b)]
  · rw [abs_of_nonneg (f64Magnitude_nonneg b)]

/-- The value of a finite pattern is negative where the sign bit is set, -0.0 apart. -/
theorem f64_neg_iff {b : Word64} (hb : finite64 b = true) :
    f64 b < 0 ↔ b.getLsbD 63 = true ∧ f64Magnitude b ≠ 0 := by
  have hnonneg := f64Magnitude_nonneg b
  rw [f64, if_pos hb]
  cases b.getLsbD 63
  · simp [hnonneg]
  · simp [hnonneg.lt_iff_ne']

/-- A set sign bit over a zero magnitude is -0.0 and nothing else. -/
theorem eq_negZero_of_magnitude_eq_zero {b : Word64} (hsign : b.getLsbD 63 = true)
    (hmag : f64Magnitude b = 0) : b = 0x8000000000000000#64 := by
  rw [f64Magnitude_eq_zero_iff] at hmag
  have hbit := f64Shift_eq_zero_or_hidden_bit b
  apply BitVec.eq_of_toNat_eq
  rw [toNat_eq_sign_shift_significand, if_pos hsign, BitVec.toNat_ofNat]
  omega

/-- The sign bit comes back too, since only -0.0 has one that its value does not show. -/
theorem roundF64_f64 {b : Word64} (hb : finite64 b = true) (hne : b ≠ 0x8000000000000000#64) :
    roundF64 (f64 b) = b := by
  have hsign : (f64 b).num < 0 ↔ b.getLsbD 63 = true := by
    rw [Rat.num_neg, f64_neg_iff hb]
    exact and_iff_left_of_imp fun hset hzero => hne (eq_negZero_of_magnitude_eq_zero hset hzero)
  simp only [roundF64, hsign, roundMagnitude_of_abs_eq hb (abs_f64 hb),
    ← toNat_eq_sign_shift_significand, BitVec.ofNat_toNat, BitVec.setWidth_eq]

/-- The value of -0.0 is 0, which has no sign to keep (log entry 9). -/
theorem roundF64_f64_negZero : roundF64 (f64 0x8000000000000000#64) = 0#64 := by
  have hvalue : f64 0x8000000000000000#64 = 0 := by
    rw [← abs_eq_zero, abs_f64 (by decide), f64Magnitude_eq_zero_iff]
    decide
  rw [hvalue]
  decide

end Sys2Proof.Machine

open Sys2Proof.Machine

/-- Settles O57: a finite pattern is its significand and shift, and the rounding finds both again. -/
theorem roundingKeepsBinary64Values : Obligations.RoundingKeepsBinary64Values :=
  ⟨fun _ => roundF64_f64, roundF64_f64_negZero⟩
end

section
/-! SUPPORT. What one step can do to MODE, configuration, AGC_DELAY and run: five effects besides
SOFT_RESET. Every invariant of 10_state.md is a statement about these parts. -/

namespace Sys2Proof.Machine

/-- The effects of a step other than a SOFT_RESET on MODE, configuration, AGC_DELAY and run. -/
inductive Effect (s : State) : State → Prop
  /-- Nothing but MODE, the error registers and the ports can change: a wait, NOP, REG_READ or an error. -/
  | refused {t : State} (run : t.run = s.run) (cfg : t.cfg = s.cfg) (agcDelay : t.agcDelay = s.agcDelay)
      (mode : t.mode = s.mode ∨ (s.mode.acceptsConfig = true ∧ t.mode = .idle) ∨
        (s.mode = .run ∧ t.mode = .fault)) : Effect s t
  /-- An accepted CFG_WRITE (40_host_commands.md R181). -/
  | configured (c : CfgRegs) (accepts : s.mode.acceptsConfig = true) : Effect s { s with cfg := c }
  /-- A successful START (R183). -/
  | started (accepts : s.mode.acceptsConfig = true) (legal : startError s.cfg = none) :
      Effect s (beginRun s)
  /-- An accepted SAMPLE (R184). -/
  | sampled (x : NUM) (running : s.mode = .run) (index : s.run.n ≠ 0xFFFFFFFFFFFFFFFF#64) :
      Effect s (sampleStep x s)
  /-- An accepted FINISH (R185). -/
  | finished (running : s.mode = .run) :
      Effect s { closeCapture (closeFile s) with mode := .done }

/-- A command error leaves MODE as it is (60_exceptions.md R341). -/
theorem Effect.raise_of_modeAfter_eq {e : ErrorCode} {s : State} (info : Word64)
    (h : e.modeAfter s.mode = s.mode) : Effect s (raise e info s) :=
  .refused rfl rfl rfl (.inl h)

/-- The errors of START's checks leave IDLE (60_exceptions.md R341). -/
theorem modeAfter_of_startError {c : CfgRegs} {e : ErrorCode} {info : Word64} (m : Mode)
    (h : startError c = some (e, info)) : e.modeAfter m = .idle := by
  unfold startError at h
  split at h; · cases h; rfl
  split at h; · cases h; rfl
  split at h; · cases h; rfl
  split at h; · cases h; rfl
  split at h; · cases h; rfl
  split at h; · cases h; rfl
  split at h
  · cases h; rfl
  · cases h

/-- A START is refused, leaves IDLE with an error of its checks, or begins a run (R183). -/
theorem effect_of_execStart {addr : Byte} {s t : State} (h : execStart addr s = .next t) :
    Effect s t := by
  rcases execStart_cases h with ⟨-, rfl⟩ | ⟨hm, e, info, he, rfl⟩ | ⟨hm, he, rfl⟩
  · exact .raise_of_modeAfter_eq _ rfl
  · exact .refused rfl rfl rfl (.inr (.inl ⟨hm, modeAfter_of_startError _ he⟩))
  · exact .started hm he

/-- A SAMPLE is refused, enters FAULT with nothing consumed, or runs one step (R184). -/
theorem effect_of_execSample {addr : Byte} {data : Word64} {s t : State}
    (h : execSample addr data s = .next t) : Effect s t := by
  rcases execSample_cases h with ⟨-, rfl⟩ | ⟨hm, -, rfl⟩ | ⟨hm, -, -, rfl⟩ | ⟨hm, -, hn, rfl⟩
  · exact .raise_of_modeAfter_eq _ rfl
  · exact .refused rfl rfl rfl (.inr (.inr ⟨hm, rfl⟩))
  · exact .refused rfl rfl rfl (.inr (.inr ⟨hm, rfl⟩))
  · exact .sampled _ hm hn

/-- Every instruction but SOFT_RESET has one of the five effects. -/
theorem effect_of_exec {i : Instr} {s t : State} (hi : isSoftReset i = false)
    (h : exec i s = .next t) : Effect s t := by
  cases i with
  | nop addr data =>
    cases next_inj h
    exact .refused rfl rfl rfl (.inl rfl)
  | cfgWrite addr data =>
    rcases execCfgWrite_cases h with ⟨-, rfl⟩ | ⟨hm, c, -, rfl⟩ | ⟨-, -, rfl⟩
    · exact .raise_of_modeAfter_eq _ rfl
    · exact .configured c hm
    · exact .raise_of_modeAfter_eq _ rfl
  | regRead addr data =>
    rcases execRegRead_cases h with ⟨v, -, rfl⟩ | ⟨-, rfl⟩
    · exact .refused rfl rfl rfl (.inl rfl)
    · exact .refused rfl rfl rfl (.inl rfl)
  | start addr data => exact effect_of_execStart h
  | sample addr data => exact effect_of_execSample h
  | finish addr data =>
    rcases execFinish_cases h with ⟨-, rfl⟩ | ⟨hm, rfl⟩
    · exact .raise_of_modeAfter_eq _ rfl
    · exact .finished hm
  | softReset addr data => cases hi

/-- A step that accepts no SOFT_RESET has one of the five effects, on the state with the inbox it leaves. -/
theorem effect_of_step {s t : State} (hs : ¬ s.nextIsSoftReset) (h : step s = .next t) :
    ∃ rest, Effect { s with inbox := rest } t := by
  rcases step_cases h with ⟨-, rfl⟩ | ⟨c, rest, i, hin, hd, he⟩ | ⟨c, rest, cw, -, -, rfl⟩
  · exact ⟨[], .refused rfl rfl rfl (.inl rfl)⟩
  · refine ⟨rest, effect_of_exec ?_ he⟩
    exact Bool.eq_false_iff.mpr fun hi => hs ⟨c, rest, i, hin, hd, hi⟩
  · exact ⟨rest, .raise_of_modeAfter_eq _ rfl⟩

/-- What SOFT_RESET leaves: the reset state with the ports as they were (R186). -/
def resetWithPorts (inbox : List Command) (records : List Record) (responses : List Word64) : State :=
  { State.reset with inbox := inbox, records := records, responses := responses }

/-- A property that does not read the inbox, holds after a SOFT_RESET and survives the five effects
survives every step. -/
theorem step_preserves {P : State → Prop} (hinbox : ∀ s r, P s → P { s with inbox := r })
    (hreset : ∀ inbox records responses, P (resetWithPorts inbox records responses))
    (heffect : ∀ s t, P s → Effect s t → P t) {s t : State} (hs : P s) (h : step s = .next t) : P t := by
  refine step_invariant P hinbox (fun i u v hu he => ?_) (fun cw u hu => ?_) hs h
  · cases hi : isSoftReset i
    · exact heffect u v hu (effect_of_exec hi he)
    · cases i with
      | softReset addr data => exact next_inj he ▸ hreset _ _ _
      | nop | cfgWrite | regRead | start | sample | finish => cases hi
  · exact heffect u _ hu (.raise_of_modeAfter_eq _ rfl)

/-- A property of the run that holds after reset, when START sets it up again, and survives an accepted
SAMPLE and the closing of file and capture survives every step. -/
theorem step_preserves_run {P : State → Prop} (hrun : ∀ s t, t.run = s.run → P s → P t)
    (hreset : P State.reset)
    (hsample : ∀ x s, s.run.n ≠ 0xFFFFFFFFFFFFFFFF#64 → P s → P (sampleStep x s))
    (hclose : ∀ s, P s → P (closeCapture (closeFile s))) {s t : State} (hs : P s)
    (h : step s = .next t) : P t := by
  refine step_preserves (P := P) (fun _ _ => hrun _ _ rfl)
    (fun _ _ _ => hrun State.reset _ rfl hreset) (fun u v hu he => ?_) hs h
  cases he with
  | refused run cfg agcDelay mode => exact hrun _ _ run hu
  | configured c accepts => exact hrun u _ rfl hu
  | started accepts legal => exact hrun State.reset _ rfl hreset
  | sampled x running index => exact hsample x u index hu
  | finished running => exact hrun (closeCapture (closeFile u)) _ rfl (hclose u hu)

end Sys2Proof.Machine
end

section
/-! SUPPORT. The stages behind the slicer as a sequence of captures, parsed bytes and carrier losses: a
property of parser and files only has to survive these three (43_symbol_timer.md R275, R276,
44_byte_framer.md R290 to R295). -/

namespace Sys2Proof.Machine

/-- `t` has MODE, the configuration and the parser and file state of `s`; the signal path, level, indices,
accumulator, error registers and ports are free. -/
structure SameParser (s t : State) : Prop where
  mode       : t.mode = s.mode
  cfg        : t.cfg = s.cfg
  pst        : t.run.pst = s.run.pst
  hc         : t.run.hc = s.run.hc
  hb         : t.run.hb = s.run.hb
  pcnt       : t.run.pcnt = s.run.pcnt
  pb         : t.run.pb = s.run.pb
  bt         : t.run.bt = s.run.bt
  bl         : t.run.bl = s.run.bl
  bc         : t.run.bc = s.run.bc
  blockCount : t.run.blockCount = s.run.blockCount
  errorCount : t.run.errorCount = s.run.errorCount
  fopen      : t.run.fopen = s.run.fopen
  capopen    : t.run.capopen = s.run.capopen

theorem sameParser_clearBits (s : State) : SameParser s (clearBits s) := by constructor <;> rfl

theorem sameParser_highRun (nb : Nat) (s : State) : SameParser s (highRun nb s) := by
  constructor <;> rfl

theorem sameParser_addZeros (nb : Nat) (s : State) : SameParser s (addZeros nb s) := by
  constructor <;> rfl

theorem sameParser_advance (s : State) : SameParser s (advance s) := by constructor <;> rfl

theorem sameParser_sampleFront (x : NUM) (s : State) : SameParser s (sampleFront x s) := by
  rw [sampleFront_eq]
  constructor <;> rfl

theorem sameParser_enterLevel_runOut (new : Level) (s : State) :
    SameParser s (enterLevel new (runOut new s)) := by
  unfold runOut
  split <;> constructor <;> rfl

section Pipeline
variable {P : State → Prop} (hsame : ∀ s t, SameParser s t → P s → P t)
  (hcapture : ∀ b s, P s → P (captureOut b s)) (hparser : ∀ b s, P s → P (parser b s))
  (hloss : ∀ s, P s → P (carrierLossActions s))
include hsame hcapture hparser

/-- A flush hands at most one byte to capture and parser (R276, R290). -/
theorem flush_preserves {s : State} (hs : P s) : P (flush s) := by
  have hclear : P (clearBits s) := hsame _ _ (sameParser_clearBits s) hs
  unfold flush framer
  split
  · exact hparser _ _ (hcapture _ _ hclear)
  · exact hclear

theorem addRun_preserves (prev : Level) (nb : Nat) {s : State} (hs : P s) : P (addRun prev nb s) := by
  cases prev with
  | high => exact hsame _ _ (sameParser_highRun nb s) hs
  | low =>
    have hflush : P (boundaryFlush s) := by
      unfold boundaryFlush
      split
      · exact flush_preserves hsame hcapture hparser hs
      · exact hs
    exact hsame _ _ (sameParser_addZeros nb _) hflush
  | none => exact hs

include hloss

theorem endRun_preserves (new : Level) {s : State} (hs : P s) : P (endRun new s) := by
  have hflush : P (lossFlush s) := by
    unfold lossFlush
    split
    · exact flush_preserves hsame hcapture hparser hs
    · exact hs
  unfold endRun
  split
  · exact hloss _ hflush
  · exact hs

/-- A property of parser and files that survives a captured byte, a parsed byte and a carrier loss
survives a SAMPLE. -/
theorem sampleStep_preserves (x : NUM) {s : State} (hs : P s) : P (sampleStep x s) := by
  have hfront : P (sampleFront x s) := hsame _ _ (sameParser_sampleFront x s) hs
  refine hsame _ _ (sameParser_advance _) ?_
  rcases sampleEvent_cases (sampleLevel x s) (sampleFront x s) with ⟨-, h⟩ | ⟨-, h⟩ <;> rw [h]
  · exact hfront
  · have hlevel := hsame _ _ (sameParser_enterLevel_runOut (sampleLevel x s) _) hfront
    exact endRun_preserves hsame hcapture hparser hloss _
      (addRun_preserves hsame hcapture hparser _ _ hlevel)

end Pipeline

/-- After the two closes of R312 and FINISH no file and no capture interval is open. -/
theorem closed_flags (s : State) : (closeCapture (closeFile s)).run.fopen = false ∧
    (closeCapture (closeFile s)).run.capopen = false := by
  rw [closeCapture_eq, closeFile_eq]
  exact ⟨rfl, rfl⟩

theorem captureOut_run (b : Byte) (s : State) :
    (captureOut b s).run = { s.run with capopen := s.cfg.captureEn || s.run.capopen } := by
  unfold captureOut
  cases s.cfg.captureEn <;> rfl

end Sys2Proof.Machine
end

section
/-! SUPPORT. The AGC window: powers are squares, so that W is a sum of squares (10_state.md R57, R58,
41_agc.md R223), and O48. -/

namespace Sys2Proof.Machine

theorem hist_ringP_eq_square {s : State} (hP : s.PowerInv) (n lag : Nat) :
    hist s.run.ringP n lag = hist s.run.ringS n lag * hist s.run.ringS n lag := by
  unfold hist
  split
  · exact (mul_zero 0).symm
  · exact hP _

theorem windowSum_nonneg {s : State} (hP : s.PowerInv) (n d : Nat) :
    0 ≤ windowSum s.run.ringP n d := by
  induction d with
  | zero => exact le_rfl
  | succ d ih =>
    rw [windowSum, hist_ringP_eq_square hP]
    exact add_nonneg ih (mul_self_nonneg _)

/-- A sum of squares is 0 only where every one of them is. -/
theorem windowSum_eq_zero_iff {s : State} (hP : s.PowerInv) (n d : Nat) :
    windowSum s.run.ringP n d = 0 ↔ ∀ j, 1 ≤ j → j ≤ d → hist s.run.ringS n j = 0 := by
  induction d with
  | zero => exact iff_of_true rfl fun j h1 h0 => absurd h1 (by omega)
  | succ d ih =>
    rw [windowSum, hist_ringP_eq_square hP,
      add_eq_zero_iff_of_nonneg (windowSum_nonneg hP n d) (mul_self_nonneg _), ih, mul_self_eq_zero]
    constructor
    · rintro ⟨hle, hlast⟩ j h1 h2
      rcases Nat.le_succ_iff.mp h2 with h | rfl
      · exact hle j h1 h
      · exact hlast
    · exact fun h => ⟨fun j h1 h2 => h j h1 (by omega), h (d + 1) (by omega) le_rfl⟩

end Sys2Proof.Machine

open Sys2Proof.Machine

/-- Settles O48: W is the naive sum of squares, by induction on the window's length. -/
theorem windowSumIsZeroExactlyInSilence : Obligations.WindowSumIsZeroExactlyInSilence := by
  intro s hW hP
  rw [hW.2]
  exact ⟨windowSum_nonneg hP _ _, windowSum_eq_zero_iff hP _ _⟩
end

section
/-! SUPPORT. The state after reset (10_state.md R85), O17 and O56. -/

namespace Sys2Proof.Machine

theorem reset_powerInv : State.reset.PowerInv := fun m => by
  show ringAt (Vector.replicate _ 0) m = ringAt (Vector.replicate _ 0) m * ringAt (Vector.replicate _ 0) m
  rw [ringAt_replicate_zero, mul_zero]

theorem reset_indexInv : State.reset.IndexInv := ⟨le_rfl, fun h => absurd rfl h⟩

theorem reset_parserInv : State.reset.ParserInv := ⟨by decide, by decide, nofun, nofun⟩

theorem reset_fileInv : State.reset.FileInv := ⟨nofun, nofun⟩

theorem reset_configInv : State.reset.ConfigInv := nofun

end Sys2Proof.Machine

open Sys2Proof.Machine

/-- Settles O17: the reset state is written out, and a buffer of zeros reads as 0 everywhere. -/
theorem resetValues : Obligations.ResetValues := by
  have hring (m : Nat) : ringAt (Vector.replicate 256 0) m = 0 := ringAt_replicate_zero m
  have hheader (j : Nat) (h : j < 4) : (Vector.replicate 4 0#8)[j] = 0#8 :=
    Vector.getElem_replicate h
  exact ⟨rfl, rfl, rfl, rfl, rfl, rfl, rfl, rfl, rfl, rfl, rfl, rfl, rfl, rfl, rfl, rfl, rfl, rfl, rfl,
    fun m => ⟨hring m, hring m, hring m, hring m⟩, rfl, rfl, rfl, rfl, rfl, rfl, rfl, rfl, hheader, rfl,
    Memory.read_nil, rfl, rfl, rfl, rfl, rfl, rfl, rfl⟩

/-- Settles O56: window and timer are empty, the parser waits, no file is open, and MODE is IDLE. -/
theorem resetMeetsTheInvariants : Obligations.ResetMeetsTheInvariants :=
  ⟨⟨by decide, rfl⟩, reset_powerInv, reset_indexInv, ⟨by decide, by decide, fun _ => rfl⟩,
    reset_parserInv, ⟨rfl, nofun⟩, reset_fileInv, reset_configInv, .inl rfl, fun _ => rfl, nofun⟩
end

section
/-! SUPPORT. Powers and indices over a SAMPLE (10_state.md R57, R60, R61), and O49. -/

namespace Sys2Proof.Machine

/-- RUN_START over a SAMPLE: kept, or the index of the sample that changes the level (R61). -/
theorem sampleStep_rs (x : NUM) (s : State) :
    (sampleStep x s).run.rs = s.run.rs ∨ (sampleStep x s).run.rs = s.run.n := by
  have hrs : (sampleFront x s).run.rs = s.run.rs ∧ (sampleFront x s).run.n = s.run.n := by
    rw [sampleFront_run]
    exact ⟨rfl, rfl⟩
  show (sampleEvent _ _).run.rs = _ ∨ (sampleEvent _ _).run.rs = _
  rcases sampleEvent_cases (sampleLevel x s) (sampleFront x s) with ⟨-, h⟩ | ⟨-, h⟩ <;> rw [h]
  · exact .inl hrs.1
  · exact .inr ((keeps_levelChange _ _).rs.trans hrs.2)

/-- S and P are written in the same slot (20_memory.md R105). -/
theorem sampleStep_powerInv (x : NUM) {s : State} (hs : s.PowerInv) : (sampleStep x s).PowerInv := by
  intro m
  obtain ⟨hS, hP, -⟩ := sampleStep_signal x s
  rw [hS, hP, ringAt_ringWrite, ringAt_ringWrite]
  split
  · rfl
  · exact hs m

/-- N moves on by one, and the run start is at most the N before. -/
theorem sampleStep_indexInv (x : NUM) {s : State} (hn : s.run.n ≠ 0xFFFFFFFFFFFFFFFF#64)
    (hs : s.IndexInv) : (sampleStep x s).IndexInv := by
  have hindex : (sampleStep x s).run.n.toNat = s.run.n.toNat + 1 := by
    obtain ⟨-, -, -, -, -, hN⟩ := sampleStep_signal x s
    rw [hN, toNat_index_succ hn]
  have hstart : (sampleStep x s).run.rs.toNat ≤ s.run.n.toNat := by
    rcases sampleStep_rs x s with h | h <;> rw [h]
    exact hs.1
  constructor <;> omega

end Sys2Proof.Machine

open Sys2Proof.Machine

/-- Settles O49: both invariants speak of the run, which only START, SAMPLE and FINISH write. -/
theorem stepKeepsPowersAndIndices : Obligations.StepKeepsPowersAndIndices := by
  refine fun s t h => ⟨fun hs => ?_, fun hs => ?_⟩
  · refine step_preserves_run (P := State.PowerInv) (fun u v hrun hu => ?_) reset_powerInv
      (fun x u _ => sampleStep_powerInv x) (fun u hu => ?_) hs h
    · rwa [State.PowerInv, hrun]
    · have hk := (keeps_closeFile u).trans (keeps_closeCapture _)
      rwa [State.PowerInv, hk.ringS, hk.ringP]
  · refine step_preserves_run (P := State.IndexInv) (fun u v hrun hu => ?_) reset_indexInv
      (fun x u hn => sampleStep_indexInv x hn) (fun u hu => ?_) hs h
    · rwa [State.IndexInv, hrun]
    · have hk := (keeps_closeFile u).trans (keeps_closeCapture _)
      rwa [State.IndexInv, hk.n, hk.rs]
end

section
/-! SUPPORT. The parser's counts over a byte, a carrier loss and a close (10_state.md R65, R66,
45_block_parser.md R300 to R303), and O51. -/

namespace Sys2Proof.Machine

/-- The counts and the block length decide the invariant. -/
theorem parserInv_congr {s t : State} (hpst : t.run.pst = s.run.pst) (hhc : t.run.hc = s.run.hc)
    (hpcnt : t.run.pcnt = s.run.pcnt) (hbl : t.run.bl = s.run.bl) (hs : s.ParserInv) : t.ParserInv := by
  rwa [State.ParserInv, hpst, hhc, hpcnt, hbl]

/-- Outside READ_HEADER and READ_DATA only the ranges of the counts matter. -/
theorem parserInv_of_waitHeader {s : State} (hpst : s.run.pst = .waitHeader)
    (hhc : s.run.hc.toNat ≤ hdrBytes) (hpcnt : s.run.pcnt.toNat ≤ pbBytes) : s.ParserInv :=
  ⟨hhc, hpcnt, by simp [hpst], by simp [hpst]⟩

theorem parserInv_close {s : State} (hs : s.ParserInv) : (closeCapture (closeFile s)).ParserInv := by
  rw [closeCapture_eq, closeFile_eq]
  exact hs

theorem parserInv_carrierLossActions {s : State} (hs : s.ParserInv) :
    (carrierLossActions s).ParserInv := by
  unfold carrierLossActions resetParser
  split
  · exact parserInv_close hs
  · exact parserInv_of_waitHeader rfl (Nat.zero_le _) (Nat.zero_le _)

/-- A new block waits for its first byte, unless it has none (R303). -/
theorem parserInv_beginBlock {s : State} (hhc : s.run.hc.toNat ≤ hdrBytes)
    (hpcnt : s.run.pcnt.toNat ≤ pbBytes) : (beginBlock s).ParserInv := by
  unfold beginBlock
  split
  · exact parserInv_of_waitHeader rfl hhc hpcnt
  · next hbl =>
    have hpos : 0 < s.run.bl.toNat := Nat.pos_of_ne_zero fun h => hbl (BitVec.eq_of_toNat_eq h)
    refine ⟨hhc, Nat.zero_le _, nofun, fun _ => ?_⟩
    show 0 < 2 * s.run.bl.toNat
    omega

/-- A header byte takes HC from below 4 to at most 4, and 4 completes the header (R301). -/
theorem parserInv_headerByte (b : Byte) {s : State} (hpst : s.run.pst = .readHeader)
    (hs : s.ParserInv) : (headerByte b s).ParserInv := by
  obtain ⟨-, hpcnt, hheader, -⟩ := hs
  have hlt := hheader hpst
  have hnext : (s.run.hc + 1).toNat = s.run.hc.toNat + 1 := by
    simp only [hdrBytes] at hlt
    bv_omega
  have hle : (s.run.hc + 1).toNat ≤ hdrBytes := by omega
  unfold headerByte completeHeader
  split
  · exact parserInv_beginBlock hle hpcnt
  · next hne =>
    refine ⟨hle, hpcnt, fun _ => lt_of_le_of_ne hle fun h => hne (BitVec.eq_of_toNat_eq h), fun h => ?_⟩
    exact absurd (hpst.symm.trans h) nofun

/-- A payload byte takes PCNT from below 2 BL to at most 2 BL, and 2 BL completes the block (R302). -/
theorem parserInv_payloadByte (b : Byte) {s : State} (hpst : s.run.pst = .readData)
    (hs : s.ParserInv) : (payloadByte b s).ParserInv := by
  obtain ⟨hhc, -, -, hdata⟩ := hs
  have hlt := hdata hpst
  have hbl := s.run.bl.isLt
  have hnext : (s.run.pcnt + 1).toNat = s.run.pcnt.toNat + 1 := by bv_omega
  have hrange : (s.run.pcnt + 1).toNat ≤ pbBytes := by
    simp only [pbBytes]
    omega
  unfold payloadByte completePayload
  split
  · have hblock := keepsBlock_dispatch (storePayload b s)
    unfold KeepsBlock at hblock
    refine parserInv_of_waitHeader rfl ?_ ?_
    · show (dispatch (storePayload b s)).run.hc.toNat ≤ hdrBytes
      rw [hblock]
      exact hhc
    · show (dispatch (storePayload b s)).run.pcnt.toNat ≤ pbBytes
      rw [hblock]
      exact hrange
  · next hne =>
    refine ⟨hhc, hrange, fun h => absurd (hpst.symm.trans h) nofun, fun _ => ?_⟩
    exact lt_of_le_of_ne (by show (s.run.pcnt + 1).toNat ≤ 2 * s.run.bl.toNat; omega) hne

theorem parserInv_parser (b : Byte) {s : State} (hs : s.ParserInv) : (parser b s).ParserInv := by
  have hpcnt : s.run.pcnt.toNat ≤ pbBytes := hs.2.1
  unfold parser
  split
  · split
    · exact ⟨Nat.zero_le _, hpcnt, fun _ => Nat.succ_pos 3, nofun⟩
    · exact hs
  · next hpst => exact parserInv_headerByte b hpst hs
  · next hpst => exact parserInv_payloadByte b hpst hs

theorem sampleStep_parserInv (x : NUM) {s : State} (hs : s.ParserInv) :
    (sampleStep x s).ParserInv :=
  sampleStep_preserves (P := State.ParserInv)
    (fun _ _ hsame => parserInv_congr hsame.pst hsame.hc hsame.pcnt hsame.bl)
    (fun b u hu => by
      have hrun := captureOut_run b u
      exact parserInv_congr (by rw [hrun]) (by rw [hrun]) (by rw [hrun]) (by rw [hrun]) hu)
    (fun b _ => parserInv_parser b) (fun _ => parserInv_carrierLossActions) x hs

end Sys2Proof.Machine

open Sys2Proof.Machine

/-- Settles O51: a count grows by one per byte and is cleared or left behind where it meets its bound. -/
theorem stepKeepsTheParserCounts : Obligations.StepKeepsTheParserCounts := fun _ _ hs h =>
  step_preserves_run (P := State.ParserInv)
    (fun _ _ hrun => parserInv_congr (by rw [hrun]) (by rw [hrun]) (by rw [hrun]) (by rw [hrun]))
    reset_parserInv (fun x _ _ => sampleStep_parserInv x) (fun _ => parserInv_close) hs h
end

section
/-! SUPPORT. The file flags over a SAMPLE: FOPEN is set only under EXTRACT_EN and CAPOPEN only under
CAPTURE_EN (44_byte_framer.md R294, 45_block_parser.md R306), and O53. -/

namespace Sys2Proof.Machine

/-- The half of the file invariant that does not speak of MODE. -/
def State.FlagsEnabled (s : State) : Prop :=
  (s.run.fopen = true → s.cfg.extractEn = true) ∧ (s.run.capopen = true → s.cfg.captureEn = true)

theorem flagsEnabled_of_fileInv {s : State} (hs : s.FileInv) : s.FlagsEnabled :=
  ⟨fun h => (hs.1 h).1, fun h => (hs.2 h).1⟩

/-- During a run the enables are all there is to the file invariant. -/
theorem State.FlagsEnabled.fileInv {s : State} (hs : s.FlagsEnabled) (hm : s.mode.inRun = true) :
    s.FileInv :=
  ⟨fun h => ⟨hs.1 h, hm⟩, fun h => ⟨hs.2 h, hm⟩⟩

/-- Closed flags meet the invariant in every mode. -/
theorem fileInv_of_closed {s : State} (hf : s.run.fopen = false) (hc : s.run.capopen = false) :
    s.FileInv :=
  ⟨by simp [hf], by simp [hc]⟩

/-- A configuration command is accepted only outside a run. -/
theorem inRun_eq_not_acceptsConfig (m : Mode) : m.inRun = !m.acceptsConfig := by cases m <;> rfl

/-- Where a configuration command is accepted no file and no capture is open. -/
theorem closed_of_acceptsConfig {s : State} (hs : s.FileInv) (hm : s.mode.acceptsConfig = true) :
    s.run.fopen = false ∧ s.run.capopen = false := by
  have hidle : s.mode.inRun ≠ true := by simp [inRun_eq_not_acceptsConfig, hm]
  exact ⟨Bool.eq_false_iff.mpr fun h => hidle (hs.1 h).2, Bool.eq_false_iff.mpr fun h => hidle (hs.2 h).2⟩

/-- A close leaves no file open. -/
theorem closeFile_fopen (s : State) : (closeFile s).run.fopen = false := by rw [closeFile_eq]

/-- A dispatch opens a file only under EXTRACT_EN (R306). -/
theorem dispatch_fopen {s : State} (h : (dispatch s).run.fopen = true) :
    s.run.fopen = true ∨ s.cfg.extractEn = true := by
  unfold dispatch at h
  split at h
  · cases hen : s.cfg.extractEn
    · exact .inl (by simpa [dispatchTitle, replaceFile, resetStatistics, hen] using h)
    · exact .inr rfl
  · exact .inl h
  · unfold dispatchData fileAppend at h
    split at h <;> exact .inl h
  · exact absurd ((closeFile_fopen _).symm.trans h) nofun

/-- A header byte, a payload byte before the last and a byte between blocks leave FOPEN alone; the last
payload byte dispatches. -/
theorem parser_fopen (b : Byte) {s : State} (h : (parser b s).run.fopen = true) :
    s.run.fopen = true ∨ s.cfg.extractEn = true := by
  unfold parser at h
  split at h
  · split at h <;> exact .inl h
  · unfold headerByte completeHeader decodeHeader beginBlock at h
    split at h
    · split at h <;> exact .inl h
    · exact .inl h
  · unfold payloadByte completePayload at h
    split at h
    · exact dispatch_fopen (s := storePayload b s) h
    · exact .inl h

theorem flagsEnabled_parser (b : Byte) {s : State} (hs : s.FlagsEnabled) :
    (parser b s).FlagsEnabled := by
  obtain ⟨-, -, hcapopen⟩ := keepsTimer_parser b s
  rw [State.FlagsEnabled, (keeps_parser b s).cfg, hcapopen]
  exact ⟨fun h => (parser_fopen b h).elim hs.1 id, hs.2⟩

theorem flagsEnabled_captureOut (b : Byte) {s : State} (hs : s.FlagsEnabled) :
    (captureOut b s).FlagsEnabled := by
  rw [State.FlagsEnabled, (keeps_captureOut b s).cfg, captureOut_run]
  exact ⟨hs.1, fun h => (Bool.or_eq_true_iff.mp h).elim id hs.2⟩

/-- A carrier loss closes both (R312). -/
theorem flagsEnabled_carrierLossActions (s : State) : (carrierLossActions s).FlagsEnabled := by
  obtain ⟨hf, hc⟩ := closed_flags s
  unfold carrierLossActions resetParser
  split <;> exact ⟨fun h => absurd (hf.symm.trans h) nofun, fun h => absurd (hc.symm.trans h) nofun⟩

theorem sampleStep_flagsEnabled (x : NUM) {s : State} (hs : s.FlagsEnabled) :
    (sampleStep x s).FlagsEnabled :=
  sampleStep_preserves (P := State.FlagsEnabled)
    (fun u v hsame hu => by rwa [State.FlagsEnabled, hsame.cfg, hsame.fopen, hsame.capopen])
    (fun b _ => flagsEnabled_captureOut b) (fun b _ => flagsEnabled_parser b)
    (fun u _ => flagsEnabled_carrierLossActions u) x hs

/-- A run or FAULT is left only through FINISH, which closes both files; it is kept by every other
effect, and in the other modes both files are closed. -/
theorem Effect.fileInv {s t : State} (hs : s.FileInv) (h : Effect s t) : t.FileInv := by
  cases h with
  | refused run cfg agcDelay mode =>
    rcases mode with hm | ⟨hm, -⟩ | ⟨-, hm⟩
    · rwa [State.FileInv, run, cfg, hm]
    · obtain ⟨hf, hc⟩ := closed_of_acceptsConfig hs hm
      exact fileInv_of_closed (run ▸ hf) (run ▸ hc)
    · refine State.FlagsEnabled.fileInv ?_ (hm ▸ rfl)
      rw [State.FlagsEnabled, run, cfg]
      exact flagsEnabled_of_fileInv hs
  | configured c accepts =>
    obtain ⟨hf, hc⟩ := closed_of_acceptsConfig hs accepts
    exact fileInv_of_closed hf hc
  | started accepts legal => exact fileInv_of_closed rfl rfl
  | sampled x running index =>
    refine (sampleStep_flagsEnabled x (flagsEnabled_of_fileInv hs)).fileInv ?_
    rw [(sampleStep_control x s).1, running]
    rfl
  | finished running => exact fileInv_of_closed (closed_flags s).1 (closed_flags s).2

end Sys2Proof.Machine

open Sys2Proof.Machine

/-- Settles O53: the flags are set under their enables during a run, and a run ends with both clear. -/
theorem stepKeepsTheFileFlags : Obligations.StepKeepsTheFileFlags := fun _ _ hs h =>
  step_preserves (P := State.FileInv) (fun _ _ hu => hu) (fun _ _ _ => reset_fileInv)
    (fun _ _ => Effect.fileInv) hs h
end

section
/-! SUPPORT. AGC_DELAY and the checked configuration (10_state.md R54, R55), O14 and O54. -/

namespace Sys2Proof.Machine

/-- A successful START sets AGC_DELAY to round(SR/BR), which fits the register (R55, R183). -/
theorem beginRun_agcDelay_toNat {s : State} (h : startError s.cfg = none) :
    (beginRun s).agcDelay.toNat = s.cfg.agcdelay := by
  obtain ⟨-, -, -, hlt, -⟩ := startError_none h
  rw [beginRun_agcDelay, BitVec.toNat_ofNat]
  omega

/-- round(SR/BR) written out, for a baud rate that is not 0 (00_scope.md R12). -/
theorem agcdelay_eq {c : CfgRegs} (h : c.br ≠ 0) :
    c.agcdelay = (2 * c.sampleRate.toNat + c.baudRate.toNat) / (2 * c.baudRate.toNat) := if_neg h

/-- A START that leaves RUN from IDLE or DONE found no error and began a run. -/
theorem eq_beginRun_of_execStart {addr : Byte} {s t : State} (hm : s.mode.acceptsConfig = true)
    (h : execStart addr s = .next t) (ht : t.mode = .run) :
    startError s.cfg = none ∧ t = beginRun s := by
  rcases execStart_cases h with ⟨hn, -⟩ | ⟨-, e, info, he, rfl⟩ | ⟨-, he, rfl⟩
  · exact absurd (hm.symm.trans hn) nofun
  · exact absurd ((modeAfter_of_startError s.mode he).symm.trans ht) nofun
  · exact ⟨he, rfl⟩

theorem acceptsConfig_iff (m : Mode) : m.acceptsConfig = true ↔ m ∈ [.idle, .done] := by
  cases m <;> simp [Mode.acceptsConfig]

/-- Only the start of a run writes AGC_DELAY (R55). -/
theorem Effect.agcDelay {s t : State} (h : Effect s t) :
    t.agcDelay = s.agcDelay ∨ (s.mode.acceptsConfig = true ∧ t.mode = .run) := by
  cases h with
  | refused run cfg agcDelay mode => exact .inl agcDelay
  | configured c accepts => exact .inl rfl
  | started accepts legal => exact .inr ⟨accepts, rfl⟩
  | sampled x running index =>
    obtain ⟨-, -, -, -, hdelay, -⟩ := sampleStep_control x s
    exact .inl hdelay
  | finished running => exact .inl ((keeps_closeFile s).trans (keeps_closeCapture _)).agcDelay

/-- A run begins with START's checks, and configuration and AGC_DELAY stay until it has ended. -/
theorem Effect.configInv {s t : State} (hs : s.ConfigInv) (h : Effect s t) : t.ConfigInv := by
  intro ht
  cases h with
  | refused run cfg agcDelay mode =>
    rw [cfg, agcDelay]
    rcases mode with hm | ⟨-, hm⟩ | ⟨hm, -⟩
    · exact hs (hm ▸ ht)
    · exact absurd (hm ▸ ht) nofun
    · exact hs (hm ▸ rfl)
  | configured c accepts => simp [inRun_eq_not_acceptsConfig, accepts] at ht
  | started accepts legal => exact ⟨legal, beginRun_agcDelay_toNat legal⟩
  | sampled x running index =>
    obtain ⟨-, -, -, hcfg, hdelay, -⟩ := sampleStep_control x s
    rw [hcfg, hdelay]
    exact hs (running ▸ rfl)
  | finished running => exact absurd ht nofun

end Sys2Proof.Machine

open Sys2Proof.Machine

/-- Settles O14: a START that runs has passed the checks on D, and no other effect writes AGC_DELAY. -/
theorem agcDelayIsTheRoundedRatio : Obligations.AgcDelayIsTheRoundedRatio := by
  refine ⟨fun addr data s t hm h ht => ?_, fun s t hs h => ?_, rfl⟩
  · obtain ⟨he, rfl⟩ := eq_beginRun_of_execStart ((acceptsConfig_iff _).mpr hm) h ht
    obtain ⟨-, hbr, hpos, hlt, -⟩ := startError_none he
    rw [beginRun_agcDelay_toNat he]
    exact ⟨agcdelay_eq hbr, Nat.pos_of_ne_zero hpos, hlt⟩
  · obtain ⟨rest, he⟩ := effect_of_step hs h
    exact he.agcDelay.imp id fun ⟨hm, ht⟩ => ⟨(acceptsConfig_iff _).mp hm, ht⟩

/-- Settles O54: the configuration is written only outside a run and checked where one begins. -/
theorem stepKeepsTheCheckedConfiguration : Obligations.StepKeepsTheCheckedConfiguration :=
  fun _ _ hs h =>
    step_preserves (P := State.ConfigInv) (fun _ _ hu => hu) (fun _ _ _ => reset_configInv)
      (fun _ _ => Effect.configInv) hs h
end

section
/-! SUPPORT. The configuration registers as a list of 64-bit words, by address: a read is an element of
the list and a write sets one (20_memory.md R101, 30_encoding.md R131, R140), and O11. -/

namespace Sys2Proof.Machine

/-- The configuration registers zero-extended, in the order of their addresses 0x00 to 0x0E. -/
def CfgRegs.words (c : CfgRegs) : List Word64 :=
  [c.ctrl.setWidth 64, c.sampleRate.setWidth 64, c.baudRate.setWidth 64, c.delayK.setWidth 64,
   c.gainMax, c.gainReacq, c.filtB0, c.filtB1, c.filtB2, c.filtB3, c.filtA1, c.filtA2, c.filtA3,
   c.traceLo, c.traceHi]

theorem CfgRegs.words_length (c : CfgRegs) : c.words.length = 15 := rfl

/-- The bits of DATA that the configuration register at an address keeps (R131). -/
def keptBits (addr : Byte) (data : Word64) : Word64 :=
  if addr = 0x00#8 then data &&& 0x3F#64
  else if addr.toNat ≤ 3 then data &&& 0xFFFFFFFF#64 else data

/-- Cutting a word to its low bits and extending it again is a mask. -/
theorem setWidth_setWidth_eq_and {k : Nat} (hk : k ≤ 64) (data : Word64) :
    (data.setWidth k).setWidth 64 = data &&& BitVec.ofNat 64 (2 ^ k - 1) := by
  have hmask : 2 ^ k - 1 < 2 ^ 64 :=
    (Nat.sub_one_lt (Nat.two_pow_pos k).ne').trans_le (Nat.pow_le_pow_right two_pos hk)
  have hkept : data.toNat % 2 ^ k < 2 ^ 64 := (Nat.mod_le _ _).trans_lt data.isLt
  apply BitVec.eq_of_toNat_eq
  rw [BitVec.toNat_setWidth, BitVec.toNat_setWidth, BitVec.toNat_and, BitVec.toNat_ofNat,
    Nat.mod_eq_of_lt hkept, Nat.mod_eq_of_lt hmask, Nat.and_two_pow_sub_one_eq_mod]

/-- Reading a configuration register takes its element of the list (R140). -/
theorem readReg_eq_words {addr : Byte} (h : addr.toNat ≤ 0x0E) (s : State) :
    readReg addr s = s.cfg.words[addr.toNat]? := by
  unfold readReg
  generalize addr.toNat = n at h
  interval_cases n <;> rfl

/-- Writing a configuration register sets its element of the list to the kept bits (R131). -/
theorem writeCfg_words {addr : Byte} (h : addr.toNat ≤ 0x0E) (data : Word64) (c : CfgRegs) :
    ∃ c', writeCfg addr data c = some c' ∧ c'.words = c.words.set addr.toNat (keptBits addr data) := by
  have hctrl := setWidth_setWidth_eq_and (k := 6) (by decide) data
  have hrate := setWidth_setWidth_eq_and (k := 32) (by decide) data
  have hzero : addr = 0x00#8 ↔ addr.toNat = 0 := BitVec.toNat_inj.symm
  unfold writeCfg keptBits
  simp only [hzero]
  generalize addr.toNat = n at h
  interval_cases n <;> refine ⟨_, rfl, ?_⟩ <;> simp [CfgRegs.words, hctrl, hrate]

/-- An accepted CFG_WRITE completes with the written configuration and no other effect (R181). -/
theorem exec_cfgWrite_of_writeCfg {addr : Byte} {data : Word64} {s : State} {c : CfgRegs}
    (hm : s.mode.acceptsConfig = true) (hc : writeCfg addr data s.cfg = some c) :
    exec (.cfgWrite addr data) s = .next { s with cfg := c } := by
  simp [exec, execCfgWrite, hm, hc]

end Sys2Proof.Machine

open Sys2Proof.Machine

/-- Settles O11: a write sets one element of the list of registers, which leaves the others. -/
theorem cfgWriteReadsBack : Obligations.CfgWriteReadsBack := by
  intro addr data s hm haddr
  have haccepts : s.mode.acceptsConfig = true := (acceptsConfig_iff _).mpr (by simpa using hm)
  obtain ⟨c, hc, hwords⟩ := writeCfg_words haddr data s.cfg
  refine ⟨_, exec_cfgWrite_of_writeCfg haccepts hc, ?_, fun other hother hne => ?_⟩
  · rw [readReg_eq_words haddr, hwords, List.getElem?_set_self (by rw [CfgRegs.words_length]; omega)]
    rfl
  · rw [readReg_eq_words hother, readReg_eq_words hother, hwords,
      List.getElem?_set_ne fun h => hne (BitVec.eq_of_toNat_eq h.symm)]
end

section
/-! SUPPORT. The decoder by the fields of a command, O1, O2, O3 and O5 (30_encoding.md R130 to R135). -/

namespace Sys2Proof

/-- A command decodes to an instruction exactly where its three fields are the instruction's. -/
theorem decode_eq_instr_iff {c : Command} {i : Instr} :
    decode c = .instr i ↔ c.op = i.opcode ∧ c.addr = i.addr ∧ c.data = i.data := by
  constructor
  · intro h
    unfold decode at h
    split at h
    case h_8 => cases h
    all_goals cases h; exact ⟨BitVec.eq_of_toNat_eq ‹_›, rfl, rfl⟩
  · rintro ⟨hop, haddr, hdata⟩
    cases i <;> simp only [decode, hop, haddr, hdata] <;> rfl

theorem decode_encode (i : Instr) : decode (encode i) = .instr i :=
  decode_eq_instr_iff.mpr ⟨op_cmdWord _ _ _, addr_cmdWord _ _ _, rfl⟩

theorem encode_of_decode {c : Command} {i : Instr} (h : decode c = .instr i) : encode i = c := by
  obtain ⟨hop, haddr, hdata⟩ := decode_eq_instr_iff.mp h
  rw [encode, ← hop, ← haddr, ← hdata, cmdWord_op_addr]

/-- Every OP from 0x07 on is in the reserved row (R133). -/
theorem decode_of_reserved_op {c : Command} (h : 0x07 ≤ c.op.toNat) : decode c = .reserved c.cw := by
  unfold decode
  split
  case h_8 => rfl
  all_goals omega

/-- OP is what the mask 0xFF00 leaves of a command word. -/
theorem op_eq_of_mask_eq {c c' : Command} (h : c.cw &&& 0xFF00#16 = c'.cw &&& 0xFF00#16) :
    c.op = c'.op := by
  rw [← cmdWord_op_addr c, ← cmdWord_op_addr c', Laws.EncodingMatchesRow.mask_cmdWord,
    Laws.EncodingMatchesRow.mask_cmdWord] at h
  simpa using congrArg (fun cw => (Command.mk cw 0#64).op) h

theorem toNat_op (c : Command) : c.op.toNat = c.cw.toNat / 256 := by
  have hcw := c.cw.isLt
  simp only [Command.op, BitVec.extractLsb'_toNat, Nat.shiftRight_eq_div_pow]
  omega

theorem addr_eq_setWidth (c : Command) : c.addr = c.cw.setWidth 8 :=
  (BitVec.setWidth_eq_extractLsb' (by decide)).symm

open Laws.EncodingMatchesRow in
/-- The command word of every instruction is in its row. -/
theorem encode_mask_eq_rowMatch (i : Instr) : (encode i).cw &&& 0xFF00#16 = rowMatch i := by
  cases i with
  | nop addr data => exact nop addr data
  | cfgWrite addr data => exact cfgWrite addr data
  | regRead addr data => exact regRead addr data
  | start addr data => exact start addr data
  | sample addr data => exact sample addr data
  | finish addr data => exact finish addr data
  | softReset addr data => exact softReset addr data

/-- The row of an instruction and its fields select it (R132, R135). -/
theorem decode_of_rowMatch {cw : Half} {i : Instr}
    (hrow : cw &&& 0xFF00#16 = Laws.EncodingMatchesRow.rowMatch i) (haddr : i.addr = cw.setWidth 8) :
    decode ⟨cw, i.data⟩ = .instr i := by
  refine decode_eq_instr_iff.mpr ⟨?_, (addr_eq_setWidth _).trans haddr.symm, rfl⟩
  exact (op_eq_of_mask_eq (hrow.trans (encode_mask_eq_rowMatch i).symm)).trans (op_cmdWord _ _ _)

end Sys2Proof

namespace Sys2Proof.Machine

/-- A reserved OP is refused (R133). -/
theorem step_of_reserved_op {s : State} {c : Command} {rest : List Command} (hin : s.inbox = c :: rest)
    (hop : 0x07 ≤ c.op.toNat) : step s = .next (rejectReserved c.cw { s with inbox := rest }) := by
  simp only [step, accept, hin, decode_of_reserved_op hop]

end Sys2Proof.Machine

open Sys2Proof Sys2Proof.Machine

/-- Settles O1: the three fields of a command select the instruction and are all there is to it. -/
theorem decodeEncodeAgree : Obligations.DecodeEncodeAgree :=
  ⟨decode_encode, fun _ _ => encode_of_decode⟩

/-- Settles O2: the mask leaves OP, which selects the row. -/
theorem decodeSelectsTheRowByMask : Obligations.DecodeSelectsTheRowByMask := fun cw data =>
  ⟨fun h => decode_of_rowMatch (i := .nop _ data) h rfl,
    fun h => decode_of_rowMatch (i := .cfgWrite _ data) h rfl,
    fun h => decode_of_rowMatch (i := .regRead _ data) h rfl,
    fun h => decode_of_rowMatch (i := .start _ data) h rfl,
    fun h => decode_of_rowMatch (i := .sample _ data) h rfl,
    fun h => decode_of_rowMatch (i := .finish _ data) h rfl,
    fun h => decode_of_rowMatch (i := .softReset _ data) h rfl,
    fun h => decode_of_reserved_op (by rw [toNat_op]; exact (Nat.le_div_iff_mul_le (by decide)).mpr h)⟩

/-- Settles O3: eight fixed words, one per row of the opcode map. -/
theorem specWordsDecode : Obligations.SpecWordsDecode := by
  unfold Obligations.SpecWordsDecode
  decide

/-- Settles O5: the decoder answers the reserved row, and the error it raises keeps MODE. -/
theorem reservedOpcodeRaisesIllegalOpcode : Obligations.ReservedOpcodeRaisesIllegalOpcode :=
  fun _ _ _ hin hop => step_of_reserved_op hin hop
end

section
/-! SUPPORT. What a CFG_WRITE depends on (30_encoding.md R131, R133), and O6. -/

namespace Sys2Proof.Machine

/-- Cutting a word to its low bits forgets the bits above. -/
theorem setWidth_eq_of_mod_eq {k : Nat} {data data' : Word64}
    (h : data.toNat % 2 ^ k = data'.toNat % 2 ^ k) : data.setWidth k = data'.setWidth k :=
  BitVec.eq_of_toNat_eq (by rw [BitVec.toNat_setWidth, BitVec.toNat_setWidth, h])

/-- CTRL keeps DATA[5:0] (R131). -/
theorem writeCfg_ctrl_congr {data data' : Word64} (c : CfgRegs)
    (h : data.toNat % 2 ^ 6 = data'.toNat % 2 ^ 6) :
    writeCfg 0x00#8 data c = writeCfg 0x00#8 data' c := by
  simp [writeCfg, setWidth_eq_of_mod_eq h]

/-- A 32-bit register keeps DATA[31:0] (R131). -/
theorem writeCfg_word32_congr {addr : Byte} {data data' : Word64} (c : CfgRegs) (h1 : 1 ≤ addr.toNat)
    (h3 : addr.toNat ≤ 3) (h : data.toNat % 2 ^ 32 = data'.toNat % 2 ^ 32) :
    writeCfg addr data c = writeCfg addr data' c := by
  unfold writeCfg
  generalize addr.toNat = n at h1 h3
  interval_cases n <;> simp only [setWidth_eq_of_mod_eq h]

/-- CFG_WRITE reads DATA only for the register it writes (R181). -/
theorem exec_cfgWrite_congr {addr : Byte} {data data' : Word64} {s : State}
    (h : writeCfg addr data s.cfg = writeCfg addr data' s.cfg) :
    exec (.cfgWrite addr data) s = exec (.cfgWrite addr data') s := by
  simp only [exec, execCfgWrite, h]

end Sys2Proof.Machine

open Sys2Proof Sys2Proof.Machine

/-- Settles O6: DATA is no argument of the meanings that ignore it, ADDR is read only by the refusals of
START, FINISH and SAMPLE, and a CFG_WRITE cuts DATA to the register's width. -/
theorem ignoredFieldsHaveNoEffect : Obligations.IgnoredFieldsHaveNoEffect := by
  intro a a' d d' s
  refine ⟨rfl, rfl, rfl, rfl, rfl, fun hm => ?_, fun hm => ?_, fun hm => ?_, fun h => ?_,
    fun h h1 h3 => ?_⟩
  · have haccepts : s.mode.acceptsConfig = true := (acceptsConfig_iff _).mpr (by simpa using hm)
    simp [exec, execStart, haccepts]
  · simp [exec, execFinish, hm]
  · simp [exec, execSample, hm]
  · exact exec_cfgWrite_congr (writeCfg_ctrl_congr s.cfg h)
  · exact exec_cfgWrite_congr (writeCfg_word32_congr s.cfg h1 h3 h)
end

section
/-! SUPPORT. The fields of STATUS (30_encoding.md R141), and O10. -/

namespace Sys2Proof.Machine

/-- The six fields of STATUS from bit 0 up: each is found by passing over those below it. -/
theorem status_fields (s : State) :
    s.status.extractLsb' 0 2 = s.mode.code ∧ s.status.extractLsb' 2 2 = s.run.lvl.code ∧
    s.status.extractLsb' 4 2 = s.run.pst.code ∧ s.status.extractLsb' 6 1 = BitVec.ofBool s.run.fopen ∧
    s.status.extractLsb' 7 1 = BitVec.ofBool s.run.capopen ∧ s.status.extractLsb' 8 8 = s.err := by
  unfold State.status
  refine ⟨?_, ?_, ?_, ?_, ?_, ?_⟩ <;> rw [BitVec.extractLsb'_setWidth_of_le (by decide)]
  · rw [BitVec.extractLsb'_append_eq_right]
  · rw [BitVec.extractLsb'_append_eq_of_le (by decide), BitVec.extractLsb'_append_eq_right]
  · iterate 2 rw [BitVec.extractLsb'_append_eq_of_le (by decide)]
    rw [BitVec.extractLsb'_append_eq_right]
  · iterate 3 rw [BitVec.extractLsb'_append_eq_of_le (by decide)]
    rw [BitVec.extractLsb'_append_eq_right]
  · iterate 4 rw [BitVec.extractLsb'_append_eq_of_le (by decide)]
    rw [BitVec.extractLsb'_append_eq_right]
  · iterate 4 rw [BitVec.extractLsb'_append_eq_of_le (by decide)]
    rw [BitVec.extractLsb'_append_eq_left]

theorem status_zero_bits (s : State) : s.status.extractLsb' 16 48 = 0#48 := by
  unfold State.status
  ext i hi
  simp

/-- A field of one bit holds that bit. -/
theorem getLsbD_of_extractLsb'_one {w i : Nat} {x : BitVec w} {b : Bool}
    (h : x.extractLsb' i 1 = BitVec.ofBool b) : x.getLsbD i = b := by
  simpa [BitVec.getLsbD_extractLsb'] using congrArg (·.getLsbD 0) h

/-- A CFG_WRITE to an address that is not writable changes the error registers at most (R181). -/
theorem exec_cfgWrite_readOnly {addr : Byte} {data : Word64} {s : State}
    (h : writeCfg addr data s.cfg = none) :
    ∃ err info, exec (.cfgWrite addr data) s = .next { s with err := err, errInfo := info } := by
  obtain ⟨t, ht⟩ := exec_next (.cfgWrite addr data) s
  rcases execCfgWrite_cases (data := data) ht with ⟨-, rfl⟩ | ⟨-, c, hc, -⟩ | ⟨-, -, rfl⟩
  · exact ⟨_, _, ht⟩
  · cases h.symm.trans hc
  · exact ⟨_, _, ht⟩

end Sys2Proof.Machine

open Sys2Proof Sys2Proof.Machine

/-- Settles O10: the fields are the parts STATUS is put together from, and 0x10 is not writable. -/
theorem statusHoldsItsFields : Obligations.StatusHoldsItsFields := by
  refine ⟨fun s => ?_, by decide, fun data s => ⟨rfl, exec_cfgWrite_readOnly rfl⟩⟩
  obtain ⟨hmode, hlvl, hpst, hfopen, hcapopen, herr⟩ := status_fields s
  exact ⟨hmode, hlvl, hpst, getLsbD_of_extractLsb'_one hfopen, getLsbD_of_extractLsb'_one hcapopen, herr,
    status_zero_bits s⟩
end

section
/-! SUPPORT. The 8N2 frame of a byte, bit by bit: 11 register bits that are its frame bits pass the
framer's checks and yield the byte (30_encoding.md R145, R146, R166), O39 and O40. -/

namespace Sys2Proof.Machine

/-- Frame bit `i` of a byte: start bit 0, the data bits from bit 0 up, stop bits 1 (R166). -/
def frameBit (b : Byte) (i : Nat) : Bool :=
  if i = 0 then false else if i ≤ 8 then b.getLsbD (i - 1) else true

theorem length_frameBits (b : Byte) : (frameBits b).length = 11 := rfl

theorem frameBits_getElem? (b : Byte) {i : Nat} (h : i < 11) :
    (frameBits b)[i]? = some (frameBit b i) := by
  interval_cases i <;> rfl

/-- A register that holds the frame bits of a byte passes the checks and yields the byte (R291 to
R293). -/
theorem frame_of_frameBits {r : Word32} {b : Byte} {c : Nat} (hc : 11 ≤ c)
    (h : ∀ i < 11, r.getLsbD i = frameBit b i) : frameOk r c = true ∧ frameByte r = b := by
  constructor
  · rw [frameOk, h 0 (by decide), h 9 (by decide), h 10 (by decide), decide_eq_true hc]
    rfl
  · apply BitVec.eq_of_getLsbD_eq
    intro i hi
    rw [frameByte, BitVec.getLsbD_extractLsb', h (1 + i) (by omega), decide_eq_true hi, Bool.true_and,
      frameBit, if_neg (by omega), if_pos (by omega), Nat.add_sub_cancel_left]

/-- The bits of a register put together from start bit 0, a byte, two stop bits and any rest (R145). -/
theorem getLsbD_framed (b : Byte) (rest : Word32) {i : Nat} (hi : i < 11) :
    ((b.setWidth 32 <<< 1) ||| 0x600#32 ||| (rest <<< 11)).getLsbD i = frameBit b i := by
  have hstop : (0x600#32).getLsbD i = decide (9 ≤ i) := by
    revert i
    decide
  rw [BitVec.getLsbD_or, BitVec.getLsbD_or, hstop]
  simp only [BitVec.getLsbD_shiftLeft, BitVec.getLsbD_setWidth]
  rcases (by omega : i = 0 ∨ (0 < i ∧ i ≤ 8) ∨ 9 ≤ i) with rfl | ⟨hpos, hle⟩ | hge
  · simp [frameBit]
  · simp [frameBit, hi, hle, show i ≠ 0 by omega, show ¬ 9 ≤ i by omega, show i < 32 by omega,
      show i - 1 < 32 by omega]
  · simp [frameBit, hge, show i ≠ 0 by omega, show ¬ i ≤ 8 by omega]

/-- The accumulator with a tape bit at position `n`: a 1 is set, a 0 is there already (R272, R273). -/
def accBit (bit : Bool) (acc : Word32) (n : Nat) : Word32 := if bit then setOnes acc n (n + 1) else acc

/-- The bit at position `j` of a bit sequence that stands from position `n` up. -/
def bitAt (n : Nat) (bits : List Bool) (j : Nat) : Bool := decide (n ≤ j) && bits.getD (j - n) false

theorem getLsbD_accBit (bit : Bool) (acc : Word32) (n : Nat) {j : Nat} (hj : j < 32) :
    (accBit bit acc n).getLsbD j = (acc.getLsbD j || (decide (j = n) && bit)) := by
  unfold accBit
  cases bit with
  | true =>
    have hone : (decide (n ≤ j) && decide (j < n + 1)) = decide (j = n) := by
      rw [← Bool.decide_and]
      exact decide_eq_decide.mpr (by omega)
    rw [if_pos rfl, getLsbD_setOnes _ _ _ _ hj, hone, Bool.and_true]
  | false => simp

theorem bitAt_cons (n : Nat) (bit : Bool) (bits : List Bool) (j : Nat) :
    bitAt n (bit :: bits) j = (decide (j = n) && bit || bitAt (n + 1) bits j) := by
  unfold bitAt
  rcases Nat.lt_trichotomy j n with hlt | rfl | hgt
  · simp [hlt.ne, show ¬ n ≤ j by omega, show ¬ n + 1 ≤ j by omega]
  · simp
  · obtain ⟨k, rfl⟩ := Nat.exists_eq_add_of_lt hgt
    simp [show n + k + 1 - n = k + 1 by omega, show n + k + 1 - (n + 1) = k by omega,
      show n ≤ n + k + 1 by omega, show n + k + 1 ≠ n by omega]

/-- One tape bit is added at CNT, and no LOW run flushes below FLUSH_MIN bits (R272, R273). -/
theorem addRun_bit (bit : Bool) (s : State) (hcnt : s.run.cnt.toNat < 30)
    (hlow : bit = false → s.run.cnt.toNat < 10) :
    addRun (if bit then .high else .low) 1 s = { s with run := { s.run with
      acc := accBit bit s.run.acc s.run.cnt.toNat
      cnt := BitVec.ofNat 5 (s.run.cnt.toNat + 1) } } := by
  have hbump : bumpCount s.run.cnt 1 = s.run.cnt.toNat + 1 := Nat.min_eq_left hcnt
  cases bit with
  | true => simp [addRun, highRun, hbump, accBit]
  | false =>
    have hstay : boundaryFlush s = s := if_neg (Nat.not_le.mpr (hlow rfl))
    simp [addRun, lowRun, hstay, addZeros, hbump, accBit]

/-- Tape bits whose 0-bits come before FLUSH_MIN are put into the accumulator in order, and nothing else
happens (R146, R278). -/
theorem addBits_accumulates (bits : List Bool) : ∀ s : State, s.run.cnt.toNat + bits.length ≤ 30 →
    (∀ i, bits[i]? = some false → s.run.cnt.toNat + i < 10) →
    ∃ acc, addBits bits s = { s with run := { s.run with
        acc := acc, cnt := BitVec.ofNat 5 (s.run.cnt.toNat + bits.length) } } ∧
      ∀ j < 32, acc.getLsbD j = (s.run.acc.getLsbD j || bitAt s.run.cnt.toNat bits j) := by
  induction bits with
  | nil => exact fun s _ _ => ⟨s.run.acc, by simp [addBits], by simp [bitAt]⟩
  | cons bit bits ih =>
    intro s hlen hlow
    rw [List.length_cons] at hlen
    have hbit := addRun_bit bit s (by omega) fun h => hlow 0 (by rw [h]; rfl)
    generalize ht : addRun (if bit then .high else .low) 1 s = t at hbit
    have hcnt : t.run.cnt.toNat = s.run.cnt.toNat + 1 := by
      rw [hbit, BitVec.toNat_ofNat]
      omega
    obtain ⟨acc, heq, hacc⟩ := ih t (by omega) fun i hi => by
      have := hlow (i + 1) hi
      omega
    refine ⟨acc, ?_, fun j hj => ?_⟩
    · show addBits bits (addRun _ 1 s) = _
      rw [ht, heq, hcnt, hbit, List.length_cons, Nat.add_assoc, Nat.add_comm 1]
    · rw [hacc j hj, hcnt, hbit, getLsbD_accBit _ _ _ hj, bitAt_cons, Bool.or_assoc]

/-- The frame bits of a byte, added to an empty accumulator, stand in it from bit 0 up (R146). -/
theorem addBits_frameBits (b : Byte) {s : State} (hacc : s.run.acc = 0#32) (hcnt : s.run.cnt = 0#5) :
    ∃ acc, addBits (frameBits b) s = { s with run := { s.run with acc := acc, cnt := 11#5 } } ∧
      ∀ i < 11, acc.getLsbD i = frameBit b i := by
  have hn : s.run.cnt.toNat = 0 := by rw [hcnt]; rfl
  obtain ⟨acc, heq, hbits⟩ := addBits_accumulates (frameBits b) s
    (by rw [hn, length_frameBits]; decide) fun i hi => by
      have hlt : i < 11 := (List.getElem?_eq_some_iff.mp hi).1
      rw [frameBits_getElem? b hlt, Option.some_inj, frameBit] at hi
      by_contra hge
      rw [if_neg (by omega), if_neg (by omega)] at hi
      cases hi
  refine ⟨acc, by rw [heq, hn, length_frameBits], fun i hi => ?_⟩
  rw [hbits i (by omega), hacc, hn]
  simp [bitAt, frameBits_getElem? b hi]

end Sys2Proof.Machine

open Sys2Proof Sys2Proof.Machine

/-- Settles O39: bits 0 to 10 of the register are the frame bits of the byte. -/
theorem framedByteIsRecovered : Obligations.FramedByteIsRecovered :=
  fun b rest _ hc => frame_of_frameBits hc fun _ => getLsbD_framed b rest

/-- Settles O40: every 0-bit of a frame stands before FLUSH_MIN, so the bits accumulate without a flush. -/
theorem frameBitsAccumulateToTheByte : Obligations.FrameBitsAccumulateToTheByte := by
  intro b s hacc hcnt
  obtain ⟨acc, heq, hbits⟩ := addBits_frameBits b hacc hcnt
  obtain ⟨hok, hbyte⟩ := frame_of_frameBits (c := 11) le_rfl hbits
  simp only [heq]
  exact ⟨rfl, hok, hbyte, trivial⟩
end

section
/-! SUPPORT. A reader of the output stream, which takes a record off the front (30_encoding.md R151 to
R162), and O58. -/

namespace Sys2Proof.Machine

/-- A number of `w` bits from its first `k` bytes, least significant byte first, and the bytes after it. -/
def readUInt (w k : Nat) (bs : List Byte) : BitVec w × List Byte :=
  (BitVec.ofNat w (Nat.ofDigits 256 ((bs.take k).map BitVec.toNat)), bs.drop k)

/-- A byte string of the length it begins with, and the bytes after it (R151). -/
def readByteString (bs : List Byte) : List Byte × List Byte :=
  let (len, bs) := readUInt 16 2 bs
  (bs.take len.toNat, bs.drop len.toNat)

/-- The level with a number (R143). -/
def Level.ofCode (b : BitVec 2) : Level := if b = 0#2 then .low else if b = 1#2 then .high else .none

/-- The first record of a stream and the bytes after it, read field by field as its tag says (R152 to
R162); none for a TRACE, whose values are rounded, and for an unknown tag. -/
def readRecord : List Byte → Option (Record × List Byte)
  | [] => none
  | tag :: bs =>
    match tag.toNat with
    | 0x01 =>
      let (start, bs) := readUInt 64 8 bs
      let (level, bs) := readUInt 2 1 bs
      let (dur, bs) := readUInt 64 8 bs
      let (next, bs) := readUInt 2 1 bs
      some (.run start (.ofCode level) dur (.ofCode next), bs)
    | 0x02 =>
      let (data, bs) := readUInt 8 1 bs
      some (.byte data, bs)
    | 0x03 =>
      let (type, bs) := readUInt 2 1 bs
      some (.blockEmpty (.ofCode type), bs)
    | 0x04 =>
      let (type, bs) := readUInt 2 1 bs
      let (length, bs) := readUInt 16 2 bs
      some (.blockReport (.ofCode type) length, bs)
    | 0x05 =>
      let (length, bs) := readUInt 16 2 bs
      let (index, bs) := readUInt 32 4 bs
      let (ok, bs) := readUInt 1 1 bs
      let (computed, bs) := readUInt 16 2 bs
      let (expected, bs) := readUInt 16 2 bs
      let (delta, bs) := readUInt 16 2 bs
      some (.dataReport length index (ok == 1#1) computed expected delta, bs)
    | 0x06 =>
      let (length, bs) := readUInt 16 2 bs
      let (blocks, bs) := readUInt 32 4 bs
      let (errors, bs) := readUInt 32 4 bs
      some (.endReport length blocks errors, bs)
    | 0x07 =>
      let (payload, bs) := readByteString bs
      some (.fileOpen payload, bs)
    | 0x08 =>
      let (bytes, bs) := readByteString bs
      some (.fileAppend bytes, bs)
    | 0x09 => some (.fileClose, bs)
    | 0x0A => some (.captureClose, bs)
    | _ => none

@[simp] theorem Level.ofCode_code (l : Level) : Level.ofCode l.code = l := by cases l <;> rfl

@[simp] theorem BlockType.ofCode_code (t : BlockType) : BlockType.ofCode t.code = t := by
  cases t <;> rfl

/-- The bytes of a number are its digits to base 256. -/
theorem ofDigits_bytesLE (k v : Nat) :
    Nat.ofDigits 256 ((bytesLE k v).map BitVec.toNat) = v % 256 ^ k := by
  induction k generalizing v with
  | zero => simp [bytesLE, Nat.mod_one]
  | succ k ih =>
    rw [bytesLE_succ, List.map_cons, Nat.ofDigits_cons, ih, BitVec.toNat_ofNat, pow_succ' 256]
    exact Nat.mod_mul.symm

/-- A number that fits the bytes it is sent in is read back. -/
@[simp] theorem readUInt_bytesLE {w k : Nat} (h : w ≤ 8 * k) (x : BitVec w) (bs : List Byte) :
    readUInt w k (bytesLE k x.toNat ++ bs) = (x, bs) := by
  have hx : x.toNat < 256 ^ k := by
    calc x.toNat < 2 ^ w := x.isLt
      _ ≤ 2 ^ (8 * k) := Nat.pow_le_pow_right two_pos h
      _ = 256 ^ k := by rw [Nat.pow_mul]
  simp [readUInt, ofDigits_bytesLE, Nat.mod_eq_of_lt hx]

@[simp] theorem readUInt_byte (b : Byte) (bs : List Byte) : readUInt 8 1 (b :: bs) = (b, bs) := by
  simp [readUInt]

@[simp] theorem readUInt_bool (b : Bool) (bs : List Byte) :
    readUInt 1 1 (bytesLE 1 b.toNat ++ bs) = (BitVec.ofBool b, bs) := by
  rw [← BitVec.toNat_ofBool, readUInt_bytesLE (by decide)]

/-- A byte string that fits its length field is read back. -/
theorem readByteString_byteString {p : List Byte} (h : p.length < 2 ^ 16) (bs : List Byte) :
    readByteString (byteString p ++ bs) = (p, bs) := by
  have hlen : (BitVec.ofNat 16 p.length).toNat = p.length := by
    rw [BitVec.toNat_ofNat, Nat.mod_eq_of_lt h]
  have hread : readUInt 16 2 (byteString p ++ bs) = (BitVec.ofNat 16 p.length, p ++ bs) := by
    rw [byteString, List.append_assoc, ← hlen, readUInt_bytesLE (by decide), hlen]
  simp only [readByteString, hread, hlen, List.take_left, List.drop_left]

/-- The reader undoes the wire form. -/
theorem readRecord_wire {r : Record} (h : r.wireExact = true) (bs : List Byte) :
    readRecord (r.wire ++ bs) = some (r, bs) := by
  cases r with
  | run start level dur next => simp [Record.wire, Record.fields, Record.tag, readRecord]
  | byte data => simp [Record.wire, Record.fields, Record.tag, readRecord]
  | blockEmpty type => simp [Record.wire, Record.fields, Record.tag, readRecord]
  | blockReport type length => simp [Record.wire, Record.fields, Record.tag, readRecord]
  | dataReport length index ok computed expected delta =>
    have hok : (BitVec.ofBool ok == 1#1) = ok := by cases ok <;> rfl
    simp [Record.wire, Record.fields, Record.tag, readRecord, hok]
  | endReport length blocks errors => simp [Record.wire, Record.fields, Record.tag, readRecord]
  | fileOpen payload =>
    simp [Record.wire, Record.fields, Record.tag, readRecord,
      readByteString_byteString (of_decide_eq_true h)]
  | fileAppend bytes =>
    simp [Record.wire, Record.fields, Record.tag, readRecord,
      readByteString_byteString (of_decide_eq_true h)]
  | fileClose => rfl
  | captureClose => rfl
  | trace n s y o gain => cases h

end Sys2Proof.Machine

open Sys2Proof Sys2Proof.Machine

/-- Settles O58: two equal streams are read alike. -/
theorem wireFormIsUniquelyReadable : Obligations.WireFormIsUniquelyReadable := by
  intro r r' xs ys hr hr' heq
  have hread := congrArg readRecord heq
  rw [readRecord_wire hr, readRecord_wire hr', Option.some_inj, Prod.mk.injEq] at hread
  exact hread
end

section
/-! SUPPORT. The values a SENDBYTE sends, one bit per sample (30_encoding.md R165, R166), and O60. -/

namespace Sys2Proof.Machine

/-- The value of a sample after another: the same at a 1, the negative at a 0 (R165). -/
def nextValue (v : NUM) (bit : Bool) : NUM := if bit then v else -v

/-- The values of a sequence of samples from PREV on, one bit each. -/
def sampleValues (prev : NUM) : List Bool → List NUM
  | [] => []
  | bit :: bits => nextValue prev bit :: sampleValues (nextValue prev bit) bits

/-- One bit per sample: each tone bit `m` times. -/
def sampleBits (m : Nat) (bits : List Bool) : List Bool := bits.flatMap (List.replicate m)

/-! ### The values -/

theorem nextValue_eq_or {v prev : NUM} (bit : Bool) (h : v = prev ∨ v = -prev) :
    nextValue v bit = prev ∨ nextValue v bit = -prev := by
  cases bit
  · exact h.symm.imp neg_eq_iff_eq_neg.mpr (congrArg Neg.neg)
  · exact h

theorem mul_nextValue (v : NUM) (bit : Bool) :
    v * nextValue v bit = if bit then v * v else -(v * v) := by
  cases bit
  · exact mul_neg v v
  · rfl

theorem length_sampleValues (prev : NUM) (bits : List Bool) :
    (sampleValues prev bits).length = bits.length := by
  induction bits generalizing prev with
  | nil => rfl
  | cons bit bits ih => simp [sampleValues, ih]

theorem sampleValues_append (prev : NUM) (bits bits' : List Bool) :
    sampleValues prev (bits ++ bits') =
      sampleValues prev bits ++ sampleValues (bits.foldl nextValue prev) bits' := by
  induction bits generalizing prev with
  | nil => rfl
  | cons bit bits ih => simp [sampleValues, ih]

/-- A scan that starts at PREV or −PREV stays there. -/
theorem eq_or_of_mem_sampleValues {prev start v : NUM} {bits : List Bool}
    (hstart : start = prev ∨ start = -prev) (h : v ∈ sampleValues start bits) :
    v = prev ∨ v = -prev := by
  induction bits generalizing start with
  | nil => cases h
  | cons bit bits ih =>
    rcases List.mem_cons.mp h with rfl | h
    · exact nextValue_eq_or bit hstart
    · exact ih (nextValue_eq_or bit hstart) h

/-- The value before sample `k`: PREV before the first. -/
def valueBefore (prev : NUM) (vs : List NUM) (k : Nat) : NUM :=
  if k = 0 then prev else vs.getD (k - 1) 0

/-- Each value follows from the one before it by its bit. -/
theorem sampleValues_getD (prev : NUM) {bits : List Bool} {k : Nat} (h : k < bits.length) :
    (sampleValues prev bits).getD k 0 =
      nextValue (valueBefore prev (sampleValues prev bits) k) (bits.getD k false) := by
  induction bits generalizing prev k with
  | nil => cases h
  | cons bit bits ih =>
    cases k with
    | zero => rfl
    | succ k =>
      have hk := ih (nextValue prev bit) (Nat.lt_of_succ_lt_succ h)
      cases k <;> simpa [sampleValues, valueBefore] using hk

theorem valueBefore_mul_self {prev : NUM} {bits : List Bool} {k : Nat} (h : k < bits.length) :
    valueBefore prev (sampleValues prev bits) k * valueBefore prev (sampleValues prev bits) k =
      prev * prev := by
  have hor : valueBefore prev (sampleValues prev bits) k = prev ∨
      valueBefore prev (sampleValues prev bits) k = -prev := by
    unfold valueBefore
    split
    · exact .inl rfl
    · have hlt : k - 1 < (sampleValues prev bits).length := by
        rw [length_sampleValues]
        omega
      rw [List.getD_eq_getElem _ _ hlt]
      exact eq_or_of_mem_sampleValues (.inl rfl) (List.getElem_mem hlt)
  rcases hor with hv | hv <;> rw [hv]
  exact neg_mul_neg prev prev

/-! ### The tones -/

theorem toneHigh_eq (prev : NUM) (m : Nat) :
    toneHigh prev m = (sampleValues prev (List.replicate m true)).map asmSample := by
  induction m with
  | zero => rfl
  | succ m ih => exact congrArg (asmSample prev :: ·) ih

theorem toneLow_eq (prev : NUM) (m : Nat) :
    toneLow prev m = (sampleValues prev (List.replicate m false)).map asmSample := by
  induction m generalizing prev with
  | zero => rfl
  | succ m ih => exact congrArg (asmSample (-prev) :: ·) (ih (-prev))

/-- PREV after a tone is its last value (R165). -/
theorem prevAfterTone_eq_foldl (bit : Bool) (prev : NUM) (m : Nat) :
    prevAfterTone bit prev m = (List.replicate m bit).foldl nextValue prev := by
  induction m generalizing prev with
  | zero => simp [prevAfterTone]
  | succ m ih =>
    rw [List.replicate_succ, List.foldl_cons, ← ih]
    cases bit
    · rcases Nat.mod_two_eq_zero_or_one m with h | h <;>
        simp [prevAfterTone, nextValue, h, Nat.add_mod]
    · simp [prevAfterTone, nextValue]

/-- A sequence of tones is the scan over its sample bits (R165). -/
theorem toneBits_eq (prev : NUM) (m : Nat) (bits : List Bool) :
    toneBits prev m bits = (sampleValues prev (sampleBits m bits)).map asmSample := by
  induction bits generalizing prev with
  | nil => rfl
  | cons bit bits ih =>
    have htone : (if bit then toneHigh prev m else toneLow prev m) =
        (sampleValues prev (List.replicate m bit)).map asmSample := by
      cases bit
      · exact toneLow_eq prev m
      · exact toneHigh_eq prev m
    rw [toneBits, htone, ih, prevAfterTone_eq_foldl, ← List.map_append, ← sampleValues_append]
    rfl

/-! ### The sample bits of a byte -/

theorem length_sampleBits (m : Nat) (bits : List Bool) :
    (sampleBits m bits).length = bits.length * m := by
  simp [sampleBits, List.length_flatMap]

theorem sampleBits_getElem? {m k : Nat} {bits : List Bool} (h : k < bits.length * m) :
    (sampleBits m bits)[k]? = bits[k / m]? := by
  have hm : 0 < m := Nat.pos_of_ne_zero fun h0 => by simp [h0] at h
  induction bits generalizing k with
  | nil => simp at h
  | cons bit bits ih =>
    rw [sampleBits, List.flatMap_cons]
    by_cases hk : k < m
    · rw [List.getElem?_append_left (by simpa using hk), Nat.div_eq_of_lt hk]
      simp [hk]
    · obtain ⟨j, rfl⟩ := Nat.exists_eq_add_of_le (Nat.le_of_not_lt hk)
      rw [List.length_cons, Nat.succ_mul, Nat.add_comm] at h
      rw [List.getElem?_append_right (by simp), Nat.add_div_left j hm, List.getElem?_cons_succ,
        List.length_replicate, Nat.add_sub_cancel_left]
      exact ih (by omega)

theorem sampleBits_frameBits_getD (b : Byte) {m k : Nat} (h : k < 11 * m) :
    (sampleBits m (frameBits b)).getD k false = frameBit b (k / m) := by
  have hk : k / m < 11 := Nat.div_lt_of_lt_mul (by rwa [Nat.mul_comm])
  rw [List.getD_eq_getElem?_getD, sampleBits_getElem? h, frameBits_getElem? b hk, Option.getD_some]

end Sys2Proof.Machine

open Sys2Proof Sys2Proof.Machine

/-- Settles O60: a SENDBYTE is a scan over its sample bits, which repeat each frame bit m times. -/
theorem sendByteExpandsToSamples : Obligations.SendByteExpandsToSamples := by
  intro prev b m
  have hlen : (sampleBits m (frameBits b)).length = 11 * m := by
    rw [length_sampleBits, length_frameBits]
  refine ⟨sampleValues prev (sampleBits m (frameBits b)), toneBits_eq prev m (frameBits b),
    (length_sampleValues _ _).trans hlen, fun v => eq_or_of_mem_sampleValues (.inl rfl), fun k hk => ?_⟩
  have hk' : k < (sampleBits m (frameBits b)).length := hk.trans_eq hlen.symm
  have hvalue := sampleValues_getD prev hk'
  rw [sampleBits_frameBits_getD b hk] at hvalue
  refine ⟨hvalue, ?_⟩
  rw [hvalue, ← valueBefore_mul_self (prev := prev) hk']
  exact mul_nextValue _ _
end

section
/-! SUPPORT. The host commands other than START and SAMPLE (40_host_commands.md R180 to R182, R185, R186),
O7, O8, O9, O15 and O16. -/

namespace Sys2Proof.Machine

/-- The two modes that do not accept a configuration command (R187). -/
theorem acceptsConfig_eq_false_iff (m : Mode) : m.acceptsConfig = false ↔ m = .run ∨ m = .fault := by
  cases m <;> simp [Mode.acceptsConfig]

theorem exec_cfgWrite_of_refuses (addr : Byte) (data : Word64) {s : State}
    (hm : s.mode.acceptsConfig = false) :
    exec (.cfgWrite addr data) s = .next (raise .illegalState (cmdInfo 0x01#8 addr) s) := by
  simp [exec, execCfgWrite, hm]

/-- An accepted CFG_WRITE to an address that is not writable raises ILLEGAL_ADDR (R181). -/
theorem exec_cfgWrite_of_writeCfg_none {addr : Byte} {data : Word64} {s : State}
    (hm : s.mode.acceptsConfig = true) (hw : writeCfg addr data s.cfg = none) :
    exec (.cfgWrite addr data) s = .next (raise .illegalAddr (cmdInfo 0x01#8 addr) s) := by
  simp [exec, execCfgWrite, hm, hw]

/-- The addresses above 0x0E are not writable (30_encoding.md R140). -/
theorem writeCfg_eq_none {addr : Byte} (h : 0x0E < addr.toNat) (data : Word64) (c : CfgRegs) :
    writeCfg addr data c = none := by
  unfold writeCfg
  split
  case h_16 => rfl
  all_goals omega

/-- The addresses no register has (R182). -/
theorem readReg_eq_none {addr : Byte} (h : addr = 0x0F#8 ∨ 0x19 ≤ addr.toNat) (s : State) :
    readReg addr s = none := by
  rcases h with rfl | h
  · rfl
  · unfold readReg
    split
    case h_25 => rfl
    all_goals omega

/-- A REG_READ of a reserved address answers 0 and raises ILLEGAL_ADDR (R182). -/
theorem exec_regRead_of_readReg_none {addr : Byte} (data : Word64) {s : State}
    (h : readReg addr s = none) : exec (.regRead addr data) s =
      .next (raise .illegalAddr (cmdInfo 0x02#8 addr) (respond 0#64 s)) := by
  simp [exec, execRegRead, h]

end Sys2Proof.Machine

open Sys2Proof Sys2Proof.Machine

/-- Settles O7: the meaning of NOP is the state it is given. -/
theorem nopHasNoEffect : Obligations.NopHasNoEffect := fun _ _ _ => rfl

/-- Settles O8: each address below 0x0F writes its register, and the kept bits are the low bits of DATA. -/
theorem cfgWriteFollowsItsRule : Obligations.CfgWriteFollowsItsRule := by
  intro addr data s
  refine ⟨fun hm => exec_cfgWrite_of_refuses addr data ((acceptsConfig_eq_false_iff _).mpr hm),
    fun hm => ?_⟩
  have haccepts : s.mode.acceptsConfig = true := (acceptsConfig_iff _).mpr (by simpa using hm)
  have hctrl : data.extractLsb' 0 6 = data.setWidth 6 :=
    (BitVec.setWidth_eq_extractLsb' (by decide)).symm
  have hword32 : data.extractLsb' 0 32 = data.setWidth 32 :=
    (BitVec.setWidth_eq_extractLsb' (by decide)).symm
  rw [hctrl, hword32]
  refine ⟨fun h => exec_cfgWrite_of_writeCfg_none haccepts (writeCfg_eq_none h data s.cfg), ?_⟩
  refine ⟨?_, ?_, ?_, ?_, ?_, ?_, ?_, ?_, ?_, ?_, ?_, ?_, ?_, ?_, ?_⟩ <;>
    exact exec_cfgWrite_of_writeCfg haccepts rfl

/-- Settles O9: each register is read by its own row of the register map, and no other address has one. -/
theorem regReadFollowsItsRule : Obligations.RegReadFollowsItsRule := fun data s =>
  ⟨rfl, rfl, rfl, rfl, rfl, rfl, rfl, rfl, rfl, rfl, rfl, rfl, rfl, rfl, rfl, rfl, rfl, rfl, rfl, rfl, rfl,
    rfl, rfl, rfl, fun _ haddr => exec_regRead_of_readReg_none data (readReg_eq_none haddr s)⟩

/-- Settles O15: the two closes as updates, FILE_CLOSE before CAPTURE_CLOSE. -/
theorem finishFollowsItsRule : Obligations.FinishFollowsItsRule := by
  refine fun addr data s => ⟨fun hm => ?_, fun hm => ?_⟩
  · simp only [exec, execFinish, if_pos hm]
    rfl
  · simp only [exec, execFinish, ne_eq, hm, not_true, if_false, closeCapture_eq, closeFile_eq]

/-- Settles O16: SOFT_RESET answers the reset state with the ports as they were. -/
theorem softResetResetsTheBlock : Obligations.SoftResetResetsTheBlock := by
  have hstatus : State.reset.status = 0x0008#64 := by decide
  exact fun _ _ _ => ⟨_, rfl, rfl, rfl, rfl, rfl, rfl, rfl, rfl, hstatus⟩
end

section
/-! SUPPORT. START's checks in their order (40_host_commands.md R183, 60_exceptions.md R344), O12. -/

namespace Sys2Proof.Machine

theorem exec_start_of_refuses (addr : Byte) (data : Word64) {s : State}
    (hm : s.mode.acceptsConfig = false) :
    exec (.start addr data) s = .next (raise .illegalState (cmdInfo 0x03#8 addr) s) := by
  simp [exec, execStart, hm]

/-- An accepted START raises the first error its checks find, which leaves IDLE (R183). -/
theorem exec_start_of_startError (addr : Byte) (data : Word64) {s : State} {e : ErrorCode}
    {info : Word64} (hm : s.mode.acceptsConfig = true) (he : startError s.cfg = some (e, info)) :
    exec (.start addr data) s = .next { s with mode := .idle, err := e.code, errInfo := info } := by
  rw [← modeAfter_of_startError s.mode he]
  simp [exec, execStart, hm, he, raise]

/-- An accepted START whose checks find no error begins a run (R183). -/
theorem exec_start_of_startError_none (addr : Byte) (data : Word64) {s : State}
    (hm : s.mode.acceptsConfig = true) (he : startError s.cfg = none) :
    exec (.start addr data) s = .next (beginRun s) := by
  simp [exec, execStart, hm, he]

section Checks
variable {c : CfgRegs}

theorem startError_sampleRate (hsr : c.sr = 0) : startError c = some (.cfgRate, 0x01#64) := by
  simp [startError, hsr]

theorem startError_baudRate (hsr : c.sr ≠ 0) (hbr : c.br = 0) :
    startError c = some (.cfgRate, 0x02#64) := by
  simp [startError, hsr, hbr]

variable (hsr : c.sr ≠ 0) (hbr : c.br ≠ 0)
include hsr hbr

theorem startError_agcZero (hd : c.agcdelay = 0) : startError c = some (.cfgAgcZero, 0x01#64) := by
  simp [startError, hsr, hbr, hd]

theorem startError_agcCapacity (hd : 256 ≤ c.agcdelay) :
    startError c = some (.cfgCapacity, 0x01#64) := by
  simp [startError, hsr, hbr, hd, show c.agcdelay ≠ 0 by omega]

variable (hd : c.agcdelay ≠ 0) (hlt : c.agcdelay < 256)
include hd hlt

theorem startError_delayCapacity (hk : 256 ≤ c.k) : startError c = some (.cfgCapacity, 0x03#64) := by
  simp [startError, hsr, hbr, hd, hlt, hk]

variable (hk : c.k < 256)
include hk

theorem startError_nonfinite {r : Word64 × Word64}
    (hr : c.binary64.find? (fun r => !finite64 r.2) = some r) :
    startError c = some (.cfgNonfinite, r.1) := by
  simp [startError, hsr, hbr, hd, not_le.mpr hlt, not_le.mpr hk, hr]

/-- With every register finite the order of the gains is the last check (R183). -/
theorem startError_finite (hfinite : ∀ r ∈ c.binary64, finite64 r.2 = true) :
    startError c = if c.gmax < c.gre then some (.cfgGainOrder, 0x05#64) else none := by
  have hnone : c.binary64.find? (fun r => !finite64 r.2) = none :=
    List.find?_eq_none.mpr fun r hr => by simp [hfinite r hr]
  simp [startError, hsr, hbr, hd, not_le.mpr hlt, not_le.mpr hk, hnone]

end Checks

/-- The j-th binary64 register has address 0x04 + j (R183). -/
theorem binary64_getElem_fst (c : CfgRegs) {j : Nat} (hj : j < c.binary64.length) :
    c.binary64[j].1 = BitVec.ofNat 64 (0x04 + j) := by
  have hj9 : j < 9 := hj
  interval_cases j <;> rfl

/-- The first register that is not finite is the one START's search finds (R183). -/
theorem find?_binary64 (c : CfgRegs) {j : Nat} (hj : j < 9)
    (hbad : finite64 ((c.binary64.map Prod.snd).getD j 0) = false)
    (hgood : ∀ i < j, finite64 ((c.binary64.map Prod.snd).getD i 0) = true) :
    ∃ v, c.binary64.find? (fun r => !finite64 r.2) = some (BitVec.ofNat 64 (0x04 + j), v) := by
  have hvalue (i : Nat) (hi : i < c.binary64.length) :
      (c.binary64.map Prod.snd).getD i 0 = c.binary64[i].2 := by
    simp [List.getD_eq_getElem?_getD, hi]
  have hj' : j < c.binary64.length := hj
  refine ⟨c.binary64[j].2, ?_⟩
  rw [← binary64_getElem_fst c hj', List.find?_eq_some_iff_getElem]
  refine ⟨?_, j, hj', rfl, fun i hi => ?_⟩
  · rw [← hvalue j hj', hbad]
    rfl
  · rw [← hvalue i (hi.trans hj'), hgood i hi]
    rfl

end Sys2Proof.Machine

open Sys2Proof Sys2Proof.Machine

/-- Settles O12: every clause is one check of START with the checks before it passed. -/
theorem startFollowsItsRule : Obligations.StartFollowsItsRule := by
  intro addr data s sr br k d regs fails
  have hdelay (hbr : br ≠ 0) : s.cfg.agcdelay = d := agcdelay_eq hbr
  refine ⟨fun hm => exec_start_of_refuses addr data ((acceptsConfig_eq_false_iff _).mpr hm),
    fun hm => ?_⟩
  have haccepts : s.mode.acceptsConfig = true := (acceptsConfig_iff _).mpr (by simpa using hm)
  have hfails {e : ErrorCode} {info : Nat}
      (he : startError s.cfg = some (e, BitVec.ofNat 64 info)) : fails e.code info :=
    exec_start_of_startError addr data haccepts he
  refine ⟨fun hsr => hfails (startError_sampleRate hsr),
    fun hsr hbr => hfails (startError_baudRate hsr hbr),
    fun hsr hbr hd => hfails (startError_agcZero hsr hbr (hdelay hbr ▸ hd)),
    fun hsr hbr hd => hfails (startError_agcCapacity hsr hbr (hdelay hbr ▸ hd)),
    fun hsr hbr hd hlt hk =>
      hfails (startError_delayCapacity hsr hbr (hdelay hbr ▸ hd) (hdelay hbr ▸ hlt) hk),
    fun hsr hbr hd hlt hk => ?_⟩
  rw [← hdelay hbr] at hd hlt ⊢
  refine ⟨fun j hj hbad hgood => ?_, fun hfinite => ?_⟩
  · obtain ⟨v, hv⟩ := find?_binary64 s.cfg hj hbad hgood
    exact hfails (startError_nonfinite hsr hbr hd hlt hk hv)
  · have hcheck := startError_finite hsr hbr hd hlt hk fun r hr =>
      hfinite r.2 (List.mem_map_of_mem (f := Prod.snd) hr)
    refine ⟨fun hgain => hfails (hcheck.trans (if_pos hgain)), fun hgain => ?_⟩
    exact exec_start_of_startError_none addr data haccepts (hcheck.trans (if_neg (not_lt.mpr hgain)))
end

section
/-! SUPPORT. The mode each command leaves (40_host_commands.md R187), O18. -/

namespace Sys2Proof.Machine

/-- The errors of START's checks are the CFG_* errors (60_exceptions.md R341). -/
theorem code_of_startError {c : CfgRegs} {e : ErrorCode} {info : Word64}
    (h : startError c = some (e, info)) : e.code ∈ [0x10#8, 0x11#8, 0x12#8, 0x13#8, 0x14#8] := by
  have hmode := modeAfter_of_startError .run h
  cases e with
  | cfgRate | cfgAgcZero | cfgCapacity | cfgNonfinite | cfgGainOrder => decide
  | illegalOpcode | illegalAddr | illegalState | badSample | indexOverflow => cases hmode

/-- Where a START is accepted it leaves RUN or IDLE (R187). -/
theorem modesAfter_start (addr : Byte) (data : Word64) {m : Mode} (h : m.acceptsConfig = true) :
    modesAfter (.start addr data) m = [.run, .idle] := by
  cases m with
  | idle | done => rfl
  | run | fault => cases h

/-- A cell that says ILLEGAL_STATE leaves the mode unchanged (R187). -/
theorem modesAfter_of_illegalIn {i : Instr} {m : Mode} (h : illegalIn i m = true) :
    modesAfter i m = [m] := by
  cases i with
  | nop | cfgWrite | regRead => rfl
  | start =>
    cases m with
    | run | fault => rfl
    | idle | done => cases h
  | sample | finish =>
    cases m with
    | idle | done | fault => rfl
    | run => cases h
  | softReset => cases h

/-- `t` is what R187's cell for the instruction and the mode of `s` allows. -/
def FollowsCell (i : Instr) (s t : State) : Prop :=
  t.mode ∈ modesAfter i s.mode ∧
  (illegalIn i s.mode = true → t.mode = s.mode ∧ t.err = 0x03#8) ∧
  (illegalIn i s.mode = false → t.err = 0x03#8 → s.err = 0x03#8) ∧
  (∀ a d, i = .start a d → illegalIn i s.mode = false → t.mode = .idle →
    t.err ∈ [0x10#8, 0x11#8, 0x12#8, 0x13#8, 0x14#8])

theorem followsCell_of_illegalIn {i : Instr} {s : State} (h : illegalIn i s.mode = true)
    (info : Word64) : FollowsCell i s (raise .illegalState info s) := by
  refine ⟨?_, fun _ => ⟨rfl, rfl⟩, fun hf => absurd (h.symm.trans hf) nofun,
    fun _ _ _ hf => absurd (h.symm.trans hf) nofun⟩
  rw [modesAfter_of_illegalIn h]
  exact List.mem_singleton.mpr rfl

/-- In the other cells ILLEGAL_STATE is not raised, and IDLE after a START means one of its errors. -/
theorem followsCell_of_accepted {i : Instr} {s t : State} (h : illegalIn i s.mode = false)
    (hmode : t.mode ∈ modesAfter i s.mode) (herr : t.err = 0x03#8 → s.err = 0x03#8)
    (hstart : ∀ a d, i = .start a d → t.mode = .idle →
      t.err ∈ [0x10#8, 0x11#8, 0x12#8, 0x13#8, 0x14#8]) : FollowsCell i s t :=
  ⟨hmode, fun ht => absurd (h.symm.trans ht) nofun, fun _ => herr, fun a d hi _ => hstart a d hi⟩

theorem followsCell_cfgWrite {addr : Byte} {data : Word64} {s t : State}
    (h : execCfgWrite addr data s = .next t) : FollowsCell (.cfgWrite addr data) s t := by
  rcases execCfgWrite_cases h with ⟨hm, rfl⟩ | ⟨hm, c, -, rfl⟩ | ⟨hm, -, rfl⟩
  · exact followsCell_of_illegalIn (by simp [illegalIn, hm]) _
  · exact followsCell_of_accepted (by simp [illegalIn, hm]) (List.mem_singleton.mpr rfl) id nofun
  · exact followsCell_of_accepted (by simp [illegalIn, hm]) (List.mem_singleton.mpr rfl) nofun nofun

theorem followsCell_regRead {addr : Byte} {data : Word64} {s t : State}
    (h : execRegRead addr s = .next t) : FollowsCell (.regRead addr data) s t := by
  rcases execRegRead_cases h with ⟨v, -, rfl⟩ | ⟨-, rfl⟩
  · exact followsCell_of_accepted rfl (List.mem_singleton.mpr rfl) id nofun
  · exact followsCell_of_accepted rfl (List.mem_singleton.mpr rfl) nofun nofun

theorem followsCell_start {addr : Byte} {data : Word64} {s t : State}
    (h : execStart addr s = .next t) : FollowsCell (.start addr data) s t := by
  rcases execStart_cases h with ⟨hm, rfl⟩ | ⟨hm, e, info, he, rfl⟩ | ⟨hm, -, rfl⟩
  · exact followsCell_of_illegalIn (by simp [illegalIn, hm]) _
  · have hcode := code_of_startError he
    refine followsCell_of_accepted (by simp [illegalIn, hm]) ?_ (fun h3 => ?_) fun _ _ _ _ => hcode
    · rw [modesAfter_start addr data hm, raise_mode, modeAfter_of_startError _ he]
      decide
    · rw [show e.code = 0x03#8 from h3] at hcode
      exact absurd hcode (by decide)
  · refine followsCell_of_accepted (by simp [illegalIn, hm]) ?_ nofun nofun
    rw [modesAfter_start addr data hm]
    exact List.mem_cons_self

theorem followsCell_sample {addr : Byte} {data : Word64} {s t : State}
    (h : execSample addr data s = .next t) : FollowsCell (.sample addr data) s t := by
  rcases execSample_cases h with ⟨hm, rfl⟩ | ⟨hm, -, rfl⟩ | ⟨hm, -, -, rfl⟩ | ⟨hm, -, -, rfl⟩
  · exact followsCell_of_illegalIn (by simp [illegalIn, hm]) _
  all_goals
    have hlegal : illegalIn (.sample addr data) s.mode = false := by simp [illegalIn, hm]
    have hafter : modesAfter (.sample addr data) s.mode = [.run, .fault] := by rw [hm]; rfl
    have hfault : Mode.fault ∈ modesAfter (.sample addr data) s.mode := by simp [hafter]
  · exact followsCell_of_accepted hlegal hfault nofun nofun
  · exact followsCell_of_accepted hlegal hfault nofun nofun
  · obtain ⟨hmode, herr, -⟩ := sampleStep_control (f64 data) s
    refine followsCell_of_accepted hlegal ?_ (fun h3 => herr.symm.trans h3) nofun
    rw [hafter, hmode, hm]
    exact List.mem_cons_self

theorem followsCell_finish {addr : Byte} {data : Word64} {s t : State}
    (h : execFinish addr s = .next t) : FollowsCell (.finish addr data) s t := by
  rcases execFinish_cases h with ⟨hm, rfl⟩ | ⟨hm, rfl⟩
  · exact followsCell_of_illegalIn (by simp [illegalIn, hm]) _
  · have hkeeps := (keeps_closeFile s).trans (keeps_closeCapture _)
    refine followsCell_of_accepted (by simp [illegalIn, hm]) ?_ (fun h3 => hkeeps.err.symm.trans h3) nofun
    rw [hm]
    exact List.mem_singleton.mpr rfl

theorem followsCell_of_exec {i : Instr} {s t : State} (h : exec i s = .next t) :
    FollowsCell i s t := by
  cases i with
  | nop addr data =>
    cases next_inj h
    exact followsCell_of_accepted rfl (List.mem_singleton.mpr rfl) id nofun
  | cfgWrite addr data => exact followsCell_cfgWrite h
  | regRead addr data => exact followsCell_regRead h
  | start addr data => exact followsCell_start h
  | sample addr data => exact followsCell_sample h
  | finish addr data => exact followsCell_finish h
  | softReset addr data =>
    cases next_inj h
    exact followsCell_of_accepted rfl (List.mem_singleton.mpr rfl) nofun nofun

end Sys2Proof.Machine

open Sys2Proof Sys2Proof.Machine

/-- Settles O18: each instruction's outcomes lie in its row, and a reserved OP is refused in every mode. -/
theorem modesFollowTheTable : Obligations.ModesFollowTheTable := by
  refine ⟨fun i s t h => followsCell_of_exec h, fun s t c rest hin hop h => ?_⟩
  cases next_inj ((step_of_reserved_op hin hop).symm.trans h)
  exact ⟨rfl, rfl⟩
end

section
/-! SUPPORT. The refusals of a SAMPLE and the stages of an accepted one
(40_host_commands.md R184), O23 and O28. -/

namespace Sys2Proof.Machine

/-- The pattern of a NaN or an infinity has an exponent field of all ones (00_scope.md R11). -/
theorem finite64_eq_false_iff (b : Word64) : finite64 b = false ↔ b.extractLsb' 52 11 = 0x7FF#11 := by
  simp [finite64, f64Exp, ← BitVec.toNat_inj]

theorem exec_sample_of_not_run (addr : Byte) (data : Word64) {s : State} (hm : s.mode ≠ .run) :
    exec (.sample addr data) s = .next (raise .illegalState (cmdInfo 0x04#8 addr) s) := by
  simp [exec, execSample, hm]

theorem exec_sample_nonfinite (addr : Byte) {data : Word64} {s : State} (hm : s.mode = .run)
    (hf : finite64 data = false) :
    exec (.sample addr data) s = .next (raise .badSample s.run.n s) := by
  simp [exec, execSample, hm, hf]

theorem exec_sample_last_index (addr : Byte) {data : Word64} {s : State} (hm : s.mode = .run)
    (hf : finite64 data = true) (hn : s.run.n = 0xFFFFFFFFFFFFFFFF#64) :
    exec (.sample addr data) s = .next (raise .indexOverflow s.run.n s) := by
  simp [exec, execSample, hm, hf, hn]

/-- A step has at most one TRACE record (42_filter_slicer.md R247). -/
theorem length_traceRecords_le (x : NUM) (s : State) : (traceRecords x s).length ≤ 1 := by
  unfold traceRecords
  split <;> simp

/-- The front end as one update, its rings and W read from the state after the step. -/
theorem sampleFront_eq_of_sampleStep (x : NUM) (s : State) : sampleFront x s = { s with
    records := s.records ++ traceRecords x s
    run := { s.run with
      ringS := (sampleStep x s).run.ringS, ringP := (sampleStep x s).run.ringP
      ringX := (sampleStep x s).run.ringX, ringY := (sampleStep x s).run.ringY
      w := (sampleStep x s).run.w } } := by
  obtain ⟨hS, hP, hX, hY, hw, -⟩ := sampleStep_signal x s
  rw [hS, hP, hX, hY, hw]
  exact sampleFront_eq x s

/-- A step whose level stays is its front end and the next index (42_filter_slicer.md R245). -/
theorem sampleStep_of_lvl_eq {x : NUM} {s : State} (h : (sampleStep x s).run.lvl = s.run.lvl) :
    sampleStep x s = advance (sampleFront x s) := by
  have hlvl : sampleLevel x s = (sampleFront x s).run.lvl := by
    rw [← sampleStep_lvl, h, sampleFront_run]
  rcases sampleEvent_cases (sampleLevel x s) (sampleFront x s) with ⟨-, he⟩ | ⟨hne, -⟩
  · rw [sampleStep, he]
  · exact absurd hlvl hne

/-- A step whose level is a new one runs LevelChange on it before the next index (R245). -/
theorem sampleStep_of_lvl_ne {x : NUM} {s : State} (h : (sampleStep x s).run.lvl ≠ s.run.lvl) :
    sampleStep x s = advance (levelChange (sampleStep x s).run.lvl (sampleFront x s)) := by
  have hlvl : sampleLevel x s ≠ (sampleFront x s).run.lvl := by
    rwa [← sampleStep_lvl, sampleFront_run]
  rcases sampleEvent_cases (sampleLevel x s) (sampleFront x s) with ⟨heq, -⟩ | ⟨-, he⟩
  · exact absurd heq hlvl
  · rw [sampleStep_lvl, sampleStep, he]

end Sys2Proof.Machine

open Sys2Proof Sys2Proof.Machine

/-- Settles O23: the three checks of a SAMPLE, each with those before it passed. -/
theorem sampleErrorsInOrder : Obligations.SampleErrorsInOrder := by
  refine fun addr data s => ⟨fun hm => exec_sample_of_not_run addr data hm, fun hm hd => ?_,
    fun hm hd hn => ?_⟩
  · exact exec_sample_nonfinite addr hm ((finite64_eq_false_iff _).mpr hd)
  · refine exec_sample_last_index addr hm ?_ hn
    exact Bool.eq_true_of_not_eq_false (mt (finite64_eq_false_iff _).mp hd)

/-- Settles O28: the front end is the signal path and the trace, and the event stage is LevelChange exactly
where the classified level is a new one. -/
theorem sampleRunsTheLevelChange : Obligations.SampleRunsTheLevelChange := by
  intro addr data s hm hf hn
  refine ⟨sampleStep (f64 data) s, traceRecords (f64 data) s, execSample_run hm hf hn,
    length_traceRecords_le _ s, ?_⟩
  intro front changed
  have hfront : sampleFront (f64 data) s = front := sampleFront_eq_of_sampleStep _ s
  refine ⟨fun hlvl => ?_, fun hlvl => ?_⟩
  · exact (sampleStep_of_lvl_eq hlvl).trans (congrArg advance hfront)
  · have hindex : changed.run.n = s.run.n := (keeps_levelChange _ front).n
    have hstep := sampleStep_of_lvl_ne hlvl
    rw [hfront] at hstep
    rw [← hindex]
    exact hstep
end

section
/-! SUPPORT. A SAMPLE hands at most one byte to capture and parser, because a second flush finds an empty
accumulator (43_symbol_timer.md R273, R275, 44_byte_framer.md R292), O29 and O30. -/

namespace Sys2Proof.Machine

/-! ### The records appended and the buffers written on the way from one state to another -/

/-- From `s` to `t` records are only appended, at most `k` of them BYTE records. -/
def AppendsBytes (k : Nat) (s t : State) : Prop :=
  ∃ new, t.records = s.records ++ new ∧ new.countP Record.isByte ≤ k

theorem appendsBytes_of_records_eq {s t : State} (k : Nat) (h : t.records = s.records) :
    AppendsBytes k s t :=
  ⟨[], by simp [h], Nat.zero_le k⟩

theorem AppendsBytes.trans {j k : Nat} {s t u : State} (h : AppendsBytes j s t)
    (h' : AppendsBytes k t u) : AppendsBytes (j + k) s u := by
  obtain ⟨a, ha, hj⟩ := h
  obtain ⟨b, hb, hk⟩ := h'
  refine ⟨a ++ b, by rw [hb, ha, List.append_assoc], ?_⟩
  rw [List.countP_append]
  exact Nat.add_le_add hj hk

/-- From `s` to `t` no byte is stored or captured: HB and PB stay, and no BYTE record is appended. -/
structure Byteless (s t : State) : Prop where
  hb    : t.run.hb = s.run.hb
  pb    : t.run.pb = s.run.pb
  bytes : AppendsBytes 0 s t

theorem byteless_of_eq {s t : State} (hhb : t.run.hb = s.run.hb) (hpb : t.run.pb = s.run.pb)
    (hrecords : t.records = s.records) : Byteless s t :=
  ⟨hhb, hpb, appendsBytes_of_records_eq 0 hrecords⟩

theorem Byteless.refl (s : State) : Byteless s s := byteless_of_eq rfl rfl rfl

theorem Byteless.trans {s t u : State} (h : Byteless s t) (k : Byteless t u) : Byteless s u :=
  ⟨k.hb.trans h.hb, k.pb.trans h.pb, h.bytes.trans k.bytes⟩

theorem byteless_emit {r : Record} (h : r.isByte = false) (s : State) : Byteless s (emit r s) :=
  ⟨rfl, rfl, [r], rfl, by simp [h]⟩

/-- From `s` to `t` at most one byte is stored, at the count of the parser's state (R301, R302). -/
structure StoresOne (s t : State) : Prop where
  hb_other : ∀ (j : Nat) (h : j < 4), j ≠ s.run.hc.toNat → t.run.hb[j] = s.run.hb[j]
  hb       : s.run.pst ≠ .readHeader → t.run.hb = s.run.hb
  pb_other : ∀ a, a ≠ s.run.pcnt.toNat → Memory.read t.run.pb a = Memory.read s.run.pb a
  pb       : s.run.pst ≠ .readData → t.run.pb = s.run.pb

theorem StoresOne.refl (s : State) : StoresOne s s :=
  ⟨fun _ _ _ => rfl, fun _ => rfl, fun _ _ => rfl, fun _ => rfl⟩

theorem StoresOne.trans_byteless {s t u : State} (h : StoresOne s t) (k : Byteless t u) :
    StoresOne s u := by
  obtain ⟨h1, h2, h3, h4⟩ := h
  constructor <;> simpa only [k.hb, k.pb]

/-- The parser's state, counts and buffers at the start are all that is read there. -/
theorem StoresOne.congr {s s' t : State} (hpst : s'.run.pst = s.run.pst) (hhc : s'.run.hc = s.run.hc)
    (hhb : s'.run.hb = s.run.hb) (hpcnt : s'.run.pcnt = s.run.pcnt) (hpb : s'.run.pb = s.run.pb)
    (h : StoresOne s' t) : StoresOne s t := by
  obtain ⟨h1, h2, h3, h4⟩ := h
  rw [hpst, hhb] at h2
  rw [hpst, hpb] at h4
  exact ⟨by simpa only [hhc, hhb] using h1, h2, by simpa only [hpcnt, hpb] using h3, h4⟩

/-- From `s` to `t` at most one byte is handed to capture and parser. -/
structure OneByte (s t : State) : Prop where
  stores : StoresOne s t
  bytes  : AppendsBytes 1 s t

theorem OneByte.refl (s : State) : OneByte s s := ⟨.refl s, appendsBytes_of_records_eq 1 rfl⟩

theorem OneByte.trans_byteless {s t u : State} (h : OneByte s t) (k : Byteless t u) : OneByte s u :=
  ⟨h.stores.trans_byteless k, h.bytes.trans k.bytes⟩

/-- Before the byte the parser has to stay as it is, or the byte is stored elsewhere. -/
theorem OneByte.of_sameParser {s s' t : State} (hsame : SameParser s s') (hbytes : AppendsBytes 0 s s')
    (h : OneByte s' t) : OneByte s t := by
  refine ⟨h.stores.congr hsame.pst hsame.hc hsame.hb hsame.pcnt hsame.pb, ?_⟩
  simpa using hbytes.trans h.bytes

/-! ### Closes and dispatch -/

theorem byteless_closeFile (s : State) : Byteless s (closeFile s) := by
  unfold closeFile
  split
  · exact (byteless_emit rfl s).trans (byteless_of_eq rfl rfl rfl)
  · exact .refl s

theorem byteless_closeCapture (s : State) : Byteless s (closeCapture s) := by
  unfold closeCapture
  split
  · exact (byteless_emit rfl s).trans (byteless_of_eq rfl rfl rfl)
  · exact .refl s

theorem byteless_replaceFile (s : State) : Byteless s (replaceFile s) := by
  have hopen (u : State) : Byteless u (openFile u) :=
    (byteless_emit rfl u).trans (byteless_of_eq rfl rfl rfl)
  unfold replaceFile
  split
  · exact (byteless_closeFile s).trans (hopen _)
  · exact .refl s

theorem byteless_statistics (ok : Bool) (s : State) : Byteless s (statistics ok s) :=
  byteless_of_eq rfl rfl rfl

theorem byteless_fileAppend (s : State) : Byteless s (fileAppend s) := by
  unfold fileAppend
  split
  · exact byteless_emit rfl s
  · exact .refl s

/-- A dispatch reads PB and reports, but no BYTE record is a report (45_block_parser.md R305). -/
theorem byteless_dispatch (s : State) : Byteless s (dispatch s) := by
  unfold dispatch
  split
  · have hreset (u : State) : Byteless u (resetStatistics u) := byteless_of_eq rfl rfl rfl
    exact (byteless_emit rfl s).trans ((hreset _).trans (byteless_replaceFile _))
  · exact byteless_emit rfl s
  · exact (byteless_emit rfl s).trans ((byteless_statistics _ _).trans (byteless_fileAppend _))
  · exact (byteless_emit rfl s).trans (byteless_closeFile _)

theorem byteless_carrierLossActions (s : State) : Byteless s (carrierLossActions s) := by
  have hreset (u : State) : Byteless u (resetParser u) := by
    unfold resetParser
    split <;> exact byteless_of_eq rfl rfl rfl
  exact (byteless_closeFile s).trans ((byteless_closeCapture _).trans (hreset _))

/-! ### The parser, the framer and the symbol timer -/

theorem byteless_completeHeader (s : State) : Byteless s (completeHeader s) := by
  have hbegin (u : State) : Byteless u (beginBlock u) := by
    unfold beginBlock
    split
    · exact (byteless_emit rfl u).trans (byteless_of_eq rfl rfl rfl)
    · exact byteless_of_eq rfl rfl rfl
  have hheader (u : State) : Byteless u (setHeader u) := byteless_of_eq rfl rfl rfl
  unfold completeHeader
  split
  · exact (hheader s).trans (hbegin _)
  · exact .refl s

theorem byteless_completePayload (s : State) : Byteless s (completePayload s) := by
  unfold completePayload
  split
  · exact (byteless_dispatch s).trans (byteless_of_eq rfl rfl rfl)
  · exact .refl s

theorem storesOne_storeHeader (b : Byte) {s : State} (hpst : s.run.pst = .readHeader) :
    StoresOne s (storeHeader b s) where
  hb_other j h hj := (getElem_hbWrite _ _ j b h).trans (if_neg hj.symm)
  hb h := absurd hpst h
  pb_other _ _ := rfl
  pb _ := rfl

theorem storesOne_storePayload (b : Byte) {s : State} (hpst : s.run.pst = .readData) :
    StoresOne s (storePayload b s) where
  hb_other _ _ _ := rfl
  hb _ := rfl
  pb_other a ha := read_pbWrite_other _ _ a b ha
  pb h := absurd hpst h

/-- The parser stores its byte in the buffer of its state, or nowhere, and captures none (R300). -/
theorem parser_stores (b : Byte) (s : State) :
    StoresOne s (parser b s) ∧ AppendsBytes 0 s (parser b s) := by
  unfold parser
  split
  · have hwait : Byteless s (if b = sentinel then enterHeader s else s) := by
      split
      · exact byteless_of_eq rfl rfl rfl
      · exact .refl s
    exact ⟨(StoresOne.refl s).trans_byteless hwait, hwait.bytes⟩
  · next hpst =>
    have hcomplete := byteless_completeHeader (storeHeader b s)
    exact ⟨(storesOne_storeHeader b hpst).trans_byteless hcomplete, hcomplete.bytes⟩
  · next hpst =>
    have hcomplete := byteless_completePayload (storePayload b s)
    exact ⟨(storesOne_storePayload b hpst).trans_byteless hcomplete, hcomplete.bytes⟩

theorem captureOut_bytes (b : Byte) (s : State) : AppendsBytes 1 s (captureOut b s) := by
  unfold captureOut
  split
  · exact ⟨[.byte b], rfl, List.countP_le_length⟩
  · exact appendsBytes_of_records_eq 1 rfl

/-- A frame is captured once and parsed once, or dropped (44_byte_framer.md R293 to R295). -/
theorem oneByte_framer (r : Word32) (c : Nat) (s : State) : OneByte s (framer r c s) := by
  unfold framer
  split
  · obtain ⟨hstores, hbytes⟩ := parser_stores (frameByte r) (captureOut (frameByte r) s)
    have hrun := captureOut_run (frameByte r) s
    exact ⟨hstores.congr (by rw [hrun]) (by rw [hrun]) (by rw [hrun]) (by rw [hrun]) (by rw [hrun]),
      (captureOut_bytes _ s).trans hbytes⟩
  · exact .refl s

theorem oneByte_flush (s : State) : OneByte s (flush s) :=
  .of_sameParser (sameParser_clearBits s) (appendsBytes_of_records_eq 0 rfl) (oneByte_framer _ _ _)

theorem oneByte_endRun (new : Level) (s : State) : OneByte s (endRun new s) := by
  have hflush : OneByte s (lossFlush s) := by
    unfold lossFlush
    split
    · exact oneByte_flush s
    · exact .refl s
  unfold endRun
  split
  · exact hflush.trans_byteless (byteless_carrierLossActions _)
  · exact .refl s

/-- With an empty accumulator the flush of a carrier loss frames no byte (44_byte_framer.md R292). -/
theorem byteless_endRun (new : Level) {s : State} (hacc : s.run.acc = 0#32) :
    Byteless s (endRun new s) := by
  have hflush : Byteless s (lossFlush s) := by
    unfold lossFlush
    split
    · rw [flush_of_acc_zero s hacc]
      exact byteless_of_eq rfl rfl rfl
    · exact .refl s
  unfold endRun
  split
  · exact hflush.trans (byteless_carrierLossActions _)
  · exact .refl s

/-- Where the boundary flush runs it empties the accumulator, so that only one of the two flushes of a
LOW run that ends in NONE can frame a byte (43_symbol_timer.md R273, R275). -/
theorem oneByte_symbolTimer (prev : Level) (dur : Word64) (new : Level) (s : State) :
    OneByte s (symbolTimer prev dur new s) := by
  unfold symbolTimer
  cases prev with
  | high =>
    exact .of_sameParser (sameParser_highRun _ s) (appendsBytes_of_records_eq 0 rfl) (oneByte_endRun _ _)
  | none => exact oneByte_endRun new s
  | low =>
    show OneByte s (endRun new (lowRun (s.cfg.nbits dur) s))
    unfold lowRun boundaryFlush
    split
    · have hlow : OneByte s (addZeros (s.cfg.nbits dur) (flush s)) :=
        (oneByte_flush s).trans_byteless (byteless_of_eq rfl rfl rfl)
      have hacc : (addZeros (s.cfg.nbits dur) (flush s)).run.acc = 0#32 := flush_acc s
      exact hlow.trans_byteless (byteless_endRun new hacc)
    · exact .of_sameParser (sameParser_addZeros _ s) (appendsBytes_of_records_eq 0 rfl)
        (oneByte_endRun _ _)

/-! ### The step -/

theorem sampleFront_bytes (x : NUM) (s : State) : AppendsBytes 0 s (sampleFront x s) := by
  refine ⟨traceRecords x s, by rw [sampleFront_eq], ?_⟩
  unfold traceRecords
  split <;> simp [Record.isByte]

theorem enterLevel_runOut_bytes (new : Level) (s : State) :
    AppendsBytes 0 s (enterLevel new (runOut new s)) := by
  unfold runOut
  split
  · exact (byteless_emit rfl s).bytes
  · exact appendsBytes_of_records_eq 0 rfl

theorem oneByte_sampleEvent (new : Level) (s : State) : OneByte s (sampleEvent new s) := by
  rcases sampleEvent_cases new s with ⟨-, he⟩ | ⟨-, he⟩ <;> rw [he]
  · exact .refl s
  · exact .of_sameParser (sameParser_enterLevel_runOut new s) (enterLevel_runOut_bytes new s)
      (oneByte_symbolTimer _ _ _ _)

theorem oneByte_sampleStep (x : NUM) (s : State) : OneByte s (sampleStep x s) := by
  have hadvance (u : State) : Byteless u (advance u) := byteless_of_eq rfl rfl rfl
  exact .of_sameParser (sameParser_sampleFront x s) (sampleFront_bytes x s)
    ((oneByte_sampleEvent _ _).trans_byteless (hadvance _))

/-- A step whose level stays writes the rings, W and N and nothing else of the run (R184). -/
theorem sampleStep_run_of_lvl_eq {x : NUM} {s : State} (h : (sampleStep x s).run.lvl = s.run.lvl) :
    (sampleStep x s).run = { s.run with
      ringS := (sampleStep x s).run.ringS, ringP := (sampleStep x s).run.ringP
      ringX := (sampleStep x s).run.ringX, ringY := (sampleStep x s).run.ringY
      w := (sampleStep x s).run.w, n := (sampleStep x s).run.n } := by
  rw [sampleStep_of_lvl_eq h, sampleFront_eq]
  rfl

end Sys2Proof.Machine

open Sys2Proof Sys2Proof.Machine

/-- Settles O29: the byte of the step is stored by the parser as it stands before the step. -/
theorem sampleFrame : Obligations.SampleFrame := by
  intro addr data s hm hf hn
  obtain ⟨hmode, herr, hinfo, hcfg, hdelay, hinbox, hresponses⟩ := sampleStep_control (f64 data) s
  obtain ⟨hhb, hhbKept, hpb, hpbKept⟩ := (oneByte_sampleStep (f64 data) s).stores
  exact ⟨sampleStep (f64 data) s, execSample_run hm hf hn, hmode.trans hm, herr, hinfo, hcfg, hdelay,
    hinbox, hresponses, sampleStep_run_of_lvl_eq, hhb, hhbKept, hpb, hpbKept⟩

/-- Settles O30: a refused SAMPLE emits nothing, an accepted one hands on at most one byte. -/
theorem sampleCapturesAtMostOneByte : Obligations.SampleCapturesAtMostOneByte := by
  intro addr data s t h
  rcases execSample_cases h with ⟨-, rfl⟩ | ⟨-, -, rfl⟩ | ⟨-, -, -, rfl⟩ | ⟨-, -, -, rfl⟩
  · exact appendsBytes_of_records_eq 1 rfl
  · exact appendsBytes_of_records_eq 1 rfl
  · exact appendsBytes_of_records_eq 1 rfl
  · exact (oneByte_sampleStep (f64 data) s).bytes
end

section
/-! SUPPORT. The AGC window over a SAMPLE: the incremental update is the naive sum (41_agc.md R220, R221),
O47 and O24. -/

namespace Sys2Proof.Machine

/-- The window D long moves on by one index: it gains the newest power and loses the one that was D
samples old, the newest itself for D = 0. -/
theorem windowSum_advance (p : Ring) (n d : Nat) (v : NUM) (hd : d < 256) :
    windowSum (ringWrite p n v) (n + 1) d = windowSum p n d + v - hist (ringWrite p n v) n d := by
  have hlonger : windowSum (ringWrite p n v) (n + 1) d + hist (ringWrite p n v) n d =
      windowSum p n d + v := by
    rw [← hist_succ]
    exact windowSum_ringWrite p n d v hd
  exact eq_sub_of_add_eq hlonger

/-- The window sum after a SAMPLE (R220). -/
theorem sampleStep_w (x : NUM) (s : State) :
    (sampleStep x s).run.w =
      s.run.w + x * x - hist (sampleStep x s).run.ringP s.run.n.toNat s.agcDelay.toNat := by
  obtain ⟨-, hP, -, -, hw, -⟩ := sampleStep_signal x s
  rw [hw, hP, agcUpdate_w, ringAt_ringWrite_same]

/-- The incremental update keeps W the naive sum (R221). -/
theorem sampleStep_windowInv (x : NUM) {s : State} (hn : s.run.n ≠ 0xFFFFFFFFFFFFFFFF#64)
    (hs : s.WindowInv) : (sampleStep x s).WindowInv := by
  obtain ⟨hd, hsum⟩ := hs
  obtain ⟨-, hP, -, -, -, hN⟩ := sampleStep_signal x s
  obtain ⟨-, -, -, -, hdelay, -⟩ := sampleStep_control x s
  rw [State.WindowInv, sampleStep_w, hdelay, hP, hN, toNat_index_succ hn, windowSum_advance _ _ _ _ hd,
    hsum]
  exact ⟨hd, rfl⟩

theorem reset_windowInv : State.reset.WindowInv := ⟨by decide, rfl⟩

/-- D is checked where a run begins with an empty window, and W, P, N and D move only in a SAMPLE. -/
theorem Effect.windowInv {s t : State} (hs : s.WindowInv) (h : Effect s t) : t.WindowInv := by
  cases h with
  | refused run cfg agcDelay mode => rwa [State.WindowInv, run, agcDelay]
  | configured c accepts => exact hs
  | started accepts legal =>
    obtain ⟨-, -, -, hlt, -⟩ := startError_none legal
    exact ⟨(beginRun_agcDelay_toNat legal).trans_lt hlt, (windowSum_replicate_zero _ _).symm⟩
  | sampled x running index => exact sampleStep_windowInv x index hs
  | finished running =>
    have hk := (keeps_closeFile s).trans (keeps_closeCapture _)
    show (closeCapture (closeFile s)).WindowInv
    rwa [State.WindowInv, hk.agcDelay, hk.w, hk.ringP, hk.n]

end Sys2Proof.Machine

open Sys2Proof.Machine

/-- Settles O47: a SAMPLE moves the naive sum on as it does W, and START empties both and checks D. -/
theorem stepKeepsTheWindowSum : Obligations.StepKeepsTheWindowSum := fun _ _ hs h =>
  step_preserves (P := State.WindowInv) (fun _ _ hu => hu) (fun _ _ _ => reset_windowInv)
    (fun _ _ => Effect.windowInv) hs h

/-- Settles O24: S and P are written in slot n mod C, and the power that leaves W is read from the new P. -/
theorem sampleUpdatesTheAgcWindow : Obligations.SampleUpdatesTheAgcWindow := by
  intro addr data s hm hf hn
  refine ⟨sampleStep (f64 data) s, execSample_run hm hf hn, ?_⟩
  obtain ⟨hS, hP, -, -, -, hN⟩ := sampleStep_signal (f64 data) s
  refine ⟨fun m => ?_, fun m => ?_, sampleStep_w _ s, ?_⟩
  · rw [hS, ringAt_ringWrite]
  · rw [hP, ringAt_ringWrite]
  · rw [hN, toNat_index_succ hn]
end

section
/-! SUPPORT. A stream multiplied by c: each stage of the signal path keeps the states scaled
(41_agc.md R225, 42_filter_slicer.md R242, R248), and O31. -/

namespace Sys2Proof.Machine

/-! ### Rings multiplied by a factor -/

section Rings
variable {a : NUM} {b b' : Ring}

theorem hist_scaled (h : ∀ m, ringAt b' m = a * ringAt b m) (n lag : Nat) :
    hist b' n lag = a * hist b n lag := by
  unfold hist
  split
  · exact (mul_zero a).symm
  · exact h _

theorem ringWrite_scaled (h : ∀ m, ringAt b' m = a * ringAt b m) (n : Nat) (v : NUM) (m : Nat) :
    ringAt (ringWrite b' n (a * v)) m = a * ringAt (ringWrite b n v) m := by
  rw [ringAt_ringWrite, ringAt_ringWrite]
  split
  · rfl
  · exact h m

end Rings

/-! ### The stages of the signal path -/

section Stages
variable {c : NUM} {s t : State}

/-- The powers, and with them the window sum, are multiplied by c² (R220). -/
theorem Scaled.agcUpdate (h : Scaled c s t) (x : NUM) :
    Scaled c (agcUpdate x s) (agcUpdate (c * x) t) := by
  have hP (m : Nat) : ringAt (ringWrite t.run.ringP t.run.n.toNat (c * x * (c * x))) m =
      c * c * ringAt (ringWrite s.run.ringP s.run.n.toNat (x * x)) m := by
    rw [h.n, mul_mul_mul_comm]
    exact ringWrite_scaled h.ringP _ _ m
  have hS (m : Nat) : ringAt (ringWrite t.run.ringS t.run.n.toNat (c * x)) m =
      c * ringAt (ringWrite s.run.ringS s.run.n.toNat x) m := by
    rw [h.n]
    exact ringWrite_scaled h.ringS _ _ m
  refine ⟨h.cfg, h.agcDelay, h.n, h.lvl, hS, hP, h.ringX, h.ringY, ?_⟩
  rw [agcUpdate_w, agcUpdate_w, hP, hist_scaled hP, h.w, h.n, h.agcDelay]
  ring

/-- The product of two samples is multiplied by c² (42_filter_slicer.md R240). -/
theorem Scaled.demodProduct (h : Scaled c s t) (x : NUM) :
    Scaled c (demodProduct x s) (demodProduct (c * x) t) := by
  have hX (m : Nat) : ringAt (ringWrite t.run.ringX t.run.n.toNat
        (c * x * hist t.run.ringS t.run.n.toNat t.cfg.k)) m =
      c * c * ringAt (ringWrite s.run.ringX s.run.n.toNat
        (x * hist s.run.ringS s.run.n.toNat s.cfg.k)) m := by
    rw [h.n, h.cfg, hist_scaled h.ringS, mul_mul_mul_comm]
    exact ringWrite_scaled h.ringX _ _ m
  exact ⟨h.cfg, h.agcDelay, h.n, h.lvl, h.ringS, h.ringP, hX, h.ringY, h.w⟩

theorem Scaled.frontEnd (h : Scaled c s t) (x : NUM) : Scaled c (frontEnd x s) (frontEnd (c * x) t) :=
  (h.agcUpdate x).demodProduct x

/-- The filter is linear in X and Y (R241). -/
theorem Scaled.iirOutput_eq (h : Scaled c s t) : iirOutput t = c * c * iirOutput s := by
  unfold iirOutput
  rw [h.cfg, h.n]
  simp only [hist_scaled h.ringX, hist_scaled h.ringY]
  ring

theorem Scaled.storeOutput (h : Scaled c s t) (y : NUM) :
    Scaled c (storeOutput y s) (storeOutput (c * c * y) t) := by
  have hY (m : Nat) : ringAt (ringWrite t.run.ringY t.run.n.toNat (c * c * y)) m =
      c * c * ringAt (ringWrite s.run.ringY s.run.n.toNat y) m := by
    rw [h.n]
    exact ringWrite_scaled h.ringY _ _ m
  exact ⟨h.cfg, h.agcDelay, h.n, h.lvl, h.ringS, h.ringP, h.ringX, hY, h.w⟩

end Stages

/-! ### Gain and normalized output -/

/-- A gain divided by a number; INF stays INF. -/
def Gain.dividedBy (a : NUM) : Gain → Gain
  | .inf   => .inf
  | .val q => .val (q / a)

theorem Gain.dividedBy_eq_inf_iff (a : NUM) (g : Gain) : g.dividedBy a = .inf ↔ g = .inf := by
  cases g with
  | inf => exact iff_of_true rfl rfl
  | val q => exact iff_of_false nofun nofun

/-- The gain takes back what the filter output is multiplied by (42_filter_slicer.md R242). -/
theorem normOut_mul_dividedBy {a : NUM} (ha : a ≠ 0) (y : NUM) (g : Gain) :
    normOut (a * y) (g.dividedBy a) = normOut y g := by
  cases g with
  | inf => rfl
  | val q =>
    have hcancel : a * y * (q / a) = y * q := by rw [mul_comm a y, mul_assoc, mul_div_cancel₀ q ha]
    exact congrArg NormOut.val hcancel

/-- A finite gain is divided by c², and W = 0 in both states or in neither (41_agc.md R222, R225). -/
theorem Scaled.agcGain_eq {c : NUM} {s t : State} (h : Scaled c s t) (hc : c * c ≠ 0) :
    agcGain t = (agcGain s).dividedBy (c * c) := by
  unfold agcGain
  rw [h.w, h.agcDelay]
  by_cases hw : s.run.w = 0
  · rw [if_pos hw, if_pos (by rw [hw, mul_zero])]
    rfl
  · rw [if_neg hw, if_neg (mul_ne_zero hc hw), mul_comm, ← div_div]
    rfl

end Sys2Proof.Machine

open Sys2Proof.Machine

/-- Settles O31: filter output and window sum are both multiplied by c², which cancels in y · D / W. -/
theorem normalizedOutputIsScaleInvariant : Obligations.NormalizedOutputIsScaleInvariant := by
  intro c x s t hc h
  have hcc : c * c ≠ 0 := mul_ne_zero hc hc
  have hfront := h.frontEnd x
  have hfilter : sampleFilter (c * x) t = c * c * sampleFilter x s := hfront.iirOutput_eq
  have hgain : sampleGain (c * x) t = (sampleGain x s).dividedBy (c * c) := hfront.agcGain_eq hcc
  refine ⟨?_, ?_, fun q hq => ?_, ?_⟩
  · rw [sampleNorm, hfilter, hgain]
    exact normOut_mul_dividedBy hcc _ _
  · rw [hgain]
    exact Gain.dividedBy_eq_inf_iff _ _
  · rw [hgain, hq]
    rfl
  · rw [hfilter]
    exact hfront.storeOutput _
end

section
/-! SUPPORT. The level-run event of a SAMPLE and the records it begins with (42_filter_slicer.md R245 to
R247, 43_symbol_timer.md R271), O32 and O27. -/

namespace Sys2Proof.Machine

/-- The RUN record of a level-run event, if it is enabled (R246). -/
def runRecords (new : Level) (s : State) : List Record :=
  if s.cfg.runoutEn = true then [.run s.run.rs s.run.lvl (runDuration s) new] else []

/-- The RUN record, the new level and the new run start, as one update (R246). -/
theorem enterLevel_runOut_eq (new : Level) (s : State) : enterLevel new (runOut new s) = { s with
    records := s.records ++ runRecords new s
    run := { s.run with lvl := new, rs := s.run.n } } := by
  unfold runOut runRecords
  by_cases h : s.cfg.runoutEn = true
  · rw [if_pos h, if_pos h]
    rfl
  · rw [if_neg h, if_neg h, List.append_nil]
    rfl

/-- LevelChange from the state that has entered the new level: the ended run's bits, then the carrier
loss (R246, 43_symbol_timer.md R271). -/
theorem levelChange_eq (new : Level) (s : State) : levelChange new s =
    endRun new (addRun s.run.lvl (s.cfg.nbits (runDuration s)) (enterLevel new (runOut new s))) := by
  rw [levelChange, symbolTimer, enterLevel_runOut_eq]

/-- The records of a level change begin with its RUN record. -/
theorem levelChange_records (new : Level) (s : State) :
    ∃ caused, (levelChange new s).records = s.records ++ runRecords new s ++ caused := by
  obtain ⟨caused, h⟩ := (keeps_symbolTimer s.run.lvl (runDuration s) new
    (enterLevel new (runOut new s))).records
  rw [enterLevel_runOut_eq] at h
  exact ⟨caused, by rw [levelChange, enterLevel_runOut_eq, h]⟩

theorem levelChange_rs (new : Level) (s : State) : (levelChange new s).run.rs = s.run.n :=
  (keeps_levelChange new s).rs

theorem sampleFront_records (x : NUM) (s : State) :
    (sampleFront x s).records = s.records ++ traceRecords x s := by
  rw [sampleFront_eq]

/-- The front end moves neither RS, LVL nor N, which the RUN record reads (R246). -/
theorem runRecords_sampleFront (new : Level) (x : NUM) (s : State) :
    runRecords new (sampleFront x s) = runRecords new s := by
  rw [sampleFront_eq]
  rfl

/-- While the level stays, the TRACE record is all a step emits; with a new level the RUN record follows it,
and then what the event causes (R245 to R247). -/
theorem sampleStep_records (x : NUM) (s : State) : ∃ caused,
    ((sampleStep x s).run.lvl = s.run.lvl →
      (sampleStep x s).records = s.records ++ traceRecords x s) ∧
    ((sampleStep x s).run.lvl ≠ s.run.lvl → (sampleStep x s).records =
      s.records ++ traceRecords x s ++ runRecords (sampleStep x s).run.lvl s ++ caused) := by
  obtain ⟨caused, hevent⟩ := levelChange_records (sampleStep x s).run.lvl (sampleFront x s)
  rw [runRecords_sampleFront, sampleFront_records] at hevent
  refine ⟨caused, fun hstays => ?_, fun hchanges => ?_⟩
  · rw [sampleStep_of_lvl_eq hstays, advance_records, sampleFront_records]
  · exact (congrArg State.records (sampleStep_of_lvl_ne hchanges)).trans hevent

theorem sampleStep_rs_of_lvl_eq {x : NUM} {s : State} (h : (sampleStep x s).run.lvl = s.run.lvl) :
    (sampleStep x s).run.rs = s.run.rs := by
  rw [sampleStep_of_lvl_eq h, sampleFront_eq]
  rfl

theorem sampleStep_rs_of_lvl_ne {x : NUM} {s : State} (h : (sampleStep x s).run.lvl ≠ s.run.lvl) :
    (sampleStep x s).run.rs = s.run.n := by
  have hrs := levelChange_rs (sampleStep x s).run.lvl (sampleFront x s)
  rw [sampleFront_run] at hrs
  rw [sampleStep_of_lvl_ne h]
  exact hrs

/-- The TRACE record of a step, its values read from the state after it (R247). -/
theorem traceRecords_eq (x : NUM) (s : State) :
    let y := ringAt (sampleStep x s).run.ringY s.run.n.toNat
    let g : NUM := (s.agcDelay.toNat : NUM) / (sampleStep x s).run.w
    traceRecords x s =
      if s.cfg.traceEn = true ∧ s.cfg.traceLo.toNat ≤ s.run.n.toNat ∧
          s.run.n.toNat ≤ s.cfg.traceHi.toNat
      then [.trace s.run.n x y (if (sampleStep x s).run.w = 0 then .undef else .val (y * g))
        (if (sampleStep x s).run.w = 0 then .inf else .val g)]
      else [] := by
  have hy : ringAt (sampleStep x s).run.ringY s.run.n.toNat = sampleFilter x s := by
    obtain ⟨-, -, -, hY, -, -⟩ := sampleStep_signal x s
    rw [hY, ringAt_ringWrite_same]
  intro y g
  rw [traceRecords, sampleNorm_eq, sampleGain_eq, ← hy]

end Sys2Proof.Machine

open Sys2Proof Sys2Proof.Machine

/-- Settles O32: the symbol timer runs on the state that has entered the new level, and its last stage
acts for the level NONE only. -/
theorem levelChangeRunsTheSymbolTimer : Obligations.LevelChangeRunsTheSymbolTimer := by
  intro new s dur entered nb added
  have hentered : enterLevel new (runOut new s) = entered := enterLevel_runOut_eq new s
  have hchange : levelChange new s = endRun new added := by
    rw [levelChange_eq, hentered]
    rfl
  rw [hchange]
  exact ⟨fun h => if_neg h, fun h => if_pos h⟩

/-- Settles O27: the records of the front end are the TRACE record, those of a level change begin with
the RUN record. -/
theorem sampleEmitsTraceThenRun : Obligations.SampleEmitsTraceThenRun := by
  intro addr data s hm hf hn
  obtain ⟨caused, hstays, hchanges⟩ := sampleStep_records (f64 data) s
  refine ⟨sampleStep (f64 data) s, caused, execSample_run hm hf hn, ?_⟩
  intro y g trace event
  have htrace : traceRecords (f64 data) s = trace := traceRecords_eq _ s
  rw [← htrace]
  exact ⟨fun h => ⟨hstays h, sampleStep_rs_of_lvl_eq h⟩,
    fun h => ⟨hchanges h, sampleStep_rs_of_lvl_ne h⟩⟩
end

section
/-! SUPPORT. The filter output and the level of a SAMPLE, read from the state after it
(42_filter_slicer.md R240 to R243), O25 and O26. -/

namespace Sys2Proof.Machine

/-- Lag 0 of the filter input is the product of the step, which the front end has just written (R240). -/
theorem hist_frontEnd_newest (v : NUM) (s : State) :
    hist (frontEnd v s).run.ringX (frontEnd v s).run.n.toNat 0 =
      v * hist (sampleStep v s).run.ringS s.run.n.toNat s.cfg.k := by
  obtain ⟨hS, -⟩ := sampleStep_signal v s
  rw [hS, hist_zero_lag, frontEnd_eq, ringAt_ringWrite_same]

/-- The lags 1 to 255 of the filter input are those before the step (20_memory.md R105). -/
theorem hist_frontEnd_lag (v : NUM) (s : State) {lag : Nat} (h1 : 1 ≤ lag) (h2 : lag < 256) :
    hist (frontEnd v s).run.ringX (frontEnd v s).run.n.toNat lag = hist s.run.ringX s.run.n.toNat lag :=
  hist_ringWrite_lag _ _ _ _ h1 h2

/-- The third-order recurrence on the product of the step and on the products and outputs of the three
steps before it (R241). -/
theorem sampleFilter_eq (v : NUM) (s : State) :
    let n := s.run.n.toNat
    sampleFilter v s =
      f64 s.cfg.filtB0 * (v * hist (sampleStep v s).run.ringS n s.cfg.k)
        + f64 s.cfg.filtB1 * hist s.run.ringX n 1 + f64 s.cfg.filtB2 * hist s.run.ringX n 2
        + f64 s.cfg.filtB3 * hist s.run.ringX n 3
        - f64 s.cfg.filtA1 * hist s.run.ringY n 1 - f64 s.cfg.filtA2 * hist s.run.ringY n 2
        - f64 s.cfg.filtA3 * hist s.run.ringY n 3 := by
  rw [sampleFilter, iirOutput, hist_frontEnd_newest,
    hist_frontEnd_lag v s (lag := 1) (by decide) (by decide),
    hist_frontEnd_lag v s (lag := 2) (by decide) (by decide),
    hist_frontEnd_lag v s (lag := 3) (by decide) (by decide)]
  rfl

/-- An infinite gain is above every bound (00_scope.md R11). -/
theorem classify_inf (c : CfgRegs) (o : NormOut) (lvl : Level) : classify c .inf o lvl = .none :=
  if_pos (.inl rfl)

/-- The level of a step: carrier lost, LOW, HIGH, or kept in the hysteresis band (R243). -/
theorem sampleStep_lvl_eq (x : NUM) (s : State) :
    let g : NUM := (s.agcDelay.toNat : NUM) / (sampleStep x s).run.w
    let o : NUM := ringAt (sampleStep x s).run.ringY s.run.n.toNat * g
    (sampleStep x s).run.lvl =
      if (sampleStep x s).run.w = 0 ∨ s.cfg.gmax < g ∨ (s.run.lvl = .none ∧ s.cfg.gre < g) then .none
      else if o < 2 / 5 then .low else if 1 / 2 < o then .high else s.run.lvl := by
  intro g o
  rw [sampleStep_lvl, sampleLevel, sampleGain_eq, sampleNorm_eq]
  by_cases hw : (sampleStep x s).run.w = 0
  · rw [if_pos hw, classify_inf, if_pos (.inl hw)]
  · rw [if_neg hw, if_neg hw, classify_val]
    simp only [hw, false_or]
    rfl

end Sys2Proof.Machine

open Sys2Proof Sys2Proof.Machine

/-- Settles O25: X and Y are written in slot n mod C, after the lags 1 to 3 of the recurrence are read. -/
theorem sampleFiltersTheProduct : Obligations.SampleFiltersTheProduct := by
  intro addr data s hm hf hn
  refine ⟨sampleStep (f64 data) s, execSample_run hm hf hn, ?_⟩
  obtain ⟨hS, -, hX, hY, -, -⟩ := sampleStep_signal (f64 data) s
  intro n x y
  have hy : sampleFilter (f64 data) s = y := sampleFilter_eq _ s
  refine ⟨fun m => ?_, fun m => ?_⟩
  · rw [hX, ringAt_ringWrite, ← hS]
    rfl
  · rw [hY, ringAt_ringWrite, hy]

/-- Settles O26: each clause is one branch of the classification. -/
theorem sampleClassifiesTheTone : Obligations.SampleClassifiesTheTone := by
  intro addr data s hm hf hn
  refine ⟨sampleStep (f64 data) s, execSample_run hm hf hn, ?_⟩
  intro g o lost
  have hlvl : (sampleStep (f64 data) s).run.lvl = if lost then .none
      else if o < 2 / 5 then .low else if 1 / 2 < o then .high else s.run.lvl :=
    sampleStep_lvl_eq _ s
  rw [hlvl]
  refine ⟨fun h => if_pos h, fun h hlow => ?_, fun h hhigh => ?_, fun h hlo hhi => ?_⟩
  · rw [if_neg h, if_pos hlow]
  · have hlow : ¬ o < 2 / 5 := by linarith
    rw [if_neg h, if_neg hlow, if_pos hhigh]
  · rw [if_neg h, if_neg hlo.not_gt, if_neg hhi.not_gt]
end

section
/-! SUPPORT. The rounding division and the bit count of a run (00_scope.md R12, 43_symbol_timer.md R270),
and O33. -/

namespace Sys2Proof.Machine

theorem rnd_eq (p : Nat) {q : Nat} (hq : 0 < q) : rnd p q = (2 * p + q) / (2 * q) := if_neg hq.ne'

/-- `rnd p q` is the integer b with 2qb ≤ 2p + q < 2q(b + 1): nearest to p/q, ties up (R12). -/
theorem rnd_bounds (p : Nat) {q : Nat} (hq : 0 < q) :
    2 * q * rnd p q ≤ 2 * p + q ∧ 2 * p + q < 2 * q * (rnd p q + 1) := by
  rw [rnd_eq p hq]
  exact ⟨Nat.mul_div_le _ _, Nat.lt_mul_div_succ _ (by omega)⟩

theorem rnd_eq_zero_iff (p : Nat) {q : Nat} (hq : 0 < q) : rnd p q = 0 ↔ 2 * p < q := by
  rw [rnd_eq p hq, Nat.div_eq_zero_iff]
  omega

end Sys2Proof.Machine

open Sys2Proof Sys2Proof.Machine

/-- Settles O33: nbits is the rounding division of dur · BR by SR. -/
theorem nbitsRoundsHalfUp : Obligations.NbitsRoundsHalfUp := by
  intro c dur hsr p q
  have hq : 0 < q := Nat.pos_of_ne_zero fun h => hsr (BitVec.eq_of_toNat_eq h)
  obtain ⟨hle, hlt⟩ := rnd_bounds p hq
  exact ⟨hle, hlt, rnd_eq_zero_iff p hq⟩
end

section
/-! SUPPORT. The framer and the parser commute with a write to the accumulator (43_symbol_timer.md R276),
and O36. -/

namespace Sys2Proof.Machine

/-- ACC <- acc, CNT <- cnt. -/
def setTimer (acc : Word32) (cnt : BitVec 5) (s : State) : State :=
  { s with run := { s.run with acc := acc, cnt := cnt } }

/-- `f` commutes with a write to ACC and CNT: it neither reads nor writes them. -/
def IgnoresTimer (f : State → State) : Prop :=
  ∀ acc cnt s, f (setTimer acc cnt s) = setTimer acc cnt (f s)

/-- Stages that ignore the accumulator do so one after the other. -/
theorem IgnoresTimer.comp {f g : State → State} (hg : IgnoresTimer g) (hf : IgnoresTimer f) :
    IgnoresTimer fun s => g (f s) := fun acc cnt s =>
  (congrArg g (hf acc cnt s)).trans (hg acc cnt (f s))

/-- A choice between two such stages ignores the accumulator where its condition does. -/
theorem IgnoresTimer.ite {p : State → Prop} [DecidablePred p] {f g : State → State}
    (hp : ∀ acc cnt s, p (setTimer acc cnt s) ↔ p s) (hf : IgnoresTimer f) (hg : IgnoresTimer g) :
    IgnoresTimer fun s => if p s then f s else g s := by
  intro acc cnt s
  beta_reduce
  by_cases h : p s
  · rw [if_pos ((hp acc cnt s).mpr h), if_pos h, hf]
  · rw [if_neg (mt (hp acc cnt s).mp h), if_neg h, hg]

theorem ignoresTimer_id : IgnoresTimer fun s => s := fun _ _ _ => rfl

/-! ### Dispatch -/

theorem ignoresTimer_closeFile : IgnoresTimer closeFile :=
  .ite (fun _ _ _ => .rfl) (fun _ _ _ => rfl) ignoresTimer_id

theorem ignoresTimer_replaceFile : IgnoresTimer replaceFile :=
  .ite (fun _ _ _ => .rfl) (.comp (g := openFile) (fun _ _ _ => rfl) ignoresTimer_closeFile)
    ignoresTimer_id

theorem ignoresTimer_fileAppend : IgnoresTimer fileAppend :=
  .ite (fun _ _ _ => .rfl) (fun _ _ _ => rfl) ignoresTimer_id

/-- The reports, the statistics and the file read only the block, the statistics and FOPEN (R305). -/
theorem ignoresTimer_dispatch : IgnoresTimer dispatch := by
  intro acc cnt s
  have hbt : (setTimer acc cnt s).run.bt = s.run.bt := rfl
  unfold dispatch
  rw [hbt]
  cases s.run.bt with
  | title => exact ignoresTimer_replaceFile acc cnt (resetStatistics (emit _ s))
  | reserved => rfl
  | data => exact ignoresTimer_fileAppend acc cnt (statistics _ (emit _ s))
  | endBlock => exact ignoresTimer_closeFile acc cnt (emit _ s)

/-! ### The parser and the framer -/

/-- A header byte is stored at HC, and the fourth one completes the header (R301, R303). -/
theorem ignoresTimer_headerByte (b : Byte) : IgnoresTimer (headerByte b) := by
  have hbegin : IgnoresTimer beginBlock :=
    .ite (fun _ _ _ => .rfl) (fun _ _ _ => rfl) (fun _ _ _ => rfl)
  have hdecode : IgnoresTimer decodeHeader := fun acc cnt s => hbegin acc cnt (setHeader s)
  have hcomplete : IgnoresTimer completeHeader := .ite (fun _ _ _ => .rfl) hdecode ignoresTimer_id
  exact fun acc cnt s => hcomplete acc cnt (storeHeader b s)

/-- A payload byte is stored at PCNT, and the last one dispatches the block (R302). -/
theorem ignoresTimer_payloadByte (b : Byte) : IgnoresTimer (payloadByte b) := by
  have hdone : IgnoresTimer fun s => setPst .waitHeader (dispatch s) :=
    .comp (g := setPst .waitHeader) (fun _ _ _ => rfl) ignoresTimer_dispatch
  have hcomplete : IgnoresTimer completePayload := .ite (fun _ _ _ => .rfl) hdone ignoresTimer_id
  exact fun acc cnt s => hcomplete acc cnt (storePayload b s)

theorem ignoresTimer_parser (b : Byte) : IgnoresTimer (parser b) := by
  intro acc cnt s
  have hwait : IgnoresTimer fun s => if b = sentinel then enterHeader s else s :=
    .ite (fun _ _ _ => .rfl) (fun _ _ _ => rfl) ignoresTimer_id
  have hpst : (setTimer acc cnt s).run.pst = s.run.pst := rfl
  unfold parser
  rw [hpst]
  cases s.run.pst with
  | waitHeader => exact hwait acc cnt s
  | readHeader => exact ignoresTimer_headerByte b acc cnt s
  | readData => exact ignoresTimer_payloadByte b acc cnt s

theorem ignoresTimer_framer (r : Word32) (c : Nat) : IgnoresTimer (framer r c) := by
  have hcapture : IgnoresTimer (captureOut (frameByte r)) :=
    .ite (fun _ _ _ => .rfl) (fun _ _ _ => rfl) ignoresTimer_id
  exact .ite (fun _ _ _ => .rfl) (.comp (ignoresTimer_parser _) hcapture) ignoresTimer_id

end Sys2Proof.Machine

open Sys2Proof Sys2Proof.Machine

/-- Settles O36: every stage of framer and parser commutes with a write to ACC and CNT. -/
theorem framerIgnoresTheAccumulator : Obligations.FramerIgnoresTheAccumulator := by
  intro r c acc cnt s
  exact ⟨ignoresTimer_framer r c acc cnt s, framer_timer r c s⟩
end

section
/-! SUPPORT. A LOW run and a carrier loss as updates of the state after their flush (43_symbol_timer.md
R273, R275, R276, 45_block_parser.md R312), O35 and O37. -/

namespace Sys2Proof.Machine

/-- Below FLUSH_MIN bits a LOW run does not flush (R273). -/
theorem boundaryFlush_of_lt {s : State} (h : s.run.cnt.toNat < flushMin) : boundaryFlush s = s :=
  if_neg (Nat.not_le.mpr h)

theorem boundaryFlush_of_le {s : State} (h : flushMin ≤ s.run.cnt.toNat) : boundaryFlush s = flush s :=
  if_pos h

/-- After a flush the 0-bits stand in an empty accumulator (R273, R276). -/
theorem addZeros_flush (nb : Nat) (s : State) : addZeros nb (flush s) = { flush s with
    run := { (flush s).run with acc := 0#32, cnt := BitVec.ofNat 5 (min nb 30) } } := by
  have hbump : bumpCount 0#5 nb = min nb 30 := by simp [bumpCount]
  rw [addZeros, flush_cnt, hbump, ← flush_acc s]

/-- The two closes of R312 as one update, FILE_CLOSE before CAPTURE_CLOSE. -/
theorem closeCapture_closeFile_eq (s : State) : closeCapture (closeFile s) = { s with
    records := s.records ++ (if s.run.fopen then [.fileClose] else [])
      ++ (if s.run.capopen then [.captureClose] else [])
    run := { s.run with fopen := false, capopen := false } } := by
  rw [closeCapture_eq, closeFile_eq]

/-- A carrier loss flushes a nonempty accumulator only (R275). -/
theorem lossFlush_eq (s : State) : lossFlush s = if s.run.cnt = 0#5 then s else flush s := ite_not _ _ _

theorem resetParser_of_clKeep {s : State} (h : s.cfg.clKeep = true) : resetParser s = s := if_pos h

theorem resetParser_of_not_clKeep {s : State} (h : s.cfg.clKeep = false) : resetParser s = { s with
    run := { s.run with pst := .waitHeader, hc := 0#3, pcnt := 0#15 } } :=
  if_neg (ne_true_of_eq_false h)

end Sys2Proof.Machine

open Sys2Proof Sys2Proof.Machine

/-- Settles O35: a LOW run is the boundary flush, then its 0-bits on what the flush leaves. -/
theorem lowRunFlushesAtTheFrameBoundary : Obligations.LowRunFlushesAtTheFrameBoundary := by
  intro nb s
  refine ⟨fun hlt => ?_, fun hle => ?_⟩
  · rw [lowRun, boundaryFlush_of_lt hlt]
    rfl
  · rw [lowRun, boundaryFlush_of_le hle]
    exact addZeros_flush nb s

/-- Settles O37: the flush, the two closes as one update, and the parser reset as CL_KEEP says, which
neither the flush nor a close changes. -/
theorem carrierLossClosesAndResets : Obligations.CarrierLossClosesAndResets := by
  intro s flushed closed
  have hflushed : lossFlush s = flushed := lossFlush_eq s
  have hloss : carrierLost s = resetParser closed := by
    rw [carrierLost, carrierLossActions, hflushed, closeCapture_closeFile_eq]
  have hcfg : closed.cfg = s.cfg := by
    show flushed.cfg = s.cfg
    rw [← hflushed]
    exact (keeps_lossFlush s).cfg
  rw [hloss]
  exact ⟨fun hkeep => resetParser_of_clKeep (hcfg ▸ hkeep),
    fun hkeep => resetParser_of_not_clKeep (hcfg ▸ hkeep)⟩
end

section
/-! SUPPORT. The accumulator's bounds over a SAMPLE: bits stand below CNT, CNT stays within the cap, and a
carrier loss empties both (10_state.md R62, R63, 43_symbol_timer.md R277), and O50. -/

namespace Sys2Proof.Machine

/-- The accumulator holds at most BIT_CAP bits, all of them below CNT (R62, R63). -/
def State.BitsBounded (s : State) : Prop :=
  s.run.cnt.toNat ≤ bitCap ∧ s.run.acc.toNat < 2 ^ s.run.cnt.toNat

theorem bitsBounded_of_empty {s : State} (hacc : s.run.acc = 0#32) (hcnt : s.run.cnt = 0#5) :
    s.BitsBounded := by
  rw [State.BitsBounded, hacc, hcnt]
  decide

theorem timerInv_iff (s : State) :
    s.TimerInv ↔ s.BitsBounded ∧ (s.run.lvl = .none → s.run.cnt = 0#5) := and_assoc.symm

theorem timerInv_congr {s t : State} (hcnt : t.run.cnt = s.run.cnt) (hacc : t.run.acc = s.run.acc)
    (hlvl : t.run.lvl = s.run.lvl) (hs : s.TimerInv) : t.TimerInv := by
  rwa [State.TimerInv, hcnt, hacc, hlvl]

theorem reset_timerInv : State.reset.TimerInv := ⟨by decide, by decide, fun _ => rfl⟩

/-- The 1-bits of a HIGH run stand below the new CNT (R272). -/
theorem bitsBounded_highRun (nb : Nat) {s : State} (hs : s.BitsBounded) : (highRun nb s).BitsBounded := by
  obtain ⟨hcap, hacc⟩ := hs
  have hgrows := le_bumpCount s.run.cnt nb hcap
  rw [lt_two_pow_iff] at hacc
  unfold State.BitsBounded highRun
  rw [toNat_bumpCount, lt_two_pow_iff]
  refine ⟨bumpCount_le _ _, fun j hj h32 => ?_⟩
  rw [getLsbD_setOnes _ _ _ _ h32, hacc j (hgrows.trans hj) h32, decide_eq_false (Nat.not_lt.mpr hj),
    Bool.and_false, Bool.or_false]

/-- The 0-bits of a LOW run only raise CNT (R273). -/
theorem bitsBounded_addZeros (nb : Nat) {s : State} (hs : s.BitsBounded) :
    (addZeros nb s).BitsBounded := by
  obtain ⟨hcap, hacc⟩ := hs
  unfold State.BitsBounded addZeros
  rw [toNat_bumpCount]
  exact ⟨bumpCount_le _ _, hacc.trans_le (Nat.pow_le_pow_right (by decide) (le_bumpCount _ nb hcap))⟩

theorem bitsBounded_flush (s : State) : (flush s).BitsBounded :=
  bitsBounded_of_empty (flush_acc s) (flush_cnt s)

theorem bitsBounded_addRun (prev : Level) (nb : Nat) {s : State} (hs : s.BitsBounded) :
    (addRun prev nb s).BitsBounded := by
  cases prev with
  | high => exact bitsBounded_highRun nb hs
  | low =>
    have hboundary : (boundaryFlush s).BitsBounded := by
      unfold boundaryFlush
      split
      · exact bitsBounded_flush s
      · exact hs
    exact bitsBounded_addZeros nb hboundary
  | none => exact hs

/-- A carrier loss keeps the bounds whether it flushes or not (R275). -/
theorem bitsBounded_carrierLost {s : State} (hs : s.BitsBounded) : (carrierLost s).BitsBounded := by
  obtain ⟨hacc, hcnt⟩ := carrierLossActions_timer (lossFlush s)
  rw [carrierLost, State.BitsBounded, hacc, hcnt]
  show (lossFlush s).BitsBounded
  unfold lossFlush
  split
  · exact bitsBounded_flush s
  · exact hs

/-- The end of a run keeps the bounds, with a carrier loss or without (R271). -/
theorem bitsBounded_endRun (new : Level) {s : State} (hs : s.BitsBounded) :
    (endRun new s).BitsBounded := by
  unfold endRun
  split
  · exact bitsBounded_carrierLost hs
  · exact hs

/-- The new level is NONE only where the carrier loss has emptied the accumulator (R246, R277). -/
theorem timerInv_levelChange (new : Level) {s : State} (hs : s.TimerInv) :
    (levelChange new s).TimerInv := by
  obtain ⟨hbits, -⟩ := (timerInv_iff s).mp hs
  have hentered : (enterLevel new (runOut new s)).BitsBounded := by
    rw [enterLevel_runOut_eq]
    exact hbits
  refine (timerInv_iff _).mpr ⟨?_, fun hnone => ?_⟩
  · rw [levelChange_eq]
    exact bitsBounded_endRun new (bitsBounded_addRun _ _ hentered)
  · obtain rfl : new = .none := (keeps_levelChange new s).lvl.symm.trans hnone
    rw [levelChange_eq]
    exact endRun_none_cnt _

theorem sampleStep_timerInv (x : NUM) {s : State} (hs : s.TimerInv) : (sampleStep x s).TimerInv := by
  have hfront : (sampleFront x s).TimerInv := by
    rw [sampleFront_eq]
    exact hs
  show (sampleEvent (sampleLevel x s) (sampleFront x s)).TimerInv
  rcases sampleEvent_cases (sampleLevel x s) (sampleFront x s) with ⟨-, h⟩ | ⟨-, h⟩ <;> rw [h]
  · exact hfront
  · exact timerInv_levelChange _ hfront

theorem timerInv_close {s : State} (hs : s.TimerInv) : (closeCapture (closeFile s)).TimerInv := by
  rw [closeCapture_closeFile_eq]
  exact hs

end Sys2Proof.Machine

open Sys2Proof.Machine

/-- Settles O50: a run adds its bits below the new CNT, which saturates at the cap, and a step into NONE
ends with a carrier loss, which empties the accumulator. -/
theorem stepKeepsTheAccumulatorBounds : Obligations.StepKeepsTheAccumulatorBounds := fun _ _ hs h =>
  step_preserves_run (P := State.TimerInv)
    (fun _ _ hrun => timerInv_congr (by rw [hrun]) (by rw [hrun]) (by rw [hrun]))
    reset_timerInv (fun x _ _ => sampleStep_timerInv x) (fun _ => timerInv_close) hs h
end

section
/-! SUPPORT. The framer's checks as one condition, and the framer on either side of it
(44_byte_framer.md R290 to R295), and O38. -/

namespace Sys2Proof.Machine

/-- The checks on the start bit, the length and the stop bits (R291, R292). -/
theorem frameOk_iff (r : Word32) (c : Nat) : frameOk r c = true ↔
    r.getLsbD 0 = false ∧ 11 ≤ c ∧ r.getLsbD 9 = true ∧ r.getLsbD 10 = true := by
  simp [frameOk, frameMin, and_assoc]

/-- A frame fails the checks where one of them fails. -/
theorem not_frameOk_iff (r : Word32) (c : Nat) : ¬ frameOk r c = true ↔
    r.getLsbD 0 = true ∨ c < 11 ∨ r.getLsbD 9 = false ∨ r.getLsbD 10 = false := by
  simp only [frameOk_iff, not_and_or, not_le, Bool.not_eq_true, Bool.not_eq_false]

theorem framer_of_frameOk {r : Word32} {c : Nat} (h : frameOk r c = true) (s : State) :
    framer r c s = parser (frameByte r) (captureOut (frameByte r) s) := if_pos h

/-- A frame that fails a check leaves no trace (R295). -/
theorem framer_of_not_frameOk {r : Word32} {c : Nat} (h : ¬ frameOk r c = true) (s : State) :
    framer r c s = s := if_neg h

/-- The capture as one update of records and CAPOPEN (R294). -/
theorem captureOut_eq (b : Byte) (s : State) : captureOut b s = if s.cfg.ctrl.getLsbD 1 = true
    then { s with records := s.records ++ [.byte b], run := { s.run with capopen := true } }
    else s := rfl

end Sys2Proof.Machine

open Sys2Proof Sys2Proof.Machine

/-- Settles O38: the framer branches on the checks, whose conjunction and its negation are the two
clauses, and the capture comes before the parser. -/
theorem framerFollowsItsRule : Obligations.FramerFollowsItsRule := by
  intro r c s byte captured
  have hcapture : captureOut (frameByte r) s = captured := captureOut_eq byte s
  refine ⟨fun hstart hlen hstop1 hstop2 => ?_, fun hbad => ?_⟩
  · rw [framer_of_frameOk ((frameOk_iff r c).mpr ⟨hstart, hlen, hstop1, hstop2⟩), hcapture]
    rfl
  · exact framer_of_not_frameOk ((not_frameOk_iff r c).mpr hbad) s
end

section
/-! SUPPORT. The file records on the way from one state to another, stage by stage: only a close, an open
and an append move the file automaton, each from the FOPEN it needs (45_block_parser.md R306, R310 to R313,
40_host_commands.md R185), and O46. -/

namespace Sys2Proof.Machine

/-- From `s` to `t` records are only appended, and their file records go on in order from the FOPEN of
`s` to the FOPEN of `t` (R313). -/
def FilesInOrder (s t : State) : Prop :=
  ∃ new, t.records = s.records ++ new ∧ fileRecords s.run.fopen new = some t.run.fopen

theorem filesInOrder_of_eq {s t : State} (hrecords : t.records = s.records)
    (hfopen : t.run.fopen = s.run.fopen) : FilesInOrder s t :=
  ⟨[], by rw [hrecords, List.append_nil], by rw [hfopen]; rfl⟩

theorem FilesInOrder.refl (s : State) : FilesInOrder s s := filesInOrder_of_eq rfl rfl

theorem FilesInOrder.trans {s t u : State} (h : FilesInOrder s t) (k : FilesInOrder t u) :
    FilesInOrder s u := by
  obtain ⟨a, ha, hfa⟩ := h
  obtain ⟨b, hb, hfb⟩ := k
  refine ⟨a ++ b, by rw [hb, ha, List.append_assoc], ?_⟩
  rw [fileRecords_append, hfa, Option.bind_some, hfb]

/-- One record that the automaton takes from the FOPEN before it to the FOPEN after it. -/
theorem filesInOrder_of_record {r : Record} {s t : State} (hrecords : t.records = s.records ++ [r])
    (h : fileRecord s.run.fopen r = some t.run.fopen) : FilesInOrder s t :=
  ⟨[r], hrecords, by rw [fileRecords, h]; rfl⟩

/-- A record that is no file record leaves the automaton where it is. -/
theorem filesInOrder_emit {r : Record} (h : ∀ f, fileRecord f r = some f) (s : State) :
    FilesInOrder s (emit r s) :=
  filesInOrder_of_record rfl (h _)

/-! ### Closes and dispatch -/

/-- FILE_CLOSE is emitted only where a file is open (R311, R312). -/
theorem filesInOrder_closeFile (s : State) : FilesInOrder s (closeFile s) := by
  rcases closeFile_cases s with ⟨hopen, h⟩ | ⟨-, h⟩ <;> rw [h]
  · exact filesInOrder_of_record rfl (by rw [hopen]; rfl)
  · exact .refl s

theorem filesInOrder_closeCapture (s : State) : FilesInOrder s (closeCapture s) := by
  rcases closeCapture_cases s with ⟨-, h⟩ | ⟨-, h⟩ <;> rw [h]
  · exact filesInOrder_of_record rfl rfl
  · exact .refl s

theorem filesInOrder_openFile {s : State} (h : s.run.fopen = false) : FilesInOrder s (openFile s) :=
  filesInOrder_of_record rfl (by rw [h]; rfl)

/-- A TITLE closes the open file before it opens the new one (R306). -/
theorem filesInOrder_replaceFile (s : State) : FilesInOrder s (replaceFile s) := by
  unfold replaceFile
  split
  · exact (filesInOrder_closeFile s).trans (filesInOrder_openFile (closeFile_fopen s))
  · exact .refl s

/-- FILE_APPEND is emitted only where a file is open (R310). -/
theorem filesInOrder_fileAppend (s : State) : FilesInOrder s (fileAppend s) := by
  unfold fileAppend
  split
  · next h => exact filesInOrder_of_record rfl (by rw [emit_run, h.1]; rfl)
  · exact .refl s

/-- The report of a block comes first and is no file record (R305). -/
theorem filesInOrder_dispatch (s : State) : FilesInOrder s (dispatch s) := by
  unfold dispatch
  split
  · have hreset (u : State) : FilesInOrder u (resetStatistics u) := filesInOrder_of_eq rfl rfl
    exact (filesInOrder_emit (fun _ => rfl) s).trans ((hreset _).trans (filesInOrder_replaceFile _))
  · exact filesInOrder_emit (fun _ => rfl) s
  · have hcount (ok : Bool) (u : State) : FilesInOrder u (statistics ok u) := filesInOrder_of_eq rfl rfl
    exact (filesInOrder_emit (fun _ => rfl) s).trans ((hcount _ _).trans (filesInOrder_fileAppend _))
  · exact (filesInOrder_emit (fun _ => rfl) s).trans (filesInOrder_closeFile _)

theorem filesInOrder_carrierLossActions (s : State) : FilesInOrder s (carrierLossActions s) := by
  have hreset (u : State) : FilesInOrder u (resetParser u) := by
    unfold resetParser
    split <;> exact filesInOrder_of_eq rfl rfl
  exact (filesInOrder_closeFile s).trans ((filesInOrder_closeCapture _).trans (hreset _))

/-! ### The parser, the framer and the symbol timer -/

theorem filesInOrder_headerByte (b : Byte) (s : State) : FilesInOrder s (headerByte b s) := by
  have hbegin (u : State) : FilesInOrder u (beginBlock u) := by
    unfold beginBlock
    split
    · exact filesInOrder_of_record rfl rfl
    · exact filesInOrder_of_eq rfl rfl
  have hstore : FilesInOrder s (storeHeader b s) := filesInOrder_of_eq rfl rfl
  have hheader (u : State) : FilesInOrder u (setHeader u) := filesInOrder_of_eq rfl rfl
  unfold headerByte completeHeader
  split
  · exact hstore.trans ((hheader _).trans (hbegin _))
  · exact hstore

theorem filesInOrder_payloadByte (b : Byte) (s : State) : FilesInOrder s (payloadByte b s) := by
  have hstore : FilesInOrder s (storePayload b s) := filesInOrder_of_eq rfl rfl
  have hwait (u : State) : FilesInOrder u (setPst .waitHeader u) := filesInOrder_of_eq rfl rfl
  unfold payloadByte completePayload
  split
  · exact hstore.trans ((filesInOrder_dispatch _).trans (hwait _))
  · exact hstore

theorem filesInOrder_parser (b : Byte) (s : State) : FilesInOrder s (parser b s) := by
  unfold parser
  split
  · split
    · exact filesInOrder_of_eq rfl rfl
    · exact .refl s
  · exact filesInOrder_headerByte b s
  · exact filesInOrder_payloadByte b s

theorem filesInOrder_captureOut (b : Byte) (s : State) : FilesInOrder s (captureOut b s) := by
  unfold captureOut
  split
  · exact filesInOrder_of_record rfl rfl
  · exact .refl s

theorem filesInOrder_flush (s : State) : FilesInOrder s (flush s) := by
  have hclear : FilesInOrder s (clearBits s) := filesInOrder_of_eq rfl rfl
  unfold flush framer
  split
  · exact hclear.trans ((filesInOrder_captureOut _ _).trans (filesInOrder_parser _ _))
  · exact hclear

theorem filesInOrder_addRun (prev : Level) (nb : Nat) (s : State) : FilesInOrder s (addRun prev nb s) := by
  have hzeros (u : State) : FilesInOrder u (addZeros nb u) := filesInOrder_of_eq rfl rfl
  cases prev with
  | high => exact filesInOrder_of_eq rfl rfl
  | none => exact .refl s
  | low =>
    refine FilesInOrder.trans (t := boundaryFlush s) ?_ (hzeros _)
    unfold boundaryFlush
    split
    · exact filesInOrder_flush s
    · exact .refl s

theorem filesInOrder_endRun (new : Level) (s : State) : FilesInOrder s (endRun new s) := by
  have hflush : FilesInOrder s (lossFlush s) := by
    unfold lossFlush
    split
    · exact filesInOrder_flush s
    · exact .refl s
  unfold endRun
  split
  · exact hflush.trans (filesInOrder_carrierLossActions _)
  · exact .refl s

/-! ### The step -/

theorem filesInOrder_sampleFront (x : NUM) (s : State) : FilesInOrder s (sampleFront x s) := by
  rw [sampleFront_eq]
  refine ⟨traceRecords x s, rfl, ?_⟩
  unfold traceRecords
  split <;> rfl

theorem filesInOrder_levelChange (new : Level) (s : State) : FilesInOrder s (levelChange new s) := by
  have henter : FilesInOrder s (enterLevel new (runOut new s)) := by
    rw [enterLevel_runOut_eq]
    refine ⟨runRecords new s, rfl, ?_⟩
    unfold runRecords
    split <;> rfl
  rw [levelChange_eq]
  exact henter.trans ((filesInOrder_addRun _ _ _).trans (filesInOrder_endRun _ _))

theorem filesInOrder_sampleStep (x : NUM) (s : State) : FilesInOrder s (sampleStep x s) := by
  have hevent (new : Level) (u : State) : FilesInOrder u (sampleEvent new u) := by
    rcases sampleEvent_cases new u with ⟨-, h⟩ | ⟨-, h⟩ <;> rw [h]
    · exact .refl u
    · exact filesInOrder_levelChange new u
  have hadvance (u : State) : FilesInOrder u (advance u) := filesInOrder_of_eq rfl rfl
  exact (filesInOrder_sampleFront x s).trans ((hevent _ _).trans (hadvance _))

/-- START clears FOPEN without a FILE_CLOSE, which it may, because no file is open outside a run (R70). -/
theorem filesInOrder_execStart {addr : Byte} {s t : State} (hs : s.FileInv)
    (h : execStart addr s = .next t) : FilesInOrder s t := by
  rcases execStart_cases h with ⟨-, rfl⟩ | ⟨-, e, info, -, rfl⟩ | ⟨hm, -, rfl⟩
  · exact filesInOrder_of_eq rfl rfl
  · exact filesInOrder_of_eq rfl rfl
  · exact filesInOrder_of_eq rfl (closed_of_acceptsConfig hs hm).1.symm

theorem filesInOrder_execSample {addr : Byte} {data : Word64} {s t : State}
    (h : execSample addr data s = .next t) : FilesInOrder s t := by
  rcases execSample_cases h with ⟨-, rfl⟩ | ⟨-, -, rfl⟩ | ⟨-, -, -, rfl⟩ | ⟨-, -, -, rfl⟩
  · exact filesInOrder_of_eq rfl rfl
  · exact filesInOrder_of_eq rfl rfl
  · exact filesInOrder_of_eq rfl rfl
  · exact filesInOrder_sampleStep _ s

theorem filesInOrder_execFinish {addr : Byte} {s t : State} (h : execFinish addr s = .next t) :
    FilesInOrder s t := by
  rcases execFinish_cases h with ⟨-, rfl⟩ | ⟨-, rfl⟩
  · exact filesInOrder_of_eq rfl rfl
  · have hclose := (filesInOrder_closeFile s).trans (filesInOrder_closeCapture _)
    exact hclose.trans (filesInOrder_of_eq rfl rfl)

/-- Every instruction but SOFT_RESET keeps the order of the file records. -/
theorem filesInOrder_exec {i : Instr} {s t : State} (hs : s.FileInv) (hi : isSoftReset i = false)
    (h : exec i s = .next t) : FilesInOrder s t := by
  cases i with
  | nop addr data => exact next_inj h ▸ .refl s
  | cfgWrite addr data =>
    rcases execCfgWrite_cases h with ⟨-, rfl⟩ | ⟨-, c, -, rfl⟩ | ⟨-, -, rfl⟩ <;>
      exact filesInOrder_of_eq rfl rfl
  | regRead addr data =>
    rcases execRegRead_cases h with ⟨v, -, rfl⟩ | ⟨-, rfl⟩ <;> exact filesInOrder_of_eq rfl rfl
  | start addr data => exact filesInOrder_execStart hs h
  | sample addr data => exact filesInOrder_execSample h
  | finish addr data => exact filesInOrder_execFinish h
  | softReset addr data => cases hi

end Sys2Proof.Machine

open Sys2Proof Sys2Proof.Machine

/-- Settles O46: every stage of a command keeps the order, and so does their sequence. -/
theorem fileRecordsAlternate : Obligations.FileRecordsAlternate := by
  intro s t hs hreset h
  rcases step_cases h with ⟨-, rfl⟩ | ⟨c, rest, i, hin, hd, he⟩ | ⟨c, rest, cw, -, -, rfl⟩
  · exact FilesInOrder.refl t
  · have hi : isSoftReset i = false :=
      Bool.eq_false_iff.mpr fun hi => hreset ⟨c, rest, i, hin, hd, hi⟩
    exact filesInOrder_exec (s := { s with inbox := rest }) hs hi he
  · exact filesInOrder_of_eq rfl rfl
end

section
/-! SUPPORT. A whole header and a whole payload through the parser, and the dispatch of each block type
(45_block_parser.md R300 to R311, 20_memory.md R107), O41 to O44. -/

namespace Sys2Proof.Machine

theorem parseBytes_cons (b : Byte) (bs : List Byte) (s : State) :
    parseBytes (b :: bs) s = parseBytes bs (parser b s) := rfl

theorem parseBytes_append (bs bs' : List Byte) (s : State) :
    parseBytes (bs ++ bs') s = parseBytes bs' (parseBytes bs s) := List.foldl_append

/-! ### The header -/

/-- Between blocks every byte but the sentinel is ignored (R300). -/
theorem parser_of_ne_sentinel {b : Byte} {s : State} (hpst : s.run.pst = .waitHeader)
    (h : b ≠ sentinel) : parser b s = s := by
  unfold parser
  rw [hpst]
  exact if_neg h

theorem parser_sentinel {s : State} (hpst : s.run.pst = .waitHeader) :
    parser sentinel s = enterHeader s := by
  unfold parser
  rw [hpst]
  rfl

/-- Four bytes stored from HC 0 on are the whole header buffer (R301). -/
theorem hbWrite_four (h : Vector Byte 4) (b0 b1 b2 b3 : Byte) :
    hbWrite (hbWrite (hbWrite (hbWrite h 0 b0) 1 b1) 2 b2) 3 b3 = #v[b0, b1, b2, b3] := by
  apply Vector.ext
  intro j hj
  simp only [getElem_hbWrite _ _ j _ hj]
  interval_cases j <;> rfl

/-- READ_HEADER with HB <- hb, HC <- hc. -/
def setHeaderBytes (hb : Vector Byte 4) (hc : BitVec 3) (s : State) : State :=
  { s with run := { s.run with pst := .readHeader, hc := hc, hb := hb } }

/-- A header byte before the fourth is stored and nothing else happens (R301). -/
theorem parser_setHeaderBytes (b : Byte) (hb : Vector Byte 4) {hc : BitVec 3} (s : State)
    (h : hc + 1 ≠ 4#3) : parser b (setHeaderBytes hb hc s) =
      setHeaderBytes (hbWrite hb hc.toNat b) (hc + 1) s := if_neg h

/-- The fourth header byte is stored and the header decoded (R301). -/
theorem parser_setHeaderBytes_last (b : Byte) (hb : Vector Byte 4) {hc : BitVec 3} (s : State)
    (h : hc + 1 = 4#3) : parser b (setHeaderBytes hb hc s) =
      decodeHeader (setHeaderBytes (hbWrite hb hc.toNat b) (hc + 1) s) := if_pos h

/-- The sentinel and four bytes stand in the header buffer when the header is decoded (R300, R301). -/
theorem parseBytes_header {s : State} (hpst : s.run.pst = .waitHeader) (b0 b1 b2 b3 : Byte) :
    parseBytes [sentinel, b0, b1, b2, b3] s =
      decodeHeader (setHeaderBytes #v[b0, b1, b2, b3] 4#3 s) := by
  have henter : parser sentinel s = setHeaderBytes s.run.hb 0#3 s := parser_sentinel hpst
  rw [parseBytes_cons, henter, parseBytes_cons, parser_setHeaderBytes b0 _ s (by decide), parseBytes_cons,
    parser_setHeaderBytes b1 _ s (by decide), parseBytes_cons, parser_setHeaderBytes b2 _ s (by decide),
    parseBytes_cons, parser_setHeaderBytes_last b3 _ s (by decide), ← hbWrite_four s.run.hb]
  rfl

/-- The block type bit by bit (30_encoding.md R147). -/
theorem blockType_ofCode_eq : ∀ code : BitVec 2, BlockType.ofCode code =
    if code.getLsbD 1 then (if code.getLsbD 0 then .endBlock else .data)
    else (if code.getLsbD 0 then .reserved else .title) := by
  decide

/-- The block type by the top two bits of header word 0 (R303). -/
theorem blockType_ofCode_top (w : Half) : BlockType.ofCode (w.extractLsb' 14 2) =
    if w.getLsbD 15 then (if w.getLsbD 14 then .endBlock else .data)
    else (if w.getLsbD 14 then .reserved else .title) := by
  rw [blockType_ofCode_eq, BitVec.getLsbD_extractLsb', BitVec.getLsbD_extractLsb']
  rfl

/-! ### The payload -/

/-- PB <- pb, PCNT <- pcnt. -/
def setPayload (pb : Memory) (pcnt : BitVec 15) (s : State) : State :=
  { s with run := { s.run with pb := pb, pcnt := pcnt } }

/-- The payload buffer holds a byte sequence as the whole block. -/
structure State.HoldsPayload (s : State) (bs : List Byte) : Prop where
  length : bs.length = 2 * s.run.bl.toNat
  read   : ∀ a (h : a < bs.length), Memory.read s.run.pb a = bs[a]

/-- While a block lacks bytes PCNT does not wrap (10_state.md R66). -/
theorem toNat_pcnt_succ {s : State} (h : s.run.pcnt.toNat < 2 * s.run.bl.toNat) :
    (s.run.pcnt + 1).toNat = s.run.pcnt.toNat + 1 := by
  have hbl := s.run.bl.isLt
  bv_omega

/-- A payload byte before the last is stored and nothing else happens (R302). -/
theorem parser_of_incomplete (b : Byte) {s : State} (hpst : s.run.pst = .readData)
    (h : s.run.pcnt.toNat + 1 < 2 * s.run.bl.toNat) : parser b s = storePayload b s := by
  rw [parser_readData b s hpst]
  refine if_neg ?_
  show ¬ (s.run.pcnt + 1).toNat = 2 * s.run.bl.toNat
  rw [toNat_pcnt_succ (by omega)]
  exact h.ne

/-- The last payload byte is stored, and the block dispatched (R302). -/
theorem parser_of_complete (b : Byte) {s : State} (hpst : s.run.pst = .readData)
    (h : s.run.pcnt.toNat + 1 = 2 * s.run.bl.toNat) :
    parser b s = setPst .waitHeader (dispatch (storePayload b s)) := by
  rw [parser_readData b s hpst]
  refine if_pos ?_
  show (s.run.pcnt + 1).toNat = 2 * s.run.bl.toNat
  rw [toNat_pcnt_succ (by omega), h]

/-- Before its last byte a block is only collected, whatever stands in the buffer (R302). -/
theorem parseBytes_setPayload (bs : List Byte) : ∀ s : State, s.run.pst = .readData →
    s.run.pcnt.toNat + bs.length < 2 * s.run.bl.toNat →
    ∃ pb, parseBytes bs s = setPayload pb (BitVec.ofNat 15 (s.run.pcnt.toNat + bs.length)) s := by
  induction bs with
  | nil => exact fun s _ _ => ⟨s.run.pb, by simp [parseBytes, setPayload]⟩
  | cons b bs ih =>
    intro s hpst h
    rw [List.length_cons, Nat.add_comm bs.length, ← Nat.add_assoc] at h ⊢
    have hcount : (storePayload b s).run.pcnt.toNat = s.run.pcnt.toNat + 1 :=
      toNat_pcnt_succ (by omega)
    obtain ⟨pb, hpb⟩ := ih (storePayload b s) hpst (hcount ▸ h)
    refine ⟨pb, ?_⟩
    rw [parseBytes_cons, parser_of_incomplete b hpst (by omega), hpb, hcount]
    rfl

/-- A canonical buffer holds the bytes collected from PCNT 0 on (R302). -/
theorem read_parseBytes {bs : List Byte} {s : State} (hs : s.BufferInv) (hpst : s.run.pst = .readData)
    (hpcnt : s.run.pcnt = 0#15) (h : bs.length < 2 * s.run.bl.toNat) :
    (parseBytes bs s).BufferInv ∧
    ∀ a (ha : a < bs.length), Memory.read (parseBytes bs s).run.pb a = bs[a] := by
  have hzero : s.run.pcnt.toNat = 0 := by rw [hpcnt]; rfl
  obtain ⟨pb, heq, hinv, hread⟩ := parseBytes_collect bs s hs hpst (by omega)
  refine ⟨hinv, fun a ha => ?_⟩
  rw [heq]
  simpa [hzero, ha] using hread a

/-- Written behind the bytes a canonical buffer holds, one more byte is held after them. -/
theorem read_pbWrite_append {pb : Memory} {bs : List Byte} (b : Byte) (hpb : Memory.wf pb = true)
    (hlen : bs.length < pbBytes) (hread : ∀ a (h : a < bs.length), Memory.read pb a = bs[a])
    (a : Nat) (h : a < (bs ++ [b]).length) :
    Memory.read (pbWrite pb bs.length b) a = (bs ++ [b])[a] := by
  rw [read_pbWrite pb _ a b hpb hlen]
  rcases Nat.lt_succ_iff_lt_or_eq.mp (h.trans_eq List.length_append) with hlt | rfl
  · rw [if_neg hlt.ne, List.getElem_append_left hlt, hread a hlt]
  · rw [if_pos rfl, List.getElem_concat_length rfl]

/-- The payload bytes of a block from PCNT 0 on are collected, then dispatched (R302). -/
theorem parseBytes_payload {bs : List Byte} {s : State} (hpst : s.run.pst = .readData)
    (hpcnt : s.run.pcnt = 0#15) (hbl : s.run.bl ≠ 0#14) (hlen : bs.length = 2 * s.run.bl.toNat) :
    ∃ pb pcnt, parseBytes bs s = setPst .waitHeader (dispatch (setPayload pb pcnt s)) ∧
      (s.BufferInv → (setPayload pb pcnt s).HoldsPayload bs) := by
  have hpos : 0 < s.run.bl.toNat := Nat.pos_of_ne_zero fun h => hbl (BitVec.eq_of_toNat_eq h)
  have hmax := s.run.bl.isLt
  have hzero : s.run.pcnt.toNat = 0 := by rw [hpcnt]; rfl
  obtain ⟨init, last, rfl⟩ : ∃ init last, bs = init ++ [last] :=
    ⟨bs.dropLast, _, (List.dropLast_append_getLast (List.ne_nil_of_length_pos (by omega))).symm⟩
  have hinitLen : init.length + 1 = 2 * s.run.bl.toNat := by simpa using hlen
  obtain ⟨pb, hinit⟩ := parseBytes_setPayload init s hpst (by omega)
  rw [hzero, Nat.zero_add] at hinit
  have hcount : (BitVec.ofNat 15 init.length).toNat = init.length := by
    rw [BitVec.toNat_ofNat]
    omega
  refine ⟨pbWrite pb init.length last, BitVec.ofNat 15 init.length + 1, ?_, fun hs => ⟨hlen, ?_⟩⟩
  · have hstore : storePayload last (setPayload pb (BitVec.ofNat 15 init.length) s) =
        setPayload (pbWrite pb init.length last) (BitVec.ofNat 15 init.length + 1) s :=
      congrArg (fun i => setPayload (pbWrite pb i last) _ s) hcount
    rw [parseBytes_append, hinit, ← hstore]
    exact parser_of_complete last hpst ((congrArg (· + 1) hcount).trans hinitLen)
  · obtain ⟨⟨hwf, -⟩, hread⟩ := read_parseBytes (bs := init) hs hpst hpcnt (by omega)
    rw [hinit] at hwf hread
    exact read_pbWrite_append last hwf (by simp only [pbBytes]; omega) hread

/-- The payload of a held block from byte `k` on (R305). -/
theorem State.HoldsPayload.payloadFrom_eq {s : State} {bs : List Byte} (h : s.HoldsPayload bs) (k : Nat) :
    payloadFrom k s = bs.drop k := by
  rw [payloadFrom, ← h.length]
  exact readBytes_of_read _ _ h.read k

/-- The checksum of a held block is the sum of its words (R308). -/
theorem State.HoldsPayload.checksum_eq {s : State} {bs : List Byte} (h : s.HoldsPayload bs) :
    checksum s = wordSum s.cfg.wordLe bs := by
  have hlen := h.length
  rw [checksum, foldl_wordSum s.cfg.wordLe _ bs _ hlen fun i hi => ?_, BitVec.zero_add]
  rw [payloadWord, h.read (2 * i) (by omega), h.read (2 * i + 1) (by omega)]

/-! ### Dispatch by type -/

theorem dispatch_title {s : State} (h : s.run.bt = .title) : dispatch s = dispatchTitle s := by
  rw [dispatch, h]

theorem dispatch_reserved {s : State} (h : s.run.bt = .reserved) : dispatch s = dispatchReserved s := by
  rw [dispatch, h]

theorem dispatch_data {s : State} (h : s.run.bt = .data) : dispatch s = dispatchData s := by
  rw [dispatch, h]

theorem dispatch_end {s : State} (h : s.run.bt = .endBlock) : dispatch s = dispatchEnd s := by
  rw [dispatch, h]

/-- All that the dispatch of a TITLE block does (R306). -/
theorem dispatchTitle_eq (s : State) : dispatchTitle s = { s with
    records := s.records ++ [.blockReport .title (blockLen s)]
      ++ (if s.cfg.extractEn = true
          then (if s.run.fopen then [.fileClose] else []) ++ [.fileOpen (payloadFrom 0 s)] else [])
    run := { s.run with
      blockCount := 0, errorCount := 0, fopen := s.cfg.extractEn || s.run.fopen } } := by
  unfold dispatchTitle replaceFile
  have hreset (r : Record) : (resetStatistics (emit r s)).cfg = s.cfg := rfl
  rw [hreset]
  cases s.cfg.extractEn
  · rw [if_neg Bool.false_ne_true, if_neg Bool.false_ne_true, List.append_nil]
    rfl
  · rw [if_pos rfl, if_pos rfl, closeFile_eq, ← List.append_assoc]
    rfl

/-- All that the dispatch of a DATA block does (R308 to R310). -/
theorem dispatchData_eq (s : State) : dispatchData s = { s with
    records := s.records ++ [dataReport s]
      ++ (if s.run.fopen = true ∧ 8 < 2 * s.run.bl.toNat then [.fileAppend (payloadFrom 8 s)] else [])
    run := { s.run with
      blockCount := s.run.blockCount + 1
      errorCount := if checksum s == s.run.bc then s.run.errorCount else s.run.errorCount + 1 } } := by
  unfold dispatchData fileAppend
  by_cases h : s.run.fopen = true ∧ 8 < 2 * s.run.bl.toNat
  · rw [if_pos h]
    exact if_pos h
  · rw [if_neg h, List.append_nil]
    exact if_neg h

/-- All that the dispatch of an END block does (R311). -/
theorem dispatchEnd_eq (s : State) : dispatchEnd s = { s with
    records := s.records ++ [.endReport (blockLen s) s.run.blockCount s.run.errorCount]
      ++ (if s.run.fopen then [.fileClose] else [])
    run := { s.run with fopen := false } } := closeFile_eq _

end Sys2Proof.Machine

open Sys2Proof Sys2Proof.Machine

/-- Settles O41: the header buffer holds the four bytes, and a block is begun with the two words they make. -/
theorem headerIsDecoded : Obligations.HeaderIsDecoded := by
  intro s h0 h1 h2 h3 hpst w0 w1 bl bt run
  have hheader := parseBytes_header hpst h0 h1 h2 h3
  have hbt : BlockType.ofCode (w0.extractLsb' 14 2) = bt := blockType_ofCode_top w0
  have hset : setHeader (setHeaderBytes #v[h0, h1, h2, h3] 4#3 s) =
      { s with run := { run with pst := .readHeader } } := by
    rw [setHeader, show headerWord0 _ = w0 from rfl, hbt]
    rfl
  rw [decodeHeader, hset] at hheader
  refine ⟨fun b hb => parser_of_ne_sentinel hpst hb, fun hempty => ?_, fun hlong => ?_⟩
  · refine hheader.trans ((if_pos hempty).trans ?_)
    rw [← hpst]
    rfl
  · exact hheader.trans (if_neg hlong)

/-- Settles O42: the payload is held when it is dispatched, so that checksum and append are those of its
bytes. -/
theorem dataBlockIsCheckedAndAppended : Obligations.DataBlockIsCheckedAndAppended := by
  intro s bs hs hpst hpcnt hbt hbl hlen t sum ok
  obtain ⟨pb, pcnt, (ht : t = _), hheld⟩ := parseBytes_payload hpst hpcnt hbl hlen
  have hu := hheld hs
  rw [dispatch_data (s := setPayload pb pcnt s) hbt, dispatchData_eq, dataReport, hu.checksum_eq,
    hu.payloadFrom_eq 8, ← hu.length] at ht
  rw [ht]
  exact ⟨rfl, rfl, rfl, rfl, rfl⟩

/-- Settles O43: the payload is held when it is dispatched, so that the new file gets its bytes. -/
theorem titleBlockReplacesTheFile : Obligations.TitleBlockReplacesTheFile := by
  intro s bs hs hpst hpcnt hbt hbl hlen t
  obtain ⟨pb, pcnt, (ht : t = _), hheld⟩ := parseBytes_payload hpst hpcnt hbl hlen
  rw [dispatch_title (s := setPayload pb pcnt s) hbt, dispatchTitle_eq, (hheld hs).payloadFrom_eq 0] at ht
  rw [ht]
  exact ⟨rfl, rfl, rfl, rfl, rfl⟩

/-- Settles O44: neither dispatch reads the payload. -/
theorem reservedAndEndBlocksReport : Obligations.ReservedAndEndBlocksReport := by
  intro s bs hpst hpcnt hbl hlen t
  obtain ⟨pb, pcnt, (ht : t = _), -⟩ := parseBytes_payload hpst hpcnt hbl hlen
  have hreserved (hbt : s.run.bt = .reserved) :
      t = setPst .waitHeader (dispatchReserved (setPayload pb pcnt s)) := by
    rw [ht, dispatch_reserved (s := setPayload pb pcnt s) hbt]
  have hend (hbt : s.run.bt = .endBlock) : t = setPst .waitHeader { setPayload pb pcnt s with
      records := s.records ++ [.endReport (s.run.bl.setWidth 16) s.run.blockCount s.run.errorCount]
        ++ (if s.run.fopen then [.fileClose] else [])
      run := { (setPayload pb pcnt s).run with fopen := false } } := by
    rw [ht, dispatch_end (s := setPayload pb pcnt s) hbt, dispatchEnd_eq]
    rfl
  refine ⟨fun hbt => ?_, fun hbt => ?_, fun hbt => ?_⟩
  · rw [hreserved hbt]
    exact ⟨rfl, rfl⟩
  · rw [hend hbt]
    exact ⟨rfl, rfl⟩
  · rcases hbt with hbt | hbt
    · rw [hreserved hbt]
      exact ⟨rfl, rfl, rfl, rfl⟩
    · rw [hend hbt]
      exact ⟨rfl, rfl, rfl, rfl⟩
end

section
/-! SUPPORT. The bytes that bring the parser back to WAIT_HEADER, by a bound that every byte within a block
lowers (45_block_parser.md R315), O45. -/

namespace Sys2Proof.Machine

/-- One byte in READ_HEADER (R301). -/
theorem parser_readHeader (b : Byte) {s : State} (hpst : s.run.pst = .readHeader) :
    parser b s = completeHeader (storeHeader b s) := by
  unfold parser
  rw [hpst]
  rfl

/-- How many bytes bring the parser back to WAIT_HEADER at most: what its block still lacks, the longest
payload while the header is incomplete. -/
def bytesToWait (s : State) : Nat :=
  match s.run.pst with
  | .waitHeader => 0
  | .readHeader => hdrBytes - s.run.hc.toNat + pbBytes
  | .readData   => 2 * s.run.bl.toNat - s.run.pcnt.toNat

theorem bytesToWait_of_waitHeader {s : State} (h : s.run.pst = .waitHeader) : bytesToWait s = 0 := by
  rw [bytesToWait, h]

theorem bytesToWait_of_readHeader {s : State} (h : s.run.pst = .readHeader) :
    bytesToWait s = hdrBytes - s.run.hc.toNat + pbBytes := by
  rw [bytesToWait, h]

theorem bytesToWait_of_readData {s : State} (h : s.run.pst = .readData) :
    bytesToWait s = 2 * s.run.bl.toNat - s.run.pcnt.toNat := by
  rw [bytesToWait, h]

theorem bytesToWait_le (s : State) : bytesToWait s ≤ 4 + 2 * 16383 := by
  have hbl := s.run.bl.isLt
  cases hpst : s.run.pst with
  | waitHeader => rw [bytesToWait_of_waitHeader hpst]; omega
  | readHeader => rw [bytesToWait_of_readHeader hpst]; simp only [hdrBytes, pbBytes]; omega
  | readData => rw [bytesToWait_of_readData hpst]; omega

/-- A begun block lacks at most the longest payload (R303). -/
theorem bytesToWait_beginBlock_le (s : State) : bytesToWait (beginBlock s) ≤ pbBytes := by
  have hbl := s.run.bl.isLt
  unfold beginBlock
  split
  · rw [bytesToWait_of_waitHeader rfl]
    exact Nat.zero_le _
  · rw [bytesToWait_of_readData rfl]
    show 2 * s.run.bl.toNat - 0 ≤ pbBytes
    simp only [pbBytes]
    omega

/-- Within a block every byte is one of those it lacks (R301, R302). -/
theorem bytesToWait_parser_lt (b : Byte) {s : State} (hs : s.ParserInv) (h : s.run.pst ≠ .waitHeader) :
    bytesToWait (parser b s) < bytesToWait s := by
  obtain ⟨-, -, hheader, hdata⟩ := hs
  cases hpst : s.run.pst with
  | waitHeader => exact absurd hpst h
  | readHeader =>
    have hlt := hheader hpst
    have hnext : (s.run.hc + 1).toNat = s.run.hc.toNat + 1 := by
      simp only [hdrBytes] at hlt
      bv_omega
    rw [parser_readHeader b hpst, bytesToWait_of_readHeader hpst]
    unfold completeHeader
    split
    · have hbegin := bytesToWait_beginBlock_le (setHeader (storeHeader b s))
      rw [decodeHeader]
      omega
    · rw [bytesToWait_of_readHeader (s := storeHeader b s) hpst]
      show hdrBytes - (s.run.hc + 1).toNat + pbBytes < _
      omega
  | readData =>
    have hlt := hdata hpst
    rw [bytesToWait_of_readData hpst]
    rcases Nat.lt_or_eq_of_le (Nat.succ_le_of_lt hlt) with hmore | hlast
    · rw [parser_of_incomplete b hpst hmore, bytesToWait_of_readData (s := storePayload b s) hpst]
      show 2 * s.run.bl.toNat - (s.run.pcnt + 1).toNat < _
      rw [toNat_pcnt_succ hlt]
      omega
    · rw [parser_of_complete b hpst hlast, bytesToWait_of_waitHeader rfl]
      omega

/-- At most as many bytes as a block lacks lead to WAIT_HEADER (R315). -/
theorem exists_take_waitHeader {n : Nat} : ∀ (s : State) (bs : List Byte), s.ParserInv →
    bytesToWait s ≤ n → n ≤ bs.length →
    ∃ k ≤ n, (parseBytes (bs.take k) s).run.pst = .waitHeader := by
  induction n with
  | zero =>
    intro s bs hs hn _
    refine ⟨0, le_rfl, ?_⟩
    by_contra hpst
    have hlt := bytesToWait_parser_lt 0 hs hpst
    omega
  | succ n ih =>
    intro s bs hs hn hlen
    by_cases hpst : s.run.pst = .waitHeader
    · exact ⟨0, Nat.zero_le _, hpst⟩
    · obtain ⟨b, bs, rfl⟩ := List.exists_cons_of_length_pos (Nat.zero_lt_of_lt hlen)
      have hlt := bytesToWait_parser_lt b hs hpst
      obtain ⟨k, hk, hwait⟩ := ih (parser b s) bs (parserInv_parser b hs) (by omega)
        (Nat.le_of_succ_le_succ hlen)
      exact ⟨k + 1, Nat.succ_le_succ hk, hwait⟩

end Sys2Proof.Machine

open Sys2Proof Sys2Proof.Machine

/-- Settles O45: a block lacks at most its header and the longest payload, and every byte is one of those
it lacks. -/
theorem parserResynchronizes : Obligations.ParserResynchronizes := fun s bs hs hlen =>
  exists_take_waitHeader s bs hs (bytesToWait_le s) hlen
end

section
/-! SUPPORT. A step with a command to run (20_memory.md R109, R112), O4. -/

namespace Sys2Proof.Machine

/-- A step takes the oldest command out of the inbox and runs what it decodes to (R112). -/
theorem step_of_decode {s : State} {c : Command} {rest : List Command} {i : Instr}
    (hin : s.inbox = c :: rest) (hd : decode c = .instr i) :
    step s = exec i { s with inbox := rest } := by
  simp only [step, accept, hin, hd]

/-- With no command issued a step waits (60_exceptions.md R354). -/
theorem step_of_inbox_nil {s : State} (hin : s.inbox = []) : step s = .next s := by
  simp only [step, accept, hin]

/-- A table word stands for the command it is cut to. -/
theorem decodeTableWord_eq_some_iff {nbits w : Nat} {i : Instr} :
    decodeTableWord nbits w = some i ↔ decode (tableCommand nbits w) = .instr i := by
  unfold decodeTableWord
  cases decode (tableCommand nbits w) <;> simp

end Sys2Proof.Machine

open Sys2Proof Sys2Proof.Machine

/-- Settles O4: the command of a table word is the oldest in the inbox it is put into. -/
theorem stepRunsTheDecodedInstruction : Obligations.StepRunsTheDecodedInstruction :=
  ⟨fun _ _ _ _ => step_of_decode, fun _ => step_of_inbox_nil,
    fun s nbits w _ h => step_of_decode (s := s.withFetchWord nbits w) rfl
      (decodeTableWord_eq_some_iff.mp h)⟩
end

section
/-! SUPPORT. The causes of the errors of R341 against the model's checks (60_exceptions.md R341 to R345),
O19. -/

namespace Sys2Proof.Machine

/-! ### Register addresses -/

theorem acceptsConfig_eq_true_iff (m : Mode) : m.acceptsConfig = true ↔ m = .idle ∨ m = .done := by
  simp [acceptsConfig_iff]

/-- The addresses above 0x0E are the ones that are not writable (30_encoding.md R140). -/
theorem writeCfg_eq_none_iff {addr : Byte} {data : Word64} {c : CfgRegs} :
    writeCfg addr data c = none ↔ 0x0E < addr.toNat := by
  refine ⟨fun h => ?_, fun h => writeCfg_eq_none h data c⟩
  by_contra haddr
  obtain ⟨c', hc', -⟩ := writeCfg_words (not_lt.mp haddr) data c
  cases h.symm.trans hc'

/-- The reserved addresses are the ones that have no register (40_host_commands.md R182). -/
theorem readReg_eq_none_iff {addr : Byte} {s : State} :
    readReg addr s = none ↔ addr = 0x0F#8 ∨ 0x19 ≤ addr.toNat := by
  refine ⟨fun h => ?_, fun h => readReg_eq_none h s⟩
  by_contra haddr
  have h0F : addr = 0x0F#8 ↔ addr.toNat = 0x0F := BitVec.toNat_inj.symm
  rw [h0F] at haddr
  unfold readReg at h
  generalize addr.toNat = n at h haddr
  have hle : n ≤ 0x18 := by omega
  interval_cases n <;> simp at h haddr

/-- START's search runs over the registers 0x04 to 0x0C, each with its address (R183). -/
theorem mem_binary64_iff (s : State) (r : Word64 × Word64) : r ∈ s.cfg.binary64 ↔
    ∃ reg : Byte, 0x04 ≤ reg.toNat ∧ reg.toNat ≤ 0x0C ∧ readReg reg s = some r.2 ∧
      r.1 = reg.setWidth 64 := by
  constructor
  · intro h
    obtain ⟨j, hj, rfl⟩ := List.mem_iff_getElem.mp h
    have hj9 : j < 9 := hj
    refine ⟨BitVec.ofNat 8 (0x04 + j), ?_⟩
    interval_cases j <;> exact ⟨by decide, by decide, rfl, rfl⟩
  · rintro ⟨reg, hlo, hhi, hread, haddr⟩
    obtain ⟨info, v⟩ := r
    rw [← BitVec.ofNat_toNat] at haddr
    subst haddr
    rw [readReg_eq_words (by omega)] at hread
    generalize reg.toNat = n at *
    interval_cases n <;> cases hread <;> simp [CfgRegs.binary64]

/-! ### The checks of START -/

/-- Where START's checks find no error every binary64 register is finite (R183). -/
theorem finite64_of_startError_none {c : CfgRegs} (h : startError c = none) :
    ∀ r ∈ c.binary64, finite64 r.2 = true := by
  obtain ⟨hsr, hbr, hd, hlt, hk⟩ := startError_none h
  have hsearch : c.binary64.find? (fun r => !finite64 r.2) = none :=
    Option.eq_none_iff_forall_ne_some.mpr fun r hr =>
      nomatch h.symm.trans (startError_nonfinite hsr hbr hd hlt hk hr)
  simpa using hsearch

/-- Where START's checks find no error the reacquisition gain is within the maximum (R183). -/
theorem gre_le_gmax_of_startError_none {c : CfgRegs} (h : startError c = none) : c.gre ≤ c.gmax := by
  obtain ⟨hsr, hbr, hd, hlt, hk⟩ := startError_none h
  have hlast := startError_finite hsr hbr hd hlt hk (finite64_of_startError_none h)
  rw [h] at hlast
  by_contra hgain
  rw [if_pos (not_le.mp hgain)] at hlast
  cases hlast

/-- round(SR/BR) is 0 where SR/BR is below one half (00_scope.md R12). -/
theorem agcdelay_eq_zero_iff {c : CfgRegs} (h : c.br ≠ 0) :
    c.agcdelay = 0 ↔ 2 * c.sampleRate.toNat < c.baudRate.toNat :=
  rnd_eq_zero_iff c.sr (Nat.pos_of_ne_zero h)

/-- The error START's checks find has its cause (R341), with its ERR_INFO (R343). -/
theorem raises_of_startError (addr : Byte) (data : Word64) {s : State} {e : ErrorCode} {info : Word64}
    (hm : s.mode = .idle ∨ s.mode = .done) (h : startError s.cfg = some (e, info)) :
    Raises s (.start addr data) e.code info .idle := by
  by_cases hsr : s.cfg.sr = 0
  · cases h.symm.trans (startError_sampleRate hsr)
    exact .sampleRate addr data hm (BitVec.eq_of_toNat_eq hsr)
  by_cases hbr : s.cfg.br = 0
  · cases h.symm.trans (startError_baudRate hsr hbr)
    exact .baudRate addr data hm (BitVec.eq_of_toNat_eq hbr)
  by_cases hd : s.cfg.agcdelay = 0
  · cases h.symm.trans (startError_agcZero hsr hbr hd)
    exact .agcZero addr data hm ((agcdelay_eq_zero_iff hbr).mp hd)
  by_cases hcap : 256 ≤ s.cfg.agcdelay
  · cases h.symm.trans (startError_agcCapacity hsr hbr hcap)
    exact .agcCapacity addr data hm (agcdelay_eq hbr ▸ hcap)
  have hlt := not_le.mp hcap
  by_cases hlag : 256 ≤ s.cfg.k
  · cases h.symm.trans (startError_delayCapacity hsr hbr hd hlt hlag)
    exact .delayCapacity addr data hm hlag
  have hk := not_le.mp hlag
  cases hsearch : s.cfg.binary64.find? (fun r => !finite64 r.2) with
  | some r =>
    cases h.symm.trans (startError_nonfinite hsr hbr hd hlt hk hsearch)
    obtain ⟨reg, hlo, hhi, hread, haddr⟩ := (mem_binary64_iff s r).mp (List.mem_of_find?_eq_some hsearch)
    have hbad : finite64 r.2 = false := by simpa using List.find?_some hsearch
    rw [haddr]
    exact .nonfinite addr data reg r.2 hm hlo hhi hread ((finite64_eq_false_iff _).mp hbad)
  | none =>
    have hlast := startError_finite hsr hbr hd hlt hk (by simpa using hsearch)
    by_cases hgain : s.cfg.gmax < s.cfg.gre
    · cases h.symm.trans (hlast.trans (if_pos hgain))
      exact .gainOrder addr data hm hgain
    · cases h.symm.trans (hlast.trans (if_neg hgain))

/-! ### No error applies -/

/-- No error of R341 applies to the instruction. -/
def NoneApplies (s : State) (i : Instr) : Prop := ∀ code info mode, ¬ Raises s i code info mode

theorem noneApplies_cfgWrite {addr : Byte} (data : Word64) {s : State}
    (hm : s.mode = .idle ∨ s.mode = .done) (haddr : addr.toNat ≤ 0x0E) :
    NoneApplies s (.cfgWrite addr data) := by
  intro code info mode h
  cases h with
  | writeState _ _ hstate => rcases hm with hm | hm <;> simp [hm] at hstate
  | writeAddr _ _ _ hbad => omega

theorem noneApplies_start (addr : Byte) (data : Word64) {s : State}
    (hm : s.mode = .idle ∨ s.mode = .done) (hchecks : startError s.cfg = none) :
    NoneApplies s (.start addr data) := by
  intro code info mode h
  obtain ⟨hsr, hbr, hd, hlt, hk⟩ := startError_none hchecks
  cases h with
  | startState _ _ hstate => rcases hm with hm | hm <;> simp [hm] at hstate
  | sampleRate _ _ _ hbad => exact hsr (congrArg BitVec.toNat hbad)
  | baudRate _ _ _ hbad => exact hbr (congrArg BitVec.toNat hbad)
  | agcZero _ _ _ hbad => exact hd ((agcdelay_eq_zero_iff hbr).mpr hbad)
  | agcCapacity _ _ _ hbad => exact absurd hlt (not_lt.mpr (agcdelay_eq hbr ▸ hbad))
  | delayCapacity _ _ _ hbad => exact absurd hk (not_lt.mpr hbad)
  | nonfinite _ _ reg v _ hlo hhi hread hbad =>
    have hmem := (mem_binary64_iff s (_, v)).mpr ⟨reg, hlo, hhi, hread, rfl⟩
    have hfinite := finite64_of_startError_none hchecks _ hmem
    cases hfinite.symm.trans ((finite64_eq_false_iff v).mpr hbad)
  | gainOrder _ _ _ hbad => exact absurd hbad (not_lt.mpr (gre_le_gmax_of_startError_none hchecks))

theorem noneApplies_sample (addr : Byte) {data : Word64} {s : State} (hm : s.mode = .run)
    (hf : finite64 data = true) (hn : s.run.n ≠ 0xFFFFFFFFFFFFFFFF#64) :
    NoneApplies s (.sample addr data) := by
  intro code info mode h
  cases h with
  | sampleState _ _ hstate => exact hstate hm
  | badSample _ _ _ hbad => cases hf.symm.trans ((finite64_eq_false_iff data).mpr hbad)
  | indexOverflow _ _ _ hbad => exact hn hbad

/-! ### The commands -/

/-- `t` is `s` with an error that applies to the instruction and nothing else, or no error applies and the
error registers stay or are cleared by START or SOFT_RESET (R342, R345). -/
def Precise (i : Instr) (s t : State) : Prop :=
  (∃ code info mode, Raises s i code info mode ∧ t = { s with
    mode := mode, err := code, errInfo := info, responses := s.responses ++ errorResponse i }) ∨
  (NoneApplies s i ∧
    ((t.err = s.err ∧ t.errInfo = s.errInfo) ∨
      (t.err = 0#8 ∧ t.errInfo = 0#64 ∧ ∃ a d, i = .start a d ∨ i = .softReset a d)))

/-- Raising an error that applies is precise, for an instruction that answers nothing (R342). -/
theorem precise_raise {i : Instr} {e : ErrorCode} {info : Word64} {s : State}
    (hi : errorResponse i = []) (h : Raises s i e.code info (e.modeAfter s.mode)) :
    Precise i s (raise e info s) := by
  refine .inl ⟨_, _, _, h, ?_⟩
  rw [hi, List.append_nil]
  rfl

theorem precise_of_kept {i : Instr} {s t : State} (h : NoneApplies s i) (herr : t.err = s.err)
    (hinfo : t.errInfo = s.errInfo) : Precise i s t := .inr ⟨h, .inl ⟨herr, hinfo⟩⟩

theorem precise_cfgWrite {addr : Byte} {data : Word64} {s t : State}
    (h : execCfgWrite addr data s = .next t) : Precise (.cfgWrite addr data) s t := by
  rcases execCfgWrite_cases h with ⟨hm, rfl⟩ | ⟨hm, c, hc, rfl⟩ | ⟨hm, hc, rfl⟩
  · exact precise_raise rfl (.writeState addr data ((acceptsConfig_eq_false_iff _).mp hm))
  · have haddr : addr.toNat ≤ 0x0E := not_lt.mp fun hbad =>
      nomatch hc.symm.trans (writeCfg_eq_none hbad data s.cfg)
    exact precise_of_kept (noneApplies_cfgWrite data ((acceptsConfig_eq_true_iff _).mp hm) haddr) rfl rfl
  · exact precise_raise rfl
      (.writeAddr addr data ((acceptsConfig_eq_true_iff _).mp hm) (writeCfg_eq_none_iff.mp hc))

theorem precise_regRead {addr : Byte} (data : Word64) {s t : State}
    (h : execRegRead addr s = .next t) : Precise (.regRead addr data) s t := by
  rcases execRegRead_cases h with ⟨v, hv, rfl⟩ | ⟨hnone, rfl⟩
  · refine precise_of_kept (fun code info mode hraises => ?_) rfl rfl
    cases hraises with
    | readAddr _ _ hbad => cases hv.symm.trans (readReg_eq_none hbad s)
  · exact .inl ⟨_, _, _, .readAddr addr data (readReg_eq_none_iff.mp hnone), rfl⟩

theorem precise_start {addr : Byte} (data : Word64) {s t : State}
    (h : execStart addr s = .next t) : Precise (.start addr data) s t := by
  rcases execStart_cases h with ⟨hm, rfl⟩ | ⟨hm, e, info, he, rfl⟩ | ⟨hm, he, rfl⟩
  · exact precise_raise rfl (.startState addr data ((acceptsConfig_eq_false_iff _).mp hm))
  · have hraises := raises_of_startError addr data ((acceptsConfig_eq_true_iff _).mp hm) he
    exact precise_raise rfl (modeAfter_of_startError s.mode he ▸ hraises)
  · exact .inr ⟨noneApplies_start addr data ((acceptsConfig_eq_true_iff _).mp hm) he,
      .inr ⟨rfl, rfl, addr, data, .inl rfl⟩⟩

theorem precise_sample {addr : Byte} {data : Word64} {s t : State}
    (h : execSample addr data s = .next t) : Precise (.sample addr data) s t := by
  rcases execSample_cases h with ⟨hm, rfl⟩ | ⟨hm, hf, rfl⟩ | ⟨hm, -, hn, rfl⟩ | ⟨hm, hf, hn, rfl⟩
  · exact precise_raise rfl (.sampleState addr data hm)
  · exact precise_raise rfl (.badSample addr data hm ((finite64_eq_false_iff data).mp hf))
  · exact precise_raise rfl (.indexOverflow addr data hm hn)
  · obtain ⟨-, herr, hinfo, -⟩ := sampleStep_control (f64 data) s
    exact precise_of_kept (noneApplies_sample addr hm hf hn) herr hinfo

theorem precise_finish {addr : Byte} (data : Word64) {s t : State}
    (h : execFinish addr s = .next t) : Precise (.finish addr data) s t := by
  rcases execFinish_cases h with ⟨hm, rfl⟩ | ⟨hm, rfl⟩
  · exact precise_raise rfl (.finishState addr data hm)
  · have hkeeps := (keeps_closeFile s).trans (keeps_closeCapture _)
    refine precise_of_kept (fun code info mode hraises => ?_) hkeeps.err hkeeps.errInfo
    cases hraises with
    | finishState _ _ hstate => exact hstate hm

end Sys2Proof.Machine

open Sys2Proof Sys2Proof.Machine

/-- Settles O19: each outcome of a command raises an error whose cause is its branch's condition, or
refutes the cause of every error its row has. -/
theorem errorsArePrecise : Obligations.ErrorsArePrecise := by
  intro i s t h
  change Precise i s t
  cases i with
  | nop addr data => exact precise_of_kept nofun (next_inj h ▸ rfl) (next_inj h ▸ rfl)
  | cfgWrite addr data => exact precise_cfgWrite h
  | regRead addr data => exact precise_regRead data h
  | start addr data => exact precise_start data h
  | sample addr data => exact precise_sample h
  | finish addr data => exact precise_finish data h
  | softReset addr data =>
    cases next_inj h
    exact .inr ⟨nofun, .inr ⟨rfl, rfl, addr, data, .inr rfl⟩⟩
end

section
/-! SUPPORT. FAULT, by the row and the column of R187's table (60_exceptions.md R346), O20. -/

namespace Sys2Proof.Machine

/-- `t` differs from `s` at most in the error registers, the inbox and the responses. -/
def OnlyErrors (s t : State) : Prop :=
  t = { s with err := t.err, errInfo := t.errInfo, inbox := t.inbox, responses := t.responses }

/-- In FAULT an instruction but SOFT_RESET writes error registers and responses at most (R346). -/
theorem onlyErrors_of_exec_fault {i : Instr} {s t : State} (hm : s.mode = .fault)
    (hi : isSoftReset i = false) (h : exec i s = .next t) : OnlyErrors s t := by
  have hrefuses : s.mode.acceptsConfig = false := hm ▸ rfl
  have hrun : s.mode ≠ .run := hm ▸ nofun
  cases i with
  | nop addr data => exact next_inj h ▸ rfl
  | cfgWrite addr data => exact next_inj ((exec_cfgWrite_of_refuses addr data hrefuses).symm.trans h) ▸ rfl
  | regRead addr data => rcases execRegRead_cases h with ⟨v, -, rfl⟩ | ⟨-, rfl⟩ <;> rfl
  | start addr data => exact next_inj ((exec_start_of_refuses addr data hrefuses).symm.trans h) ▸ rfl
  | sample addr data => exact next_inj ((exec_sample_of_not_run addr data hrun).symm.trans h) ▸ rfl
  | finish addr data =>
    rcases execFinish_cases h with ⟨-, rfl⟩ | ⟨hbad, -⟩
    · rfl
    · exact absurd hbad hrun
  | softReset addr data => cases hi

/-- In FAULT a step that accepts no SOFT_RESET writes error registers and host ports at most (R346). -/
theorem onlyErrors_of_step_fault {s t : State} (hm : s.mode = .fault) (hs : ¬ s.nextIsSoftReset)
    (h : step s = .next t) : OnlyErrors s t := by
  rcases step_cases h with ⟨-, rfl⟩ | ⟨c, rest, i, hin, hd, he⟩ | ⟨c, rest, cw, -, -, rfl⟩
  · rfl
  · have hi : isSoftReset i = false := Bool.eq_false_iff.mpr fun hi => hs ⟨c, rest, i, hin, hd, hi⟩
    exact onlyErrors_of_exec_fault (s := { s with inbox := rest }) hm hi he
  · rfl

/-- Outside the column of FAULT, SAMPLE in RUN is the one cell that allows it (40_host_commands.md R187). -/
theorem fault_mem_modesAfter {i : Instr} {m : Mode} (hm : m ≠ .fault)
    (h : Mode.fault ∈ modesAfter i m) : m = .run ∧ ∃ addr data, i = .sample addr data := by
  cases i with
  | sample addr data =>
    cases m with
    | run => exact ⟨rfl, addr, data, rfl⟩
    | idle | done | fault => exact absurd (List.mem_singleton.mp h).symm hm
  | nop | cfgWrite | regRead => exact absurd (List.mem_singleton.mp h).symm hm
  | start | finish => cases m <;> simp [modesAfter] at h hm
  | softReset => cases List.mem_singleton.mp h

/-- Only an error of SAMPLE in RUN enters FAULT, with its code and no record (R341, R346). -/
theorem exec_enters_fault {i : Instr} {s t : State} (hm : s.mode ≠ .fault)
    (h : exec i s = .next t) (ht : t.mode = .fault) :
    s.mode = .run ∧ (t.err = 0x20#8 ∨ t.err = 0x21#8) ∧ t.records = s.records := by
  obtain ⟨hafter, -⟩ := followsCell_of_exec h
  obtain ⟨hrun, addr, data, rfl⟩ := fault_mem_modesAfter hm (ht ▸ hafter)
  refine ⟨hrun, ?_⟩
  rcases execSample_cases h with ⟨hbad, -⟩ | ⟨-, -, rfl⟩ | ⟨-, -, -, rfl⟩ | ⟨-, -, -, rfl⟩
  · exact absurd hrun hbad
  · exact ⟨.inl rfl, rfl⟩
  · exact ⟨.inr rfl, rfl⟩
  · obtain ⟨hmode, -⟩ := sampleStep_control (f64 data) s
    exact absurd (hmode.symm.trans ht) hm

theorem step_enters_fault {s t : State} (hm : s.mode ≠ .fault) (h : step s = .next t)
    (ht : t.mode = .fault) :
    s.mode = .run ∧ (t.err = 0x20#8 ∨ t.err = 0x21#8) ∧ t.records = s.records := by
  rcases step_cases h with ⟨-, rfl⟩ | ⟨c, rest, i, -, -, he⟩ | ⟨c, rest, cw, -, -, rfl⟩
  · exact absurd ht hm
  · exact exec_enters_fault (s := { s with inbox := rest }) hm he ht
  · exact absurd ht hm

/-- A REG_READ keeps MODE, and ERR unless the address is reserved (40_host_commands.md R182). -/
theorem exec_regRead_mode_err (addr : Byte) (data : Word64) (s : State) :
    ∃ t, exec (.regRead addr data) s = .next t ∧ t.mode = s.mode ∧ (t.err = s.err ∨ t.err = 0x02#8) := by
  obtain ⟨t, h⟩ := exec_next (.regRead addr data) s
  refine ⟨t, h, ?_⟩
  rcases execRegRead_cases h with ⟨v, -, rfl⟩ | ⟨-, rfl⟩
  · exact ⟨rfl, .inl rfl⟩
  · exact ⟨rfl, .inr rfl⟩

end Sys2Proof.Machine

open Sys2Proof Sys2Proof.Machine

/-- Settles O20: in FAULT only error registers and ports are written, and R187's table has FAULT in one
cell outside its own column, that of SAMPLE in RUN. -/
theorem faultIsLeftOnlyByReset : Obligations.FaultIsLeftOnlyByReset := by
  refine ⟨fun s t hm hs h => ?_, fun s t hm h ht => step_enters_fault hm h ht,
    fun a d s t hm h => ?_, fun a d s hm => ⟨rfl, ?_⟩, fun a d s => ⟨_, rfl, rfl, rfl⟩⟩
  · rw [onlyErrors_of_step_fault hm hs h]
    exact ⟨hm, rfl, rfl, rfl, rfl⟩
  · have hillegal {i : Instr} (hi : illegalIn i .fault = true) (he : exec i s = .next t) :
        t.err = 0x03#8 ∧ t.mode = .fault := by
      obtain ⟨-, hcell, -⟩ := followsCell_of_exec he
      obtain ⟨hmode, herr⟩ := hcell (hm ▸ hi)
      exact ⟨herr, hmode.trans hm⟩
    rcases h with h | h | h | h
    · exact hillegal rfl h
    · exact hillegal rfl h
    · exact hillegal rfl h
    · exact hillegal rfl h
  · rw [← hm]
    exact exec_regRead_mode_err a d s
end

section
/-! SUPPORT. The error registers over a step (10_state.md R52, 60_exceptions.md R341), O55. -/

namespace Sys2Proof.Machine

/-- Raising an error leaves its code, which is not 0 (R341, R342). -/
theorem errorInv_raise (e : ErrorCode) (info : Word64) (s : State) : (raise e info s).ErrorInv :=
  ⟨.inr ⟨e, rfl⟩, fun h => absurd h (code_ne_zero e), fun _ => code_ne_zero e⟩

theorem errorInv_of_kept {s t : State} (hs : s.ErrorInv) (herr : t.err = s.err)
    (hinfo : t.errInfo = s.errInfo) (hmode : t.mode = .fault → s.mode = .fault) : t.ErrorInv := by
  obtain ⟨hcode, hzero, hfault⟩ := hs
  rw [State.ErrorInv, herr, hinfo]
  exact ⟨hcode, hzero, hfault ∘ hmode⟩

theorem errorInv_of_cleared {s : State} (herr : s.err = 0#8) (hinfo : s.errInfo = 0#64)
    (hmode : s.mode ≠ .fault) : s.ErrorInv :=
  ⟨.inl herr, fun _ => hinfo, fun h => absurd h hmode⟩

/-- A command raises an error, keeps the error registers without entering FAULT, or clears them outside
FAULT. -/
theorem errorInv_of_exec {i : Instr} {s t : State} (hs : s.ErrorInv) (h : exec i s = .next t) :
    t.ErrorInv := by
  cases i with
  | nop addr data => exact next_inj h ▸ hs
  | cfgWrite addr data =>
    rcases execCfgWrite_cases h with ⟨-, rfl⟩ | ⟨-, c, -, rfl⟩ | ⟨-, -, rfl⟩
    · exact errorInv_raise _ _ s
    · exact errorInv_of_kept hs rfl rfl id
    · exact errorInv_raise _ _ s
  | regRead addr data =>
    rcases execRegRead_cases h with ⟨v, -, rfl⟩ | ⟨-, rfl⟩
    · exact errorInv_of_kept hs rfl rfl id
    · exact errorInv_raise _ _ _
  | start addr data =>
    rcases execStart_cases h with ⟨-, rfl⟩ | ⟨-, e, info, -, rfl⟩ | ⟨-, -, rfl⟩
    · exact errorInv_raise _ _ s
    · exact errorInv_raise e info s
    · exact errorInv_of_cleared rfl rfl nofun
  | sample addr data =>
    rcases execSample_cases h with ⟨-, rfl⟩ | ⟨-, -, rfl⟩ | ⟨-, -, -, rfl⟩ | ⟨-, -, -, rfl⟩
    · exact errorInv_raise _ _ s
    · exact errorInv_raise _ _ s
    · exact errorInv_raise _ _ s
    · obtain ⟨hmode, herr, hinfo, -⟩ := sampleStep_control (f64 data) s
      exact errorInv_of_kept hs herr hinfo hmode.symm.trans
  | finish addr data =>
    rcases execFinish_cases h with ⟨-, rfl⟩ | ⟨-, rfl⟩
    · exact errorInv_raise _ _ s
    · have hkeeps := (keeps_closeFile s).trans (keeps_closeCapture _)
      exact errorInv_of_kept hs hkeeps.err hkeeps.errInfo nofun
  | softReset addr data => exact next_inj h ▸ errorInv_of_cleared rfl rfl nofun

end Sys2Proof.Machine

open Sys2Proof Sys2Proof.Machine

/-- Settles O55: no code is 0, so an error raised keeps all three clauses, whatever it follows. -/
theorem stepKeepsTheErrorCodes : Obligations.StepKeepsTheErrorCodes := fun _ _ =>
  step_invariant State.ErrorInv (fun _ _ => id) (fun _ _ _ => errorInv_of_exec)
    (fun _ s _ => errorInv_raise _ _ s)
end

section
/-! SUPPORT. The begin of a run and the configuration during one (40_host_commands.md R183, 10_state.md R53,
R86, 70_reset_and_hazards.md R371, R373), O13 and O21. -/

namespace Sys2Proof.Machine

/-- A run begins as a function of the configuration and the ports (R86). -/
theorem beginRun_congr {s t : State} (hcfg : t.cfg = s.cfg) (hinbox : t.inbox = s.inbox)
    (hrecords : t.records = s.records) (hresponses : t.responses = s.responses) :
    beginRun t = beginRun s := by
  simp only [beginRun, hcfg, hinbox, hrecords, hresponses]

/-- In RUN no effect writes the configuration: CFG_WRITE and START are not accepted there (R187). -/
theorem Effect.cfg_eq_of_run {s t : State} (hm : s.mode = .run) (h : Effect s t) : t.cfg = s.cfg := by
  cases h with
  | refused run cfg agcDelay mode => exact cfg
  | configured c accepts => simp [hm, Mode.acceptsConfig] at accepts
  | started accepts legal => rfl
  | sampled x running index =>
    obtain ⟨-, -, -, hcfg, -⟩ := sampleStep_control x s
    exact hcfg
  | finished running => exact ((keeps_closeFile s).trans (keeps_closeCapture _)).cfg

end Sys2Proof.Machine

open Sys2Proof Sys2Proof.Machine

/-- Settles O13: the checks read the configuration only, and so does the run they allow. -/
theorem startForgetsThePreviousRun : Obligations.StartForgetsThePreviousRun := by
  intro addr data s s' t hm hm' hcfg hinbox hrecords hresponses h ht
  obtain ⟨he, rfl⟩ := eq_beginRun_of_execStart ((acceptsConfig_iff _).mpr hm) h ht
  rw [exec_start_of_startError_none addr data ((acceptsConfig_iff _).mpr hm') (hcfg ▸ he),
    beginRun_congr hcfg hinbox hrecords hresponses]

/-- Settles O21: of the five effects besides SOFT_RESET none that RUN allows writes a register. -/
theorem configurationIsLockedDuringRun : Obligations.ConfigurationIsLockedDuringRun := by
  intro s t hm hs h
  obtain ⟨rest, heffect⟩ := effect_of_step hs h
  exact Effect.cfg_eq_of_run (s := { s with inbox := rest }) hm heffect
end

section
/-! SUPPORT. The ports over a command (20_memory.md R113, 30_encoding.md R130, 70_reset_and_hazards.md R370),
O22. -/

namespace Sys2Proof.Machine

/-- From `s` to `t` records and at most one response are appended, and the inbox stays. -/
structure AppendsOutput (s t : State) : Prop where
  records   : ∃ new, t.records = s.records ++ new
  responses : ∃ new, t.responses = s.responses ++ new ∧ new.length ≤ 1
  inbox     : t.inbox = s.inbox

/-- A command that answers nothing. -/
theorem appendsOutput_of_responses_eq {s t : State} (hrecords : ∃ new, t.records = s.records ++ new)
    (hresponses : t.responses = s.responses) (hinbox : t.inbox = s.inbox) : AppendsOutput s t :=
  ⟨hrecords, ⟨[], by rw [hresponses, List.append_nil], Nat.zero_le 1⟩, hinbox⟩

/-- A command that neither emits nor answers. -/
theorem appendsOutput_of_eq {s t : State} (hrecords : t.records = s.records)
    (hresponses : t.responses = s.responses) (hinbox : t.inbox = s.inbox) : AppendsOutput s t :=
  appendsOutput_of_responses_eq ⟨[], by rw [hrecords, List.append_nil]⟩ hresponses hinbox

theorem appendsOutput_raise (e : ErrorCode) (info : Word64) (s : State) :
    AppendsOutput s (raise e info s) :=
  appendsOutput_of_eq rfl rfl rfl

/-- A REG_READ answers once, also where it raises an error (40_host_commands.md R182). -/
theorem appendsOutput_execRegRead {addr : Byte} {s t : State} (h : execRegRead addr s = .next t) :
    AppendsOutput s t := by
  rcases execRegRead_cases h with ⟨v, -, rfl⟩ | ⟨-, rfl⟩
  · exact ⟨⟨[], (List.append_nil _).symm⟩, ⟨[v], rfl, le_rfl⟩, rfl⟩
  · exact ⟨⟨[], (List.append_nil _).symm⟩, ⟨[0#64], rfl, le_rfl⟩, rfl⟩

/-- A SAMPLE emits records and answers nothing (R184). -/
theorem appendsOutput_execSample {addr : Byte} {data : Word64} {s t : State}
    (h : execSample addr data s = .next t) : AppendsOutput s t := by
  rcases execSample_cases h with ⟨-, rfl⟩ | ⟨-, -, rfl⟩ | ⟨-, -, -, rfl⟩ | ⟨-, -, -, rfl⟩
  · exact appendsOutput_raise _ _ s
  · exact appendsOutput_raise _ _ s
  · exact appendsOutput_raise _ _ s
  · obtain ⟨new, hrecords, -⟩ := (oneByte_sampleStep (f64 data) s).bytes
    obtain ⟨-, -, -, -, -, hinbox, hresponses⟩ := sampleStep_control (f64 data) s
    exact appendsOutput_of_responses_eq ⟨new, hrecords⟩ hresponses hinbox

/-- Only REG_READ answers, and only SAMPLE and FINISH emit. -/
theorem appendsOutput_exec {i : Instr} {s t : State} (h : exec i s = .next t) : AppendsOutput s t := by
  cases i with
  | nop addr data => exact next_inj h ▸ appendsOutput_of_eq rfl rfl rfl
  | cfgWrite addr data =>
    rcases execCfgWrite_cases h with ⟨-, rfl⟩ | ⟨-, c, -, rfl⟩ | ⟨-, -, rfl⟩
    · exact appendsOutput_raise _ _ s
    · exact appendsOutput_of_eq rfl rfl rfl
    · exact appendsOutput_raise _ _ s
  | regRead addr data => exact appendsOutput_execRegRead h
  | start addr data =>
    rcases execStart_cases h with ⟨-, rfl⟩ | ⟨-, e, info, -, rfl⟩ | ⟨-, -, rfl⟩
    · exact appendsOutput_raise _ _ s
    · exact appendsOutput_raise e info s
    · exact appendsOutput_of_eq rfl rfl rfl
  | sample addr data => exact appendsOutput_execSample h
  | finish addr data =>
    rcases execFinish_cases h with ⟨-, rfl⟩ | ⟨-, rfl⟩
    · exact appendsOutput_raise _ _ s
    · have hkeeps := (keeps_closeFile s).trans (keeps_closeCapture _)
      exact appendsOutput_of_responses_eq hkeeps.records hkeeps.responses hkeeps.inbox
  | softReset addr data => exact next_inj h ▸ appendsOutput_of_eq rfl rfl rfl

end Sys2Proof.Machine

open Sys2Proof Sys2Proof.Machine

/-- Settles O22: a step takes the head of the inbox, and the command it runs only appends. -/
theorem outputStreamOnlyGrows : Obligations.OutputStreamOnlyGrows := by
  intro s t h
  rcases step_cases h with ⟨hin, rfl⟩ | ⟨c, rest, i, hin, -, he⟩ | ⟨c, rest, cw, hin, -, rfl⟩
  · obtain ⟨hrecords, hresponses, -⟩ := appendsOutput_of_eq (s := t) (t := t) rfl rfl rfl
    exact ⟨hrecords, hresponses, by rw [hin, List.tail_nil]⟩
  · obtain ⟨hrecords, hresponses, hinbox⟩ := appendsOutput_exec he
    exact ⟨hrecords, hresponses, by rw [hinbox, hin, List.tail_cons]⟩
  · obtain ⟨hrecords, hresponses, hinbox⟩ :=
      appendsOutput_raise .illegalOpcode (cw.setWidth 64) { s with inbox := rest }
    exact ⟨hrecords, hresponses, by rw [hin, List.tail_cons]; exact hinbox⟩
end

section
/-! SUPPORT. O34: a HIGH run (43_symbol_timer.md R272). -/

open Sys2Proof Sys2Proof.Machine

/-- Settles O34: the run sets the positions from CNT up to the new count, which the cap bounds. -/
theorem highRunSetsOnes : Obligations.HighRunSetsOnes := fun nb s =>
  ⟨fun j hj => getLsbD_setOnes s.run.acc s.run.cnt.toNat (bumpCount s.run.cnt nb) j hj,
    toNat_bumpCount s.run.cnt nb, rfl⟩
end

section
/-! SUPPORT. The payload buffer over a byte, a carrier loss and a close: only a payload byte writes it
(10_state.md R66, 45_block_parser.md R302), and O52. -/

namespace Sys2Proof.Machine

theorem bufferInv_congr {s t : State} (hpb : t.run.pb = s.run.pb) (hs : s.BufferInv) : t.BufferInv := by
  rwa [State.BufferInv, hpb]

theorem Byteless.bufferInv {s t : State} (h : Byteless s t) (hs : s.BufferInv) : t.BufferInv :=
  bufferInv_congr h.pb hs

theorem reset_bufferInv : State.reset.BufferInv := ⟨rfl, nofun⟩

/-- A payload byte is one write of the buffer, and the dispatch it may cause is none (R302, R305). -/
theorem bufferInv_payloadByte (b : Byte) {s : State} (hs : s.BufferInv) : (payloadByte b s).BufferInv := by
  obtain ⟨hwf, hbound⟩ := hs
  have hstored : (storePayload b s).BufferInv := ⟨wf_pbWrite _ _ b hwf, bound_pbWrite _ _ b hbound⟩
  exact (byteless_completePayload _).bufferInv hstored

theorem bufferInv_parser (b : Byte) {s : State} (hs : s.BufferInv) : (parser b s).BufferInv := by
  by_cases hpst : s.run.pst = .readData
  · rw [parser_readData b s hpst]
    exact bufferInv_payloadByte b hs
  · obtain ⟨hstores, -⟩ := parser_stores b s
    exact bufferInv_congr (hstores.pb hpst) hs

theorem bufferInv_close {s : State} (hs : s.BufferInv) : (closeCapture (closeFile s)).BufferInv :=
  ((byteless_closeFile s).trans (byteless_closeCapture _)).bufferInv hs

theorem sampleStep_bufferInv (x : NUM) {s : State} (hs : s.BufferInv) : (sampleStep x s).BufferInv :=
  sampleStep_preserves (P := State.BufferInv) (fun _ _ hsame => bufferInv_congr hsame.pb)
    (fun b u => bufferInv_congr (by rw [captureOut_run])) (fun b _ => bufferInv_parser b)
    (fun u => (byteless_carrierLossActions u).bufferInv) x hs

end Sys2Proof.Machine

open Sys2Proof Sys2Proof.Machine

/-- Settles O52: the buffer is emptied by reset and START and else written by payload bytes only. -/
theorem stepKeepsTheBufferCanonical : Obligations.StepKeepsTheBufferCanonical := fun _ _ hs h =>
  step_preserves_run (P := State.BufferInv) (fun _ _ hrun => bufferInv_congr (by rw [hrun]))
    reset_bufferInv (fun x _ _ => sampleStep_bufferInv x) (fun _ => bufferInv_close) hs h
end

section
/-! SUPPORT. The lengths of the records (30_encoding.md R151 to R162), O59. -/

namespace Sys2Proof.Machine

/-- A record is its tag byte and its fields (R151). -/
theorem length_wire (r : Record) : r.wire.length = r.fields.length + 1 := List.length_cons

end Sys2Proof.Machine

open Sys2Proof Sys2Proof.Machine

/-- Settles O59: the lengths of the integers add up, whatever their values. -/
theorem recordLengths : Obligations.RecordLengths := by
  refine ⟨fun a l d n => ?_, fun b => ?_, fun t => ?_, fun t l => ?_, fun n s y o g => ?_,
    fun l i k c e d => ?_, fun l b e => ?_, ?_, ?_⟩ <;>
    simp only [length_wire, Record.fields, List.length_append, length_bytesLE, List.length_singleton,
      List.length_nil]
end
